-- ==== Sys2Proof/Word.lean ====
section
/-! DEFINITION. The one word of the engine: the byte. Every stored or transferred value of the four spaces is 8 bits
wide (spec/20_memory.md R43); everything else the engine computes is an exact integer (spec/00_scope.md R8). -/

namespace Sys2Proof

/-- A framebuffer byte, a font column byte, a command byte or a TX byte (R43). Bit 7 is the most significant (R8). -/
abbrev Byte := BitVec 8

/-- A one bit flag or colour as the byte 0 or 1. -/
def bitByte (b : Bool) : Byte := if b then 1#8 else 0#8

end Sys2Proof
end

