-- ==== Sys2Proof/Config.lean ====
section
/-! DEFINITION. What is fixed for the machine: the constants of spec/00_scope.md R6, the open parameters FONT and
FONT_LAST of R7 (constants with no body, so that every claim holds for every font), and the one source of free values. -/

namespace Sys2Proof.Config

/-- `W`, the width in pixels (R6). -/
@[simp] def width : Nat := 84
/-- `H`, the height in pixels, a multiple of 8 (R6). -/
@[simp] def height : Nat := 48
/-- `PAGES = H / 8` (R6). -/
@[simp] def pages : Nat := 6
/-- `FB_BYTES = W * H / 8` (R6). -/
@[simp] def fbBytes : Nat := 504
/-- `GLYPH_COLS` (R6). -/
@[simp] def glyphCols : Nat := 5
/-- `GLYPH_ROWS` (R6). -/
@[simp] def glyphRows : Nat := 8
/-- `CELL_W`, 5 glyph columns and 1 spacer column, the cursor advance (R6). -/
@[simp] def cellW : Nat := 6
/-- `CELL_H`, the line advance (R6). -/
@[simp] def cellH : Nat := 8
/-- `FONT_BASE`, the code of the first glyph in the font table (R6). -/
@[simp] def fontBase : Nat := 0x20
/-- `STR_MAX`, the largest string length in one DRAW_STRING (R7). -/
@[simp] def strMax : Nat := 255

/-- `FONT(code, col)`, the external read-only font table (spec/42_glyph.md R90): an arbitrary total function, applied
only to codes of `[0x20, fontLast]` and columns of `[0, 5)`. No contents are in the spec (log entry 4). -/
opaque font : Nat → Nat → Byte

/-- How many codes the font table covers beyond the first, 0 to 0xDF (log entry 4). -/
opaque fontSpan : Fin 224

/-- `FONT_LAST`, the last code the font table covers, an open integer of `[0x20, 0xFF]` whose default is 0x7E
(spec/92_eei_decisions.md, OPEN parameters; R7). The model leaves it open (log entry 4). -/
def fontLast : Nat := fontBase + fontSpan.val

/-- The model's source of free values: `freeBits n k` is what the `n`-th draw gives the register numbered `k`.
It has no body, so no claim can rest on one of its values (log entries 2 and 15). -/
opaque freeBits : Nat → Nat → BitVec 16

end Sys2Proof.Config
end

