-- ==== Sys2Proof/Syntax.lean ====
section
/-! DEFINITION. The syntax: one constructor for each of the fifteen rows of spec/opcode_table.json, the eight commands of
the engine's command stream (spec/30_encoding.md R54) and the seven device command bytes of the TX port (R60). -/

namespace Sys2Proof

/-- The commands with their decoded operands (R53 for the engine's, R60 for the device's). Colours and the flag
`filled` are one bit (R52), coordinates and sizes are unsigned bytes (R7), a string is its character bytes (R94). -/
inductive Instr where
  /-- CLEAR, `clear()` (R74). -/
  | clear
  /-- SET_PIXEL, `set_pixel(x, y, on)` (R73). -/
  | setPixel (on : Bool) (x y : Byte)
  /-- DRAW_LINE, `draw_line(x0, y0, x1, y1, color)` (R81). -/
  | drawLine (color : Bool) (x0 y0 x1 y1 : Byte)
  /-- DRAW_RECT, `draw_rectangle(x, y, w, h, color, filled)` (R85). -/
  | drawRect (color filled : Bool) (x y w h : Byte)
  /-- CLEAR_AREA, `clear_area(x, y, w, h)` (R86). -/
  | clearArea (x y w h : Byte)
  /-- DRAW_CHAR, `draw_char(x, y, code, color)` (R92). -/
  | drawChar (color : Bool) (x y code : Byte)
  /-- DRAW_STRING, `draw_string(x, y, text, color)`; `len` is the length of `text` (R94). -/
  | drawString (color : Bool) (x y : Byte) (text : List Byte)
  /-- DISPLAY_UPDATE, `display_update()` (R102). -/
  | displayUpdate
  /-- DEV_FUNCTION_SET_EXTENDED, 0x21: "enter extended instruction mode" (R60). -/
  | devFunctionSetExtended
  /-- DEV_SET_VOP, `0x80 | level`: "set voltage level" (R60). -/
  | devSetVop (level : BitVec 7)
  /-- DEV_SET_BIAS, `0x10 | bias`: "set bias ratio" (R60). -/
  | devSetBias (bias : BitVec 3)
  /-- DEV_FUNCTION_SET_BASIC, 0x20: "return to basic instruction mode" (R60). -/
  | devFunctionSetBasic
  /-- DEV_DISPLAY_CONTROL_NORMAL, 0x0C: "normal display mode" (R60). -/
  | devDisplayControlNormal
  /-- DEV_SET_Y_PAGE, `0x40 | page`: "select page" (R60). -/
  | devSetYPage (page : BitVec 3)
  /-- DEV_SET_X_COLUMN, `0x80 | col`: "select column" (R60). -/
  | devSetXColumn (col : BitVec 7)
  deriving DecidableEq, Repr

/-- The instruction mode of the display device, by which it tells DEV_SET_VOP from DEV_SET_X_COLUMN (R60,
spec/90_conflicts.md C5). -/
inductive DevMode where
  | basic
  | extended
  deriving DecidableEq, Repr

/-- The two byte spaces of the opcode table: the engine's command stream, and the device command bytes (`dc = 0`). -/
inductive Space where
  | command
  | device
  deriving DecidableEq, Repr

/-- Which space a command belongs to (the table's "space"). -/
def Instr.space : Instr → Space
  | .clear => .command
  | .setPixel _ _ _ => .command
  | .drawLine _ _ _ _ _ => .command
  | .drawRect _ _ _ _ _ _ => .command
  | .clearArea _ _ _ _ => .command
  | .drawChar _ _ _ _ => .command
  | .drawString _ _ _ _ => .command
  | .displayUpdate => .command
  | .devFunctionSetExtended => .device
  | .devSetVop _ => .device
  | .devSetBias _ => .device
  | .devFunctionSetBasic => .device
  | .devDisplayControlNormal => .device
  | .devSetYPage _ => .device
  | .devSetXColumn _ => .device

end Sys2Proof
end

