-- ==== Sys2Proof/WellFormed.lean ====
section
/-! DEFINITION. Which terms of Instr the encodings can express: a string of at most 255 characters (its length is one
byte, spec/30_encoding.md R51), a page of 0 to 5 and a column of 0 to 83 (R60). Every other operand value is legal (R57). -/

namespace Sys2Proof

/-- The operand ranges of R51, R57 and R60. -/
def Instr.wf : Instr → Bool
  | .clear => true
  | .setPixel _ _ _ => true
  | .drawLine _ _ _ _ _ => true
  | .drawRect _ _ _ _ _ _ => true
  | .clearArea _ _ _ _ => true
  | .drawChar _ _ _ _ => true
  | .drawString _ _ _ text => decide (text.length ≤ Config.strMax)
  | .displayUpdate => true
  | .devFunctionSetExtended => true
  | .devSetVop _ => true
  | .devSetBias _ => true
  | .devFunctionSetBasic => true
  | .devDisplayControlNormal => true
  | .devSetYPage page => decide (page.toNat < Config.pages)
  | .devSetXColumn col => decide (col.toNat < Config.width)

end Sys2Proof
end

