-- ==== Sys2Proof/Decode.lean ====
section
/-! DEFINITION. The decoder of the command stream (spec/30_encoding.md R51 to R57), the device's reading of a command
byte (R60), the encoder written from the same tables, and the decoding of a word numbered as spec/opcode_table.json
numbers it. -/

namespace Sys2Proof

/-! ## The command stream -/

/-- The eight operations of the opcode map (R54). -/
inductive Opcode where
  | clear | setPixel | drawLine | drawRect | clearArea | drawChar | drawString | displayUpdate
  deriving DecidableEq, Repr

/-- One row of the opcode map: an opcode byte selects it when `(OP & mask) == match` (R54). -/
structure OpRow where
  opcode : Opcode
  pattern : Byte
  mask : Byte
  deriving DecidableEq, Repr

/-- The opcode map of R54. -/
def opcodeRows : List OpRow :=
  [ ⟨.clear, 0x10, 0xFF⟩,
    ⟨.setPixel, 0x20, 0xFE⟩,
    ⟨.drawLine, 0x30, 0xFE⟩,
    ⟨.drawRect, 0x40, 0xFC⟩,
    ⟨.clearArea, 0x50, 0xFF⟩,
    ⟨.drawChar, 0x60, 0xFE⟩,
    ⟨.drawString, 0x70, 0xFE⟩,
    ⟨.displayUpdate, 0x80, 0xFF⟩ ]

/-- Does the row select this opcode byte? -/
def OpRow.selects (r : OpRow) (op : Byte) : Bool := op &&& r.mask == r.pattern

/-- The operation an opcode byte selects, none for the 241 illegal bytes (R56). -/
def opcodeOf (op : Byte) : Option Opcode := (opcodeRows.find? (·.selects op)).map (·.opcode)

/-- How many operand bytes the decoder latches for an operation (R51, R53): a string's characters are not among them. -/
def latchCount : Opcode → Nat
  | .clear => 0
  | .setPixel => 2
  | .drawLine => 4
  | .drawRect => 4
  | .clearArea => 4
  | .drawChar => 3
  | .drawString => 3
  | .displayUpdate => 0

/-- `C = OP[0]`, the colour (R52). -/
def colourBit (op : Byte) : Bool := op.getLsbD 0

/-- `F = OP[1]`, filled (R52). -/
def filledBit (op : Byte) : Bool := op.getLsbD 1

/-- What the decoder reads from the bytes it has. -/
inductive DecodeResult where
  /-- A whole command, and the bytes after it. -/
  | ok (i : Instr) (rest : List Byte)
  /-- The opcode byte matches no row of R54 (R56). -/
  | illegalOpcode (op : Byte)
  /-- The bytes end before the command does (R61). -/
  | truncated
  deriving DecidableEq, Repr

/-- The operand bytes of each format, in stream order (R51, R53); DRAW_STRING's length is its fourth byte (R55). -/
def decodeOperands (o : Opcode) (c f : Bool) (args : List Byte) : DecodeResult :=
  match o with
  | .clear => .ok .clear args
  | .displayUpdate => .ok .displayUpdate args
  | .setPixel =>
    match args with
    | x :: y :: rest => .ok (.setPixel c x y) rest
    | _ => .truncated
  | .drawLine =>
    match args with
    | x0 :: y0 :: x1 :: y1 :: rest => .ok (.drawLine c x0 y0 x1 y1) rest
    | _ => .truncated
  | .drawRect =>
    match args with
    | x :: y :: w :: h :: rest => .ok (.drawRect c f x y w h) rest
    | _ => .truncated
  | .clearArea =>
    match args with
    | x :: y :: w :: h :: rest => .ok (.clearArea x y w h) rest
    | _ => .truncated
  | .drawChar =>
    match args with
    | x :: y :: code :: rest => .ok (.drawChar c x y code) rest
    | _ => .truncated
  | .drawString =>
    match args with
    | x :: y :: len :: rest =>
      if len.toNat ≤ rest.length then
        .ok (.drawString c x y (rest.take len.toNat)) (rest.drop len.toNat)
      else .truncated
    | _ => .truncated

/-- The command decoder, total on any bytes (R51 to R57). It tests the opcode byte before any operand (R115). -/
def decodeCommand (bytes : List Byte) : DecodeResult :=
  match bytes with
  | [] => .truncated
  | op :: args =>
    match opcodeOf op with
    | none => .illegalOpcode op
    | some o => decodeOperands o (colourBit op) (filledBit op) args

/-! ## Device command bytes -/

/-- How the display device reads a command byte, none for a byte R60 does not list. The patterns of DEV_SET_VOP and
DEV_SET_X_COLUMN are one; the device tells them apart by its instruction mode (R60, R132, C5). -/
def decodeDevice (m : DevMode) (b : Byte) : Option Instr :=
  if b = 0x21#8 then some .devFunctionSetExtended
  else if b = 0x20#8 then some .devFunctionSetBasic
  else if b = 0x0C#8 then some .devDisplayControlNormal
  else if b &&& 0xF8#8 = 0x10#8 then some (.devSetBias (b.setWidth 3))
  else if b &&& 0xF8#8 = 0x40#8 then some (.devSetYPage (b.setWidth 3))
  else if b &&& 0x80#8 = 0x80#8 then
    match m with
    | .basic => some (.devSetXColumn (b.setWidth 7))
    | .extended => some (.devSetVop (b.setWidth 7))
  else none

/-! ## The encoder -/

/-- The bytes of a command in stream order (R51 to R54), or the one device byte (R60). -/
def encode : Instr → List Byte
  | .clear => [0x10]
  | .setPixel on x y => [0x20 ||| bitByte on, x, y]
  | .drawLine c x0 y0 x1 y1 => [0x30 ||| bitByte c, x0, y0, x1, y1]
  | .drawRect c f x y w h => [0x40 ||| (bitByte f <<< 1) ||| bitByte c, x, y, w, h]
  | .clearArea x y w h => [0x50, x, y, w, h]
  | .drawChar c x y code => [0x60 ||| bitByte c, x, y, code]
  | .drawString c x y text => (0x70 ||| bitByte c) :: x :: y :: BitVec.ofNat 8 text.length :: text
  | .displayUpdate => [0x80]
  | .devFunctionSetExtended => [0x20 ||| 0x01]
  | .devSetVop level => [0x80 ||| level.setWidth 8]
  | .devSetBias bias => [0x10 ||| bias.setWidth 8]
  | .devFunctionSetBasic => [0x20]
  | .devDisplayControlNormal => [0x08 ||| 0x04]
  | .devSetYPage page => [0x40 ||| page.setWidth 8]
  | .devSetXColumn col => [0x80 ||| col.setWidth 8]

/-- The length of a command in bytes (R55). -/
def Instr.byteLength : Instr → Nat
  | .clear => 1
  | .setPixel _ _ _ => 3
  | .drawLine _ _ _ _ _ => 5
  | .drawRect _ _ _ _ _ _ => 5
  | .clearArea _ _ _ _ => 5
  | .drawChar _ _ _ _ => 4
  | .drawString _ _ _ text => 4 + text.length
  | .displayUpdate => 1
  | .devFunctionSetExtended => 1
  | .devSetVop _ => 1
  | .devSetBias _ => 1
  | .devFunctionSetBasic => 1
  | .devDisplayControlNormal => 1
  | .devSetYPage _ => 1
  | .devSetXColumn _ => 1

/-! ## Words numbered as the opcode table numbers them -/

/-- Byte `k` of a table word is its bits `8k+7 .. 8k`; every bit from `nbits` up is 0. -/
def tableByte (nbits w k : Nat) : Byte := BitVec.ofNat 8 ((w % 2 ^ nbits) / 256 ^ k)

/-- How many bytes the command that starts a table word has (R55); an opcode byte with no command stands alone. -/
def tableLength (nbits w : Nat) : Nat :=
  match opcodeOf (tableByte nbits w 0) with
  | none => 1
  | some .drawString => 4 + (tableByte nbits w 3).toNat
  | some o => 1 + latchCount o

/-- The bytes of a table word in stream order: those of the command it starts with. -/
def tableBytes (nbits w : Nat) : List Byte := (List.range (tableLength nbits w)).map (tableByte nbits w)

/-- The mode in which the device reads a byte as a command within R60's ranges: `0x80 | v` with `v > 83` is no column,
only a contrast level (log entry 17). -/
def tableMode (b : Byte) : DevMode := if b.toNat < 0xD4 then .basic else .extended

/-- A table word is a command of the engine's stream where its first byte is a legal opcode, else a device command
byte (the two spaces share byte values, R54; log entry 17). -/
def decodeTableWord (nbits w : Nat) : Option Instr :=
  match decodeCommand (tableBytes nbits w) with
  | .ok i _ => some i
  | .truncated => none
  | .illegalOpcode op => decodeDevice (tableMode op) op

end Sys2Proof
end

