-- ==== Sys2Proof/Machine/State.lean ====
section
/-! DEFINITION. Everything the spec gives the machine, as plain data (spec/10_state.md R10 to R23), the display device
behind the TX port as far as R19, R60, R103 and R118 give it, what the environment still does (R144), and reset (R130). -/

namespace Sys2Proof.Machine

/-- A byte memory: address and byte pairs, addresses strictly rising (see Machine/Ops.lean). -/
abbrev Memory := List Host.Cell

/-! ## The engine -/

/-- `SEQ`, what the engine is doing (R17). -/
inductive Seq where
  /-- Waiting for an opcode byte. -/
  | idle
  /-- Collecting operand bytes. -/
  | operands
  /-- The sequencer of the decoded command is running. -/
  | exec
  /-- An undecodable opcode was seen. -/
  | faulted
  deriving DecidableEq, Repr

/-- A TX event `(dc, byte)`: `dc = false` is a command byte, `dc = true` a data byte (R62). -/
structure TxEvent where
  dc : Bool
  byte : Byte
  deriving DecidableEq, Repr

/-- The operand latches (R12), with the model's own count of the operand bytes latched so far (log entry 18). -/
structure Latches where
  op : Byte
  a0 : Byte
  a1 : Byte
  a2 : Byte
  a3 : Byte
  /-- `C = OP[0]`. -/
  c : Bool
  /-- `F = OP[1]`. -/
  f : Bool
  nops : Nat
  deriving DecidableEq, Repr

/-- The line sequencer's registers, exact signed integers (R13; 16 bits hold every value, R82 item 6). -/
structure LineRegs where
  lx : Int
  ly : Int
  lx1 : Int
  ly1 : Int
  dx : Int
  dy : Int
  sx : Int
  sy : Int
  err : Int
  e2 : Int
  deriving DecidableEq, Repr

/-- The rectangle sequencer's registers (R14). -/
structure RectRegs where
  ri : Int
  rj : Int
  rxe : Int
  rye : Int
  xr : Int
  yb : Int
  edge : Nat
  deriving DecidableEq, Repr

/-- The glyph sequencer's registers (R15). -/
structure GlyphRegs where
  gi : Nat
  gj : Nat
  gbyte : Byte
  deriving DecidableEq, Repr

/-- The text-layout registers (R16); `stopped` is the model's own mark that the layout has stopped early (R94, log
entry 18). -/
structure TextRegs where
  cx : Nat
  cy : Nat
  x0 : Nat
  nleft : Nat
  ch : Byte
  stopped : Bool
  deriving DecidableEq, Repr

/-- The working registers: live inside one command, of any value between commands (R12 to R16, R20, R23, U10). -/
structure Work where
  latch : Latches
  line : LineRegs
  rect : RectRegs
  glyph : GlyphRegs
  text : TextRegs
  /-- `SI`, the index of the next framebuffer byte to send (R20). -/
  si : Nat
  deriving DecidableEq, Repr

/-! ## The display device behind the TX port -/

/-- The device's control state, set by the command bytes of R60 (R19), and its page-organized memory (R118, R103).
No state of the engine depends on it (R118, R145). -/
structure Device where
  mode : DevMode
  /-- The contrast (Vop) level, 7 bits. -/
  vop : BitVec 7
  /-- The bias ratio, 3 bits. -/
  bias : BitVec 3
  /-- Has "normal display mode" been selected? -/
  displayNormal : Bool
  /-- The page address, 0 to 5. -/
  page : Fin 6
  /-- The column address, 0 to 83. -/
  col : Fin 84
  /-- Its memory, byte `page * 84 + column`; an unlisted address holds a byte nobody knows (R131). -/
  ram : Memory
  deriving DecidableEq, Repr

/-! ## The environment -/

/-- What the host and the collaborator can do to the engine (R144). Sampling the debug read port and observing BUSY and
FAULT change nothing: they are functions of the state (Machine/Ports.lean). -/
inductive HostMove where
  /-- Offer a byte on the command port. -/
  | cmd (b : Byte)
  /-- Send a command byte to the display by the host's own path (`dc = 0`). -/
  | dev (b : Byte)
  /-- Assert and release `rst`. -/
  | rst
  /-- The collaborator will accept `n` more TX events. -/
  | txReady (n : Nat)
  deriving DecidableEq, Repr

/-! ## The state -/

/-- The machine: the engine (FB, FAULT, SEQ, TRACE, the working registers, the TX port), the display device, what the
environment still does, and the count of free values drawn. BUSY is a function of SEQ (R18). -/
structure State where
  /-- `FB`; an unlisted index reads 0x00, the reset contents (R10, R23). -/
  fb : Memory
  /-- `FAULT`, sticky (R18). -/
  fault : Bool
  seq : Seq
  /-- `TRACE`, oldest first (R20). -/
  trace : List TxEvent
  work : Work
  /-- The TX event offered and not yet accepted: `tx_valid`, `tx_dc`, `tx_byte` (R100). -/
  tx : Option TxEvent
  device : Device
  /-- What the host still does, in order (log entry 5). -/
  moves : List HostMove
  /-- How many more TX events the collaborator accepts; none when it accepts every one (R104, log entry 7). -/
  txCredit : Option Nat
  /-- The next draw of Config.freeBits (the model's own, log entry 2). -/
  draws : Nat
  deriving DecidableEq, Repr

/-- Why no step is enabled. None of these is raised by an operand value of a legal command (R110). -/
inductive Fault where
  /-- The host has stopped in the middle of a command: the engine waits in `NextCmdByte()` for ever (R61, U13). Raised
  by step. Safe. -/
  | waitsForByte
  /-- `FAULT = 1`: no command step exists until reset (R113). Raised by step, and by exec of a command of the stream.
  Safe. -/
  | engineFaulted
  /-- A TX event is offered and never accepted (R104, U3). Raised by step. Safe. -/
  | txStalled
  deriving DecidableEq, Repr

/-- What the model gives no meaning. -/
inductive Refusal where
  /-- An instruction without a meaning: raised by no arm of this model. Safe. -/
  | notModelled (mnemonic : String)
  /-- The host sends the display a byte that R60 does not list: the spec does not say what the device does with it (U9,
  N12). Raised by step. Safe. -/
  | deviceByteNotListed
  deriving DecidableEq, Repr

/-! ## Reset -/

/-- The values the model names for the working registers after reset, all unspecified in the spec (R23, log entry 3). -/
def Work.reset : Work where
  latch := ⟨0, 0, 0, 0, 0, false, false, 0⟩
  line := ⟨0, 0, 0, 0, 0, 0, 0, 0, 0, 0⟩
  rect := ⟨0, 0, 0, 0, 0, 0, 0⟩
  glyph := ⟨0, 0, 0⟩
  text := ⟨0, 0, 0, 0, 0, false⟩
  si := 0

/-- The values the model names for the display device, unknown in the spec (R131, log entry 12). -/
def Device.reset : Device where
  mode := .basic
  vop := 0
  bias := 0
  displayNormal := false
  page := 0
  col := 0
  ram := []

/-- The machine right after reset (R23, R130): FB blank, FAULT and BUSY 0, SEQ idle, TRACE empty, nothing offered on
the TX port; no program is placed (log entry 5) and the collaborator accepts every event (log entry 7). -/
def State.reset : State where
  fb := []
  fault := false
  seq := .idle
  trace := []
  work := Work.reset
  tx := none
  device := Device.reset
  moves := []
  txCredit := none
  draws := 0

end Sys2Proof.Machine
end

