-- ==== Sys2Proof/Machine/Ops.lean ====
section
/-! DEFINITION. The shared operations: byte memories in canonical form (spec/20_memory.md R33), the end of a command,
raising the one fault and the reset that clears it (spec/60_exceptions.md R113, spec/70_reset_and_hazards.md R130). -/

namespace Sys2Proof.Machine

/-! ## Byte memories -/

/-- The byte listed at an address. -/
def memFind : Memory → Nat → Option Byte
  | [], _ => none
  | (k, v) :: m, a => if k = a then some v else memFind m a

/-- List `v` at address `a`, in the place that keeps addresses rising. -/
def memPut : Memory → Nat → Byte → Memory
  | [], a, v => [(a, v)]
  | (k, w) :: m, a, v =>
    if a < k then (a, v) :: (k, w) :: m
    else if a = k then (a, v) :: m
    else (k, w) :: memPut m a v

/-- List nothing at address `a`. -/
def memErase : Memory → Nat → Memory
  | [], _ => []
  | (k, w) :: m, a => if k = a then m else (k, w) :: memErase m a

/-- Every address of the list is above `lo`, and they rise strictly. -/
def memRisingFrom : Nat → Memory → Bool
  | _, [] => true
  | lo, (k, _) :: m => decide (lo ≤ k) && memRisingFrom (k + 1) m

/-- `MemRead(FB, i, 1)` (R33): an unlisted index reads 0x00, the reset contents (R23). -/
def fbRead (fb : Memory) (i : Nat) : Byte := (memFind fb i).getD 0

/-- `MemWrite(FB, i, 1, v)` (R33): writing 0x00 unlists the index. -/
def fbWrite (fb : Memory) (i : Nat) (v : Byte) : Memory := if v = 0 then memErase fb i else memPut fb i v

/-- The canonical form of FB: indices strictly rising, each below 504 (R10), no byte 0x00 listed. -/
def Memory.wf (fb : Memory) : Bool :=
  memRisingFrom 0 fb && fb.all fun c => decide (c.1 < Config.fbBytes) && decide (c.2 ≠ 0)

/-- The canonical form of the device's memory: addresses strictly rising, each below 504. -/
def ramWf (ram : Memory) : Bool := memRisingFrom 0 ram && ram.all fun c => decide (c.1 < Config.fbBytes)

/-! ## The end of a command -/

/-- The `n`-th draw of a free value of `w` bits for the register numbered `k`. -/
def freeNat (n k w : Nat) : Nat := (Config.freeBits n k).toNat % 2 ^ w

/-- Working registers of any value (U10): each a free value of the width R12 to R16 and R20 give it. -/
def freeWork (n : Nat) : Work where
  latch :=
    { op := (Config.freeBits n 0).setWidth 8
      a0 := (Config.freeBits n 1).setWidth 8
      a1 := (Config.freeBits n 2).setWidth 8
      a2 := (Config.freeBits n 3).setWidth 8
      a3 := (Config.freeBits n 4).setWidth 8
      c := (Config.freeBits n 5).getLsbD 0
      f := (Config.freeBits n 6).getLsbD 0
      nops := freeNat n 7 3 }
  line :=
    { lx := (Config.freeBits n 8).toInt
      ly := (Config.freeBits n 9).toInt
      lx1 := (Config.freeBits n 10).toInt
      ly1 := (Config.freeBits n 11).toInt
      dx := (Config.freeBits n 12).toInt
      dy := (Config.freeBits n 13).toInt
      sx := (Config.freeBits n 14).toInt
      sy := (Config.freeBits n 15).toInt
      err := (Config.freeBits n 16).toInt
      e2 := (Config.freeBits n 17).toInt }
  rect :=
    { ri := (Config.freeBits n 18).toInt
      rj := (Config.freeBits n 19).toInt
      rxe := (Config.freeBits n 20).toInt
      rye := (Config.freeBits n 21).toInt
      xr := (Config.freeBits n 22).toInt
      yb := (Config.freeBits n 23).toInt
      edge := freeNat n 24 2 }
  glyph :=
    { gi := freeNat n 25 3
      gj := freeNat n 26 3
      gbyte := (Config.freeBits n 27).setWidth 8 }
  text :=
    { cx := freeNat n 28 16
      cy := freeNat n 29 16
      x0 := freeNat n 30 16
      nleft := freeNat n 31 8
      ch := (Config.freeBits n 32).setWidth 8
      stopped := (Config.freeBits n 33).getLsbD 0 }
  si := freeNat n 34 9

/-- A command's last effect is done: SEQ returns to IDLE (R17) and the working registers hold any value (U10). -/
def finish (s : State) : State :=
  { s with seq := .idle, work := freeWork s.draws, draws := s.draws + 1 }

/-- A command of the stream whose sequencer is `body`. It is taken only by an engine that is not faulted (R113). -/
def runCommand (body : State → State) (s : State) : Host.Outcome State Fault Refusal :=
  if s.fault then .fault .engineFaulted else .next (finish (body s))

/-! ## The one fault, and reset -/

/-- `raise Fault(IllegalOpcode)` (R113): FAULT and SEQ change; FB, TRACE and every other register keep their values, and
the offending byte is recorded nowhere. -/
def raiseFault (s : State) : State := { s with fault := true, seq := .faulted }

/-- Reset (R130), the only way out of FAULTED (R117): the engine is as State.reset has it; the display device is not
reset (R131), and what the environment still does is its own. -/
def resetEngine (s : State) : State :=
  { State.reset with device := s.device, moves := s.moves, txCredit := s.txCredit, draws := s.draws }

end Sys2Proof.Machine
end

