-- ==== Sys2Proof/Machine/Operands.lean ====
section
/-! DEFINITION. The one addressing mode, `Addr(x, y)` (spec/40_bitaddr.md R70), the pixel read and write built on it
(R71, R72), and the operand latches of the decoder (spec/10_state.md R12). -/

namespace Sys2Proof.Machine

/-- An operand byte as the non-negative integer 0 to 255 (R53). -/
def zext (b : Byte) : Int := Int.ofNat b.toNat

/-- In range: `0 <= x < W` and `0 <= y < H`. -/
def inRange (x y : Int) : Bool :=
  decide (0 ≤ x) && decide (x < (Config.width : Int)) && decide (0 ≤ y) && decide (y < (Config.height : Int))

/-- `Addr(x, y) = (index, bit)`, applied only in range (R70). -/
def pixelAddr (x y : Int) : Nat × Nat := (x.toNat + y.toNat / 8 * Config.width, y.toNat % 8)

/-- One bit of a byte set or cleared, the other seven kept (R71). -/
def withBit (old : Byte) (bit : Nat) (c : Bool) : Byte :=
  if c then old ||| (1#8 <<< bit) else old &&& ~~~(1#8 <<< bit)

/-- `PixelWrite(x, y, c)`, the sole mutation primitive (R71): an out-of-range write is dropped. -/
def pixelWrite (x y : Int) (c : Bool) (fb : Memory) : Memory :=
  if inRange x y then
    fbWrite fb (pixelAddr x y).1 (withBit (fbRead fb (pixelAddr x y).1) (pixelAddr x y).2 c)
  else fb

/-- `PixelRead(x, y)` (R72): a pure observation of FB, with no value out of range. -/
def pixelRead (fb : Memory) (x y : Int) : Option Bool :=
  if inRange x y then some ((fbRead fb (pixelAddr x y).1).getLsbD (pixelAddr x y).2) else none

/-- The latches loaded from an opcode byte and its operand bytes, as many as there are (R12, R53). -/
def loadLatches (op : Byte) (args : List Byte) (l : Latches) : Latches where
  op := op
  a0 := args.getD 0 l.a0
  a1 := args.getD 1 l.a1
  a2 := args.getD 2 l.a2
  a3 := args.getD 3 l.a3
  c := colourBit op
  f := filledBit op
  nops := args.length

/-- The decoder latches the bytes of a command it has taken, the opcode byte first; a string's characters are taken
one by one in EXEC and not latched (R12, R17). -/
def latchBytes (bytes : List Byte) (l : Latches) : Latches :=
  match bytes with
  | [] => l
  | op :: args => loadLatches op (args.take (((opcodeOf op).map latchCount).getD 0)) l

/-- The bytes of the command in progress that the decoder has latched. -/
def latchedBytes (l : Latches) : List Byte := [l.op, l.a0, l.a1, l.a2, l.a3].take (l.nops + 1)

end Sys2Proof.Machine
end

