-- ==== Sys2Proof/Machine/BitAddr.lean ====
section
/-! DEFINITION. The bit-addressing layer's commands (spec/40_bitaddr.md): SET_PIXEL and CLEAR. -/

namespace Sys2Proof.Machine

/-- SET_PIXEL (R73): one `PixelWrite`. -/
def execSetPixel (on : Bool) (x y : Byte) (s : State) : Host.Outcome State Fault Refusal :=
  runCommand (fun s => { s with fb := pixelWrite (zext x) (zext y) on s.fb }) s

/-- The 504 byte writes of CLEAR, in index order (R74). -/
def clearBytes (fb : Memory) : Memory := (List.range Config.fbBytes).foldl (fun m i => fbWrite m i 0) fb

/-- CLEAR (R74): every byte of FB becomes 0x00. -/
def execClear (s : State) : Host.Outcome State Fault Refusal :=
  runCommand (fun s => { s with fb := clearBytes s.fb }) s

end Sys2Proof.Machine
end

