-- ==== Sys2Proof/Machine/DeviceBytes.lean ====
section
/-! DEFINITION. The display device as far as the spec gives it: what its command bytes do (spec/30_encoding.md R60), how
it takes data bytes (spec/43_serializer.md R103), and the seven device rows of the opcode table. -/

namespace Sys2Proof.Machine

/-! ## The device's operations -/

/-- "select page" (R60); a page the spec does not list (6, 7) selects a page nobody knows (log entry 15). -/
def selectPage (n : Nat) (p : BitVec 3) (d : Device) : Device :=
  { d with page := if h : p.toNat < 6 then ⟨p.toNat, h⟩ else ⟨freeNat n 40 16 % 6, by omega⟩ }

/-- "select column" (R60); a column the spec does not list (84 to 127) selects a column nobody knows (log entry 15). -/
def selectColumn (n : Nat) (c : BitVec 7) (d : Device) : Device :=
  { d with col := if h : c.toNat < 84 then ⟨c.toNat, h⟩ else ⟨freeNat n 41 16 % 84, by omega⟩ }

/-- The byte `0x80 | v`: the device in extended mode reads a contrast level, in basic mode a column (R60, R132, C5). -/
def columnOrContrast (n : Nat) (v : BitVec 7) (d : Device) : Device :=
  match d.mode with
  | .basic => selectColumn n v d
  | .extended => { d with vop := v }

/-- "set bias ratio" (R60), a command of the extended mode; in basic mode the spec does not state the ratio that
results (log entry 15). -/
def setBias (n : Nat) (b : BitVec 3) (d : Device) : Device :=
  match d.mode with
  | .basic => { d with bias := (Config.freeBits n 42).setWidth 3 }
  | .extended => { d with bias := b }

/-- The instruction mode: 0x21 enters the extended one, 0x20 returns to the basic one (R60). -/
def setMode (m : DevMode) (d : Device) : Device := { d with mode := m }

/-- "normal display mode" (R60). -/
def setDisplayNormal (d : Device) : Device := { d with displayNormal := true }

/-- After a data byte the column address advances, and steps to the next page after column 83 (R103), from the last
page to the first (G4, log entry 13). -/
def advanceAddress (d : Device) : Device :=
  if h : d.col.val + 1 < 84 then { d with col := ⟨d.col.val + 1, h⟩ }
  else { d with col := 0, page := if h : d.page.val + 1 < 6 then ⟨d.page.val + 1, h⟩ else 0 }

/-- A data byte lands at the device's page and column (R103, log entry 13). -/
def deviceData (b : Byte) (d : Device) : Device :=
  advanceAddress { d with ram := memPut d.ram (d.page.val * 84 + d.col.val) b }

/-- What the device does with a command byte it has read as a row of R60. No command of the engine's stream is one. -/
def deviceCommand (n : Nat) (i : Instr) (d : Device) : Device :=
  match i with
  | .clear => d
  | .setPixel _ _ _ => d
  | .drawLine _ _ _ _ _ => d
  | .drawRect _ _ _ _ _ _ => d
  | .clearArea _ _ _ _ => d
  | .drawChar _ _ _ _ => d
  | .drawString _ _ _ _ => d
  | .displayUpdate => d
  | .devFunctionSetExtended => setMode .extended d
  | .devSetVop level => columnOrContrast n level d
  | .devSetBias bias => setBias n bias d
  | .devFunctionSetBasic => setMode .basic d
  | .devDisplayControlNormal => setDisplayNormal d
  | .devSetYPage page => selectPage n page d
  | .devSetXColumn col => columnOrContrast n col d

/-- The device takes one TX event of the engine. The engine's two command bytes, 0x40 and 0x80, are always read as
rows of R60, so the last case does not arise. -/
def deviceReceive (n : Nat) (e : TxEvent) (d : Device) : Device :=
  if e.dc then deviceData e.byte d
  else
    match decodeDevice d.mode e.byte with
    | some i => deviceCommand n i d
    | none => d

/-! ## The seven rows -/

/-- The device takes a command byte by the host's own path: the engine's state and TRACE are untouched (R20, R132). -/
def onDevice (f : Nat → Device → Device) (s : State) : Host.Outcome State Fault Refusal :=
  .next { s with device := f s.draws s.device, draws := s.draws + 1 }

/-- DEV_FUNCTION_SET_EXTENDED (R60). -/
def execDevFunctionSetExtended (s : State) : Host.Outcome State Fault Refusal :=
  onDevice (fun _ d => setMode .extended d) s

/-- DEV_SET_VOP (R60); a device in basic mode reads the same byte as a column. -/
def execDevSetVop (level : BitVec 7) (s : State) : Host.Outcome State Fault Refusal :=
  onDevice (fun n d => columnOrContrast n level d) s

/-- DEV_SET_BIAS (R60). -/
def execDevSetBias (bias : BitVec 3) (s : State) : Host.Outcome State Fault Refusal :=
  onDevice (fun n d => setBias n bias d) s

/-- DEV_FUNCTION_SET_BASIC (R60). -/
def execDevFunctionSetBasic (s : State) : Host.Outcome State Fault Refusal :=
  onDevice (fun _ d => setMode .basic d) s

/-- DEV_DISPLAY_CONTROL_NORMAL (R60). -/
def execDevDisplayControlNormal (s : State) : Host.Outcome State Fault Refusal :=
  onDevice (fun _ d => setDisplayNormal d) s

/-- DEV_SET_Y_PAGE (R60). -/
def execDevSetYPage (page : BitVec 3) (s : State) : Host.Outcome State Fault Refusal :=
  onDevice (fun n d => selectPage n page d) s

/-- DEV_SET_X_COLUMN (R60); a device in extended mode reads the same byte as a contrast level. -/
def execDevSetXColumn (col : BitVec 7) (s : State) : Host.Outcome State Fault Refusal :=
  onDevice (fun n d => columnOrContrast n col d) s

end Sys2Proof.Machine
end

