-- ==== Sys2Proof/Machine/Glyph.lean ====
section
/-! DEFINITION. The glyph compositer and text layout (spec/42_glyph.md): `GlyphDraw`, `StringDraw`, and the commands
DRAW_CHAR and DRAW_STRING. -/

namespace Sys2Proof.Machine

/-! ## The glyph procedure -/

/-- The eight rows of one cell column: GBYTE's bit `j` set gives `c`, clear gives `!c` (R91). The spacer column is the
same loop with every bit clear. -/
def glyphColumn (x y : Nat) (gi : Nat) (gbyte : Byte) (c : Bool) (p : GlyphRegs × Memory) : GlyphRegs × Memory :=
  (List.range Config.glyphRows).foldl
    (fun q gj =>
      ({ q.1 with gj := gj },
        pixelWrite ((x + gi : Nat) : Int) ((y + gj : Nat) : Int) (if gbyte.getLsbD gj then c else !c) q.2))
    ({ p.1 with gi := gi }, p.2)

/-- The body of `GlyphDraw` after its guards (R91): five glyph columns, then the spacer column, all `!c`. -/
def glyphBody (x y : Nat) (columns : Nat → Byte) (c : Bool) (p : GlyphRegs × Memory) : GlyphRegs × Memory :=
  glyphColumn x y Config.glyphCols 0 c
    ((List.range Config.glyphCols).foldl
      (fun q gi => glyphColumn x y gi (columns gi) c ({ q.1 with gbyte := columns gi }, q.2)) p)

/-- The position guard (policy P2): the whole glyph is rejected when `x > W - 6` or `y > H - 8` (R91). -/
def glyphFits (x y : Nat) : Bool :=
  decide (x ≤ Config.width - Config.cellW) && decide (y ≤ Config.height - Config.cellH)

/-- The code guard (policy P4): the font covers `0x20 .. FONT_LAST` (R91). -/
def glyphCovered (code : Byte) : Bool :=
  decide (Config.fontBase ≤ code.toNat) && decide (code.toNat ≤ Config.fontLast)

/-- `GlyphDraw(x, y, code, c)` (R91). -/
def glyphDraw (x y : Nat) (code : Byte) (c : Bool) (p : GlyphRegs × Memory) : GlyphRegs × Memory :=
  if !glyphFits x y then p
  else if !glyphCovered code then p
  else glyphBody x y (Config.font code.toNat) c p

/-- DRAW_CHAR (R92). -/
def execDrawChar (color : Bool) (x y code : Byte) (s : State) : Host.Outcome State Fault Refusal :=
  runCommand
    (fun s =>
      let p := glyphDraw x.toNat y.toNat code color (s.work.glyph, s.fb)
      { s with fb := p.2, work := { s.work with glyph := p.1 } }) s

/-! ## Text layout -/

/-- The loads before the loop of `StringDraw` and `NLEFT <- len` (R93, R94). -/
def textStart (x y len : Nat) (t : TextRegs) : TextRegs :=
  { t with cx := x, cy := y, x0 := x, nleft := len, stopped := false }

/-- The advance, the wrap test and the truncation test (policy P3) after a character (R93). -/
def textAdvance (t : TextRegs) : TextRegs :=
  if t.cx + Config.cellW + Config.cellW > Config.width then
    { t with cx := t.x0, cy := t.cy + Config.cellH,
             stopped := decide (t.cy + Config.cellH + Config.cellH > Config.height) }
  else { t with cx := t.cx + Config.cellW }

/-- One character byte taken from the stream (R93, R94): laid out, or, when the layout has stopped early, discarded. -/
def textChar (c : Bool) (p : TextRegs × GlyphRegs × Memory) (ch : Byte) : TextRegs × GlyphRegs × Memory :=
  if p.1.stopped then ({ p.1 with nleft := p.1.nleft - 1 }, p.2)
  else
    (textAdvance { p.1 with ch := ch, nleft := p.1.nleft - 1 }, glyphDraw p.1.cx p.1.cy ch c p.2)

/-- Character bytes taken one after another (R93, R94). -/
def textRun (c : Bool) (chars : List Byte) (p : TextRegs × GlyphRegs × Memory) : TextRegs × GlyphRegs × Memory :=
  chars.foldl (textChar c) p

/-- `StringDraw` on the state from where its registers stand: take these characters. -/
def textState (c : Bool) (chars : List Byte) (s : State) : State :=
  let p := textRun c chars (s.work.text, s.work.glyph, s.fb)
  { s with fb := p.2.2, work := { s.work with text := p.1, glyph := p.2.1 } }

/-- The start of DRAW_STRING on the state. -/
def textBegin (x y : Byte) (len : Nat) (s : State) : State :=
  { s with work := { s.work with text := textStart x.toNat y.toNat len s.work.text } }

/-- DRAW_STRING (R94): lay out the characters, discard the rest when the layout stops early. -/
def execDrawString (color : Bool) (x y : Byte) (text : List Byte) (s : State) : Host.Outcome State Fault Refusal :=
  runCommand (fun s => textState color text (textBegin x y text.length s)) s

end Sys2Proof.Machine
end

