-- ==== Sys2Proof/Machine/Raster.lean ====
section
/-! DEFINITION. The rasterizer (spec/41_raster.md): `LineDraw`, `RectFill`, `RectOutline`, and the commands DRAW_LINE,
DRAW_RECT and CLEAR_AREA. A procedure takes the registers it works in and FB, and nothing else. -/

namespace Sys2Proof.Machine

/-! ## The line procedure -/

/-- The loads before the loop of `LineDraw` (R80). E2 is combinational (R13): it shows twice ERR. -/
def lineStart (x0 y0 x1 y1 : Int) : LineRegs where
  lx := x0
  ly := y0
  lx1 := x1
  ly1 := y1
  dx := ((x1 - x0).natAbs : Int)
  dy := ((y1 - y0).natAbs : Int)
  sx := if x0 < x1 then 1 else -1
  sy := if y0 < y1 then 1 else -1
  err := ((x1 - x0).natAbs : Int) - ((y1 - y0).natAbs : Int)
  e2 := 2 * (((x1 - x0).natAbs : Int) - ((y1 - y0).natAbs : Int))

/-- The "decrement-by-dy branch", taken when `E2 > -DY` (R80). -/
def lineStepX (r : LineRegs) : LineRegs :=
  if r.e2 > -r.dy then { r with err := r.err - r.dy, lx := r.lx + r.sx } else r

/-- The "increment-by-dx branch", taken when `E2 < DX`; E2 is the value before either branch (R80). -/
def lineStepY (r : LineRegs) : LineRegs :=
  if r.e2 < r.dx then { r with err := r.err + r.dx, ly := r.ly + r.sy } else r

/-- The rest of one iteration of `LineDraw` after the end test (R80). -/
def lineAdvance (r : LineRegs) : LineRegs := lineStepY (lineStepX { r with e2 := 2 * r.err })

/-- The loop's exit test (R80). -/
def lineAtEnd (r : LineRegs) : Bool := decide (r.lx = r.lx1) && decide (r.ly = r.ly1)

/-- The loop of `LineDraw` (R80), at most `fuel` iterations. -/
def lineLoop : Nat → Bool → LineRegs × Memory → LineRegs × Memory
  | 0, _, p => p
  | fuel + 1, c, (r, fb) =>
    if lineAtEnd r then (r, pixelWrite r.lx r.ly c fb)
    else lineLoop fuel c (lineAdvance r, pixelWrite r.lx r.ly c fb)

/-- How many pixels a line has: `max(DX, DY) + 1` (R82 item 1, log entry 23). -/
def lineCount (x0 y0 x1 y1 : Int) : Nat := max (x1 - x0).natAbs (y1 - y0).natAbs + 1

/-- `LineDraw(x0, y0, x1, y1, c)` (R80). -/
def lineDraw (x0 y0 x1 y1 : Int) (c : Bool) (fb : Memory) : LineRegs × Memory :=
  lineLoop (lineCount x0 y0 x1 y1) c (lineStart x0 y0 x1 y1, fb)

/-- DRAW_LINE (R81). -/
def execDrawLine (color : Bool) (x0 y0 x1 y1 : Byte) (s : State) : Host.Outcome State Fault Refusal :=
  runCommand
    (fun s =>
      let p := lineDraw (zext x0) (zext y0) (zext x1) (zext y1) color s.fb
      { s with fb := p.2, work := { s.work with line := p.1 } }) s

/-! ## The rectangle procedures -/

/-- The inner scan of `RectFill`: rows `y, ..., y + h - 1` of column RI (R83). -/
def rectColumn (y : Int) (h : Nat) (c : Bool) (p : RectRegs × Memory) : RectRegs × Memory :=
  (List.range h).foldl
    (fun q (j : Nat) => ({ q.1 with rj := y + (j : Int) }, pixelWrite q.1.ri (y + (j : Int)) c q.2)) p

/-- `RectFill(x, y, w, h, c)` (R83): columns outside, rows inside; RXE and RYE are the exclusive ends (R14). -/
def rectFill (x y : Int) (w h : Nat) (c : Bool) (p : RectRegs × Memory) : RectRegs × Memory :=
  (List.range w).foldl
    (fun q (i : Nat) => rectColumn y h c ({ q.1 with ri := x + (i : Int) }, q.2))
    ({ p.1 with rxe := x + (w : Int), rye := y + (h : Int) }, p.2)

/-- The start and the end point of a boundary segment of a rectangle, by EDGE (R84): top, bottom, left, right. -/
def outlineSegment (x y xr yb : Int) (edge : Nat) : (Int × Int) × Int × Int :=
  match edge with
  | 0 => ((x, y), xr, y)
  | 1 => ((x, yb), xr, yb)
  | 2 => ((x, y), x, yb)
  | _ => ((xr, y), xr, yb)

/-- `LineDraw` along a boundary segment (R84). -/
def outlineEdge (x y xr yb : Int) (edge : Nat) (c : Bool) (fb : Memory) : LineRegs × Memory :=
  let g := outlineSegment x y xr yb edge
  lineDraw g.1.1 g.1.2 g.2.1 g.2.2 c fb

/-- `RectOutline(x, y, w, h, c)` (R84): XR and YB are exact, so -1 for a size 0 at coordinate 0. -/
def rectOutline (x y : Int) (w h : Nat) (c : Bool) (p : RectRegs × LineRegs × Memory) : RectRegs × LineRegs × Memory :=
  (List.range 4).foldl
    (fun q e => ({ q.1 with edge := e }, outlineEdge x y q.1.xr q.1.yb e c q.2.2))
    ({ p.1 with xr := x + (w : Int) - 1, yb := y + (h : Int) - 1 }, p.2)

/-- `RectFill` as a sequencer on the state. -/
def fillState (x y w h : Byte) (c : Bool) (s : State) : State :=
  let p := rectFill (zext x) (zext y) w.toNat h.toNat c (s.work.rect, s.fb)
  { s with fb := p.2, work := { s.work with rect := p.1 } }

/-- `RectOutline` as a sequencer on the state. -/
def outlineState (x y w h : Byte) (c : Bool) (s : State) : State :=
  let p := rectOutline (zext x) (zext y) w.toNat h.toNat c (s.work.rect, s.work.line, s.fb)
  { s with fb := p.2.2, work := { s.work with rect := p.1, line := p.2.1 } }

/-- DRAW_RECT (R85). -/
def execDrawRect (color filled : Bool) (x y w h : Byte) (s : State) : Host.Outcome State Fault Refusal :=
  runCommand (if filled then fillState x y w h color else outlineState x y w h color) s

/-- CLEAR_AREA (R86): `RectFill` with colour 0. -/
def execClearArea (x y w h : Byte) (s : State) : Host.Outcome State Fault Refusal :=
  runCommand (fillState x y w h false) s

end Sys2Proof.Machine
end

