-- ==== Sys2Proof/Machine/Flags.lean ====
section
/-! DEFINITION. The two status flags BUSY and FAULT (spec/10_state.md R18) and the handshake outputs of the two ports
(spec/30_encoding.md R50, spec/43_serializer.md R100). No command sets a flag: there are no condition codes. -/

namespace Sys2Proof.Machine

/-- `BUSY`: 1 while SEQ is OPERANDS or EXEC (R18). -/
def busy (s : State) : Bool :=
  match s.seq with
  | .idle => false
  | .operands => true
  | .exec => true
  | .faulted => false

/-- `cmd_ready`: 1 when the engine asks for a byte (R50): an opcode byte, an operand byte, or, in EXEC with nothing
offered on the TX port, the next character of a string. Always 0 when FAULT = 1. -/
def cmdReady (s : State) : Bool :=
  !s.fault &&
    match s.seq with
    | .idle => true
    | .operands => true
    | .exec => s.tx.isNone
    | .faulted => false

/-- `tx_valid`: 1 while an event is offered (R100). -/
def txValid (s : State) : Bool := s.tx.isSome

/-- `tx_ready` stays 0: the collaborator accepts no further event (R104). -/
def txBlocked (s : State) : Bool := s.txCredit == some 0

end Sys2Proof.Machine
end

