-- ==== Sys2Proof/Machine/Serializer.lean ====
section
/-! DEFINITION. The page-oriented serializer and the TX port (spec/43_serializer.md): `TX`, `send_command`, `send_data`,
and the command DISPLAY_UPDATE. -/

namespace Sys2Proof.Machine

/-- The event of `send_command(b)` (R101). -/
def commandEvent (b : Byte) : TxEvent := ⟨false, b⟩

/-- The event of `send_data(b)` (R101). -/
def dataEvent (b : Byte) : TxEvent := ⟨true, b⟩

/-- The 506 events of one DISPLAY_UPDATE (R102): page address 0, column address 0, then FB in index order. -/
def updateEvents (fb : Memory) : List TxEvent :=
  commandEvent (0x40 ||| 0) :: commandEvent (0x80 ||| 0) ::
    (List.range Config.fbBytes).map fun i => dataEvent (fbRead fb i)

/-- The collaborator accepts an event (R100): it joins TRACE, and the device takes it. SI counts the data bytes. -/
def txAccept (e : TxEvent) (s : State) : State :=
  { s with
    trace := s.trace ++ [e]
    tx := none
    txCredit := s.txCredit.map (· - 1)
    device := deviceReceive s.draws e s.device
    work := { s.work with si := if e.dc then s.work.si + 1 else s.work.si } }

/-- Send events one after another, each accepted before the next is offered (R100), and end the command; while the
collaborator accepts none, the engine waits with the event offered (R104). -/
def txRun : List TxEvent → State → State
  | [], s => finish s
  | e :: es, s => if txBlocked s then { s with seq := .exec, tx := some e } else txRun es (txAccept e s)

/-- DISPLAY_UPDATE (R102). -/
def execDisplayUpdate (s : State) : Host.Outcome State Fault Refusal :=
  if s.fault then .fault .engineFaulted
  else .next (txRun (updateEvents s.fb) { s with work := { s.work with si := 0 } })

/-- How many events of the update were accepted before the one offered: none before the page command, one before the
column command, `2 + SI` before a data byte. -/
def eventsSent (e : TxEvent) (si : Nat) : Nat := if e.dc then 2 + si else if e.byte = 0x40 then 0 else 1

/-- A stalled DISPLAY_UPDATE goes on from the event it offers (R104). -/
def resumeUpdate (e : TxEvent) (s : State) : State :=
  txRun ((updateEvents s.fb).drop (eventsSent e s.work.si)) s

end Sys2Proof.Machine
end

