-- ==== Sys2Proof/Machine/Dispatch.lean ====
section
/-! DEFINITION. The dispatch: one arm per constructor of Instr, each one direct call of the command's own meaning. -/

namespace Sys2Proof.Machine

/-- What a decoded command does (spec/30_encoding.md R54, R60). -/
def exec (i : Instr) (s : State) : Host.Outcome State Fault Refusal :=
  match i with
  | .clear => Sys2Proof.Machine.execClear s
  | .setPixel on x y => Sys2Proof.Machine.execSetPixel on x y s
  | .drawLine color x0 y0 x1 y1 => Sys2Proof.Machine.execDrawLine color x0 y0 x1 y1 s
  | .drawRect color filled x y w h => Sys2Proof.Machine.execDrawRect color filled x y w h s
  | .clearArea x y w h => Sys2Proof.Machine.execClearArea x y w h s
  | .drawChar color x y code => Sys2Proof.Machine.execDrawChar color x y code s
  | .drawString color x y text => Sys2Proof.Machine.execDrawString color x y text s
  | .displayUpdate => Sys2Proof.Machine.execDisplayUpdate s
  | .devFunctionSetExtended => Sys2Proof.Machine.execDevFunctionSetExtended s
  | .devSetVop level => Sys2Proof.Machine.execDevSetVop level s
  | .devSetBias bias => Sys2Proof.Machine.execDevSetBias bias s
  | .devFunctionSetBasic => Sys2Proof.Machine.execDevFunctionSetBasic s
  | .devDisplayControlNormal => Sys2Proof.Machine.execDevDisplayControlNormal s
  | .devSetYPage page => Sys2Proof.Machine.execDevSetYPage page s
  | .devSetXColumn col => Sys2Proof.Machine.execDevSetXColumn col s

end Sys2Proof.Machine
end

