-- ==== Sys2Proof/Machine/Sequencer.lean ====
section
/-! DEFINITION. The sequencing of commands (spec/10_state.md R17, spec/30_encoding.md R50, R55, R56, R61): taking the
bytes the host offers, and what the host does on its other wires (spec/70_reset_and_hazards.md R144). -/

namespace Sys2Proof.Machine

/-- The command bytes the host offers before it does anything else. -/
def cmdOffered : List HostMove → List Byte
  | .cmd b :: ms => b :: cmdOffered ms
  | .dev _ :: _ => []
  | .rst :: _ => []
  | .txReady _ :: _ => []
  | [] => []

/-- The host's first move that offers no command byte, and the moves without it: while the engine takes no byte, the
host holds the bytes it offers and acts on its other wires (R144, log entry 6). -/
def otherMove : List HostMove → Option (HostMove × List HostMove)
  | [] => none
  | .cmd b :: ms => (otherMove ms).map fun p => (p.1, .cmd b :: p.2)
  | .dev b :: ms => some (.dev b, ms)
  | .rst :: ms => some (.rst, ms)
  | .txReady n :: ms => some (.txReady n, ms)

/-- The decoder hands a command over (R12, R17): its bytes are latched, SEQ is EXEC, and the first `taken` moves of the
host are spent. -/
def dispatched (bytes : List Byte) (taken : Nat) (s : State) : State :=
  { s with
    seq := .exec
    work := { s.work with latch := latchBytes bytes s.work.latch }
    moves := s.moves.drop taken }

/-- The host stops inside a command (R61): the engine keeps what it has latched and waits with BUSY = 1. A string whose
length byte is taken has begun, and the characters already taken are laid out (R55). -/
def awaitBytes (bytes : List Byte) (taken : Nat) (s : State) : State :=
  match bytes with
  | op :: x :: y :: len :: chars =>
    if opcodeOf op = some .drawString then
      textState (colourBit op) chars (textBegin x y len.toNat (dispatched bytes taken s))
    else { dispatched bytes taken s with seq := .operands }
  | _ => { dispatched bytes taken s with seq := .operands }

/-- A string in progress takes the characters offered, at most the NLEFT it still has, and ends with the last (R94). -/
def resumeText (s : State) : State :=
  let chars := (cmdOffered s.moves).take s.work.text.nleft
  let t := textState s.work.latch.c chars { s with moves := s.moves.drop chars.length }
  if t.work.text.nleft = 0 then finish t else t

/-- The bytes of the command in progress that were taken before: none at an opcode byte boundary. -/
def takenBefore (s : State) : List Byte :=
  match s.seq with
  | .idle => []
  | .operands => latchedBytes s.work.latch
  | .exec => []
  | .faulted => []

/-- The engine takes bytes of the command stream (R50 to R57): a whole command runs, an illegal opcode byte raises the
fault, and a command cut short waits. -/
def takeCommand (s : State) : Host.Outcome State Fault Refusal :=
  let before := takenBefore s
  let bytes := before ++ cmdOffered s.moves
  match decodeCommand bytes with
  | .ok i rest =>
    exec i (dispatched (bytes.take (bytes.length - rest.length)) (bytes.length - rest.length - before.length) s)
  | .illegalOpcode _ => .next (raiseFault { s with moves := s.moves.drop 1 })
  | .truncated => .next (awaitBytes bytes (bytes.length - before.length) s)

/-- What a move of the host on a wire other than the command port does (R130, R132, R144). -/
def hostMove (m : HostMove) (s : State) : Host.Outcome State Fault Refusal :=
  match m with
  | .rst => .next (resetEngine s)
  | .txReady n => .next { s with txCredit := s.txCredit.map (· + n) }
  | .cmd _ => .next s
  | .dev b =>
    match decodeDevice s.device.mode b with
    | some i => exec i s
    | none => .refused .deviceByteNotListed

/-- The engine asks for a command byte: it takes what is offered, lets the host act on another wire, idles when nothing
is offered at a command boundary (R123), and waits for ever when nothing is offered inside a command (R61). -/
def stepReady (s : State) : Host.Outcome State Fault Refusal :=
  match s.moves with
  | [] => if s.seq = .idle then .next s else .fault .waitsForByte
  | .cmd _ :: _ => if s.seq = .exec then .next (resumeText s) else takeCommand s
  | .dev b :: ms => hostMove (.dev b) { s with moves := ms }
  | .rst :: ms => hostMove .rst { s with moves := ms }
  | .txReady n :: ms => hostMove (.txReady n) { s with moves := ms }

/-- The engine takes no command byte: FAULT is set (R113), a TX event waits (R104), or reset cuts an update short (R115).
Only the host's other wires move. -/
def stepHeld (s : State) : Host.Outcome State Fault Refusal :=
  match otherMove s.moves with
  | some (m, ms) => hostMove m { s with moves := ms }
  | none => if s.fault then .fault .engineFaulted else .fault .txStalled

/-- The host asserts `rst` now: it is its next move. -/
def rstAsserted (ms : List HostMove) : Bool := ms.head? == some .rst

/-- One step of the machine (R17): reset has priority over everything (R115), then an offered TX event that can be
accepted, then the command port. -/
def sequence (s : State) : Host.Outcome State Fault Refusal :=
  match s.tx with
  | some e => if s.fault || txBlocked s || rstAsserted s.moves then stepHeld s else .next (resumeUpdate e s)
  | none => if cmdReady s then stepReady s else stepHeld s

/-- The host's moves that deliver a table word: on the command port, or to the device by the host's own path. -/
def tableMoves (nbits w : Nat) : List HostMove :=
  match decodeCommand (tableBytes nbits w) with
  | .ok _ _ => (tableBytes nbits w).map .cmd
  | .truncated => (tableBytes nbits w).map .cmd
  | .illegalOpcode op =>
    match decodeDevice (tableMode op) op with
    | some _ => [.dev op]
    | none => [.cmd op]

/-- The device's mode that a table word needs: the mode in which `0x80 | v` is the row's byte, else unchanged. -/
def tableDevMode (nbits w : Nat) (m : DevMode) : DevMode :=
  match decodeCommand (tableBytes nbits w) with
  | .ok _ _ => m
  | .truncated => m
  | .illegalOpcode op => if op &&& 0x80#8 = 0x80#8 then tableMode op else m

end Sys2Proof.Machine
end

