-- ==== Sys2Proof/Machine/Step.lean ====
section
/-! DEFINITION. The step of the machine, and the placing of one instruction where the step takes its next one. -/

namespace Sys2Proof.Machine

/-- One step: at a command boundary the next whole command the host offers (spec/20_memory.md R35). -/
def step (s : State) : Host.Outcome State Fault Refusal := sequence s

/-- `s` at a command boundary with the table word's instruction as the host's next move, so that the next step runs
exactly it (log entries 5 and 17). -/
def State.withFetchWord (s : State) (nbits w : Nat) : State :=
  { s with
    seq := .idle
    fault := false
    tx := none
    moves := tableMoves nbits w ++ s.moves
    device := { s.device with mode := tableDevMode nbits w s.device.mode } }

end Sys2Proof.Machine
end

