-- ==== Sys2Proof/Machine/Ports.lean ====
section
/-! DEFINITION. The debug read port (spec/40_bitaddr.md R75), the one other reader of FB: a function of the state, since
sampling it has no side effect. -/

namespace Sys2Proof.Machine

/-- The port's outputs; `rd_bit` and `rd_byte` have no value when `rd_valid = 0` (R75, U8). -/
structure DebugOut where
  valid : Bool
  bit : Option Bool
  byte : Option Byte
  deriving DecidableEq, Repr

/-- A sample of the port at `(rd_x, rd_y)`; none while BUSY = 1, when its outputs are unspecified (R75, D23). -/
def debugRead (s : State) (x y : Byte) : Option DebugOut :=
  if busy s then none
  else
    some
      { valid := inRange (zext x) (zext y)
        bit := pixelRead s.fb (zext x) (zext y)
        byte :=
          if inRange (zext x) (zext y) then some (fbRead s.fb (pixelAddr (zext x) (zext y)).1) else none }

end Sys2Proof.Machine
end

