-- ==== Sys2Proof/Safety.lean ====
section
/-! DEFINITION. The terms claims use: the launch premises of spec/70_reset_and_hazards.md R145, the normal end of a run
(R143), the boot sequence (R132), the frames of the commands, and the machine's invariant. -/

namespace Sys2Proof.Machine

/-! ## Launch premises and the end of a run -/

/-- `AfterReset` (R145, R130): FB blank, FAULT 0, SEQ idle (so BUSY 0), TRACE empty, nothing offered on the TX port; the
working registers, the device and what the host does next arbitrary. -/
def AfterReset (s : State) : Prop := s.fb = [] ∧ s.fault = false ∧ s.seq = .idle ∧ s.trace = [] ∧ s.tx = none

/-- `CleanEntry` (R145): SEQ idle, FAULT 0, nothing offered on the TX port; FB and TRACE arbitrary. -/
def CleanEntry (s : State) : Prop := s.seq = .idle ∧ s.fault = false ∧ s.tx = none

/-- `TxLive` (R145, R104): every offered TX event is accepted. -/
def TxLive (s : State) : Prop := s.txCredit = none

/-- `FontIs(f)` on the codes of a list (R145). -/
def FontIs (f : Nat → Nat → Byte) (codes : List Nat) : Prop :=
  ∀ code ∈ codes, ∀ col < Config.glyphCols, Config.font code col = f code col

/-- `FontLast(n)` (R145). -/
def FontLast (n : Nat) : Prop := Config.fontLast = n

/-- The moves by which the host delivers a command: its bytes on the command port, or the byte to the device. -/
def deliver (i : Instr) : List HostMove :=
  match i.space with
  | .command => (encode i).map .cmd
  | .device => (encode i).map .dev

/-- The host delivers a program and does nothing else: the commands of the stream, each whole, and the bytes for the
device, one after another. A case of `HostCompletes`. -/
def HostDelivers (program : List Instr) (s : State) : Prop :=
  (∀ i ∈ program, i.space = .command → i.wf = true) ∧ s.moves = program.flatMap deliver

/-- `DeviceInitialized` (R145): the device is in basic mode and in normal display mode. -/
def DeviceInitialized (s : State) : Prop := s.device.mode = .basic ∧ s.device.displayNormal = true

/-- The boot sequence of R132, five command bytes by the host's own path. -/
def bootSequence (level : BitVec 7) (bias : BitVec 3) : List HostMove :=
  [.dev 0x21, .dev (0x80 ||| level.setWidth 8), .dev (0x10 ||| bias.setWidth 8), .dev 0x20, .dev 0x0C]

/-- The `Settled` domain of a command's operands (R73, R81, R85, R86, R92, R94): outside it the result rests on decisions
D3 or D9. -/
def settled : Instr → Bool
  | .clear => true
  | .setPixel _ _ _ => true
  | .drawLine _ _ _ _ _ => true
  | .drawRect _ filled x y w h =>
    filled ||
      ((decide (1 ≤ w.toNat) || decide (1 ≤ x.toNat)) && (decide (1 ≤ h.toNat) || decide (1 ≤ y.toNat)) &&
        decide (x.toNat + w.toNat ≤ 256) && decide (y.toNat + h.toNat ≤ 256))
  | .clearArea _ _ _ _ => true
  | .drawChar _ _ _ code => glyphCovered code
  | .drawString _ _ _ text => text.all glyphCovered
  | .displayUpdate => true
  | .devFunctionSetExtended => true
  | .devSetVop _ => true
  | .devSetBias _ => true
  | .devFunctionSetBasic => true
  | .devDisplayControlNormal => true
  | .devSetYPage _ => true
  | .devSetXColumn _ => true

/-- `SettledOperands` (R145): every command's operands lie in its `Settled` domain. -/
def SettledOperands (program : List Instr) : Prop := ∀ i ∈ program, settled i = true

/-! ## Frames -/

/-- What a command that only draws leaves unchanged: every piece of state but FB, SEQ (idle again), the working
registers, which hold any value between commands (U10), and the count of free values drawn. -/
def SameButFb (s t : State) : Prop :=
  t.seq = .idle ∧ t.fault = s.fault ∧ t.trace = s.trace ∧ t.tx = s.tx ∧ t.device = s.device ∧ t.moves = s.moves ∧
    t.txCredit = s.txCredit

/-- What a device command byte leaves unchanged: every piece of the engine's state, and what the environment still
does. -/
def SameEngine (s t : State) : Prop :=
  t.fb = s.fb ∧ t.fault = s.fault ∧ t.seq = s.seq ∧ t.trace = s.trace ∧ t.work = s.work ∧ t.tx = s.tx ∧
    t.moves = s.moves ∧ t.txCredit = s.txCredit

/-- The coordinates of a pixel of the display. -/
def IsPixel (x y : Int) : Prop := 0 ≤ x ∧ x < 84 ∧ 0 ≤ y ∧ y < 48

/-- FB after drawing colour `c` on the pixels of `drawn`: they read `c`, every other pixel reads as before, and every
byte that holds none of them reads as before. -/
def Painted (drawn : Int → Int → Prop) (c : Bool) (fb fb' : Memory) : Prop :=
  (∀ x y, IsPixel x y → drawn x y → pixelRead fb' x y = some c) ∧
    (∀ x y, IsPixel x y → ¬drawn x y → pixelRead fb' x y = pixelRead fb x y) ∧
      ∀ i, (∀ x y, IsPixel x y → drawn x y → (pixelAddr x y).1 ≠ i) → fbRead fb' i = fbRead fb i

/-- FB after an accepted `GlyphDraw` (R96): the five columns show the glyph in colour `c` on background `!c`, the spacer
column is background, every pixel outside the cell reads as before, and so does every byte that holds none of it. -/
def GlyphPainted (x y : Nat) (code : Byte) (c : Bool) (fb fb' : Memory) : Prop :=
  (∀ i j : Nat, i < 5 → j < 8 →
      pixelRead fb' ((x + i : Nat) : Int) ((y + j : Nat) : Int) =
        some (if (Config.font code.toNat i).getLsbD j then c else !c)) ∧
    (∀ j : Nat, j < 8 → pixelRead fb' ((x + 5 : Nat) : Int) ((y + j : Nat) : Int) = some (!c)) ∧
      (∀ a b : Int, IsPixel a b → ¬(x ≤ a ∧ a < x + 6 ∧ y ≤ b ∧ b < y + 8) → pixelRead fb' a b = pixelRead fb a b) ∧
        ∀ i, (∀ a b : Nat, x ≤ a → a < x + 6 → y ≤ b → b < y + 8 → (pixelAddr a b).1 ≠ i) →
          fbRead fb' i = fbRead fb i

/-- The points of `RectFill`: `[x, x+w) × [y, y+h)` (R83). -/
def FillPoint (x y w h a b : Int) : Prop := x ≤ a ∧ a < x + w ∧ y ≤ b ∧ b < y + h

/-- The points of the four segments of `RectOutline` between `(x, y)` and the far corner `(x+w-1, y+h-1)` (R84). -/
def OutlinePoint (x y w h a b : Int) : Prop :=
  (min x (x + w - 1) ≤ a ∧ a ≤ max x (x + w - 1) ∧ (b = y ∨ b = y + h - 1)) ∨
    (min y (y + h - 1) ≤ b ∧ b ≤ max y (y + h - 1) ∧ (a = x ∨ a = x + w - 1))

/-! ## The state of the line loop -/

/-- The line registers after `k` iterations of the loop of `LineDraw` that do not exit (R80). -/
def lineAfter (x0 y0 x1 y1 : Int) : Nat → LineRegs
  | 0 => lineStart x0 y0 x1 y1
  | k + 1 => lineAdvance (lineAfter x0 y0 x1 y1 k)

/-- The points `LineDraw` visits: one for each of the `max(DX, DY) + 1` iterations (R80, R82). -/
def LinePoint (x0 y0 x1 y1 a b : Int) : Prop :=
  ∃ k < lineCount x0 y0 x1 y1, (lineAfter x0 y0 x1 y1 k).lx = a ∧ (lineAfter x0 y0 x1 y1 k).ly = b

/-! ## The layout of a string -/

/-- How many cells a line of a text block has from column `x` (R95 item 2). -/
def cellsPerLine (x : Nat) : Nat := max 1 ((84 - x) / 6)

/-- How many lines a text block has from row `y` before the layout stops (R95 items 3 and 5). -/
def linesFrom (y : Nat) : Nat := if y ≤ 40 then (40 - y) / 8 + 1 else 1

/-- FB after the characters of a string are attempted at the cursors of R95 item 2, in order, until the block is full. -/
def textCells (x y : Nat) (text : List Byte) (c : Bool) (fb : Memory) : Memory :=
  (List.range (min text.length (cellsPerLine x * linesFrom y))).foldl
    (fun m k =>
      (glyphDraw (x + 6 * (k % cellsPerLine x)) (y + 8 * (k / cellsPerLine x)) (text.getD k 0) c
        (Work.reset.glyph, m)).2) fb

/-! ## Runs -/

/-- The commands of a program, each on the state the one before leaves (spec/20_memory.md R37). -/
def runAll : List Instr → State → Host.Outcome State Fault Refusal
  | [], s => .next s
  | i :: is, s =>
    match exec i s with
    | .next t => runAll is t
    | .fault r => .fault r
    | .refused r => .refused r

/-- The command bytes the host offers, whatever else it does between them. -/
def heldBytes (ms : List HostMove) : List Byte :=
  ms.filterMap fun m =>
    match m with
    | .cmd b => some b
    | .dev _ => none
    | .rst => none
    | .txReady _ => none

/-- The bytes of the sequence that the run has not taken (R143): a reset begins a new run, so those the host offers before
it next asserts `rst`. -/
def runBytes (ms : List HostMove) : List Byte := heldBytes (ms.takeWhile fun m => decide (m ≠ .rst))

/-- `HostCompletes` (R145): the byte sequence of the run consists of these commands of the stream, each whole: a string has
at most 255 characters, the number its length byte gives. What the host does on its other wires between the bytes, and
after them, is left open. -/
def HostCompletes (program : List Instr) (s : State) : Prop :=
  (∀ i ∈ program, i.space = .command ∧ i.wf = true) ∧ runBytes s.moves = program.flatMap encode

/-- Every byte the host sends the device in the run, before it next asserts `rst`, is one that R60 lists (spec/93 U9: what
the device does with another is not stated). -/
def DeviceBytesListed (s : State) : Prop :=
  ∀ b, HostMove.dev b ∈ s.moves.takeWhile (fun m => decide (m ≠ .rst)) → decodeDevice s.device.mode b ≠ none

/-- The conditions under which a run ends normally (R143): every byte of its sequence is taken, SEQ idle, FAULT 0, nothing
offered on the TX port. What else the host does later, on its other wires, does not count. -/
def RunEnded (s : State) : Prop := runBytes s.moves = [] ∧ CleanEntry s

/-- How many resets the host still asserts. -/
def resetsLeft (ms : List HostMove) : Nat := ms.countP fun m => decide (m = .rst)

/-- The run from `s` ends normally at its `k`-th step, in `t` (R143): the first moment at which RunEnded holds. No reset
comes before it, for a reset abandons a run (R130; log entry 27). The result of the run is `(t.fb, t.trace)`. -/
def EndsNormallyAt (k : Nat) (s t : State) : Prop :=
  Host.Core.run core k s = .next t ∧ RunEnded t ∧ resetsLeft t.moves = resetsLeft s.moves ∧
    ∀ j < k, ∀ u, Host.Core.run core j s = .next u → ¬RunEnded u

/-- Two outcomes that differ in nothing but the display device. -/
def SameButDevice : Host.Outcome State Fault Refusal → Host.Outcome State Fault Refusal → Prop
  | .next s, .next t => t = { s with device := t.device }
  | .next _, .fault _ => False
  | .next _, .refused _ => False
  | .fault a, .fault b => a = b
  | .fault _, .next _ => False
  | .fault _, .refused _ => False
  | .refused a, .refused b => a = b
  | .refused _, .next _ => False
  | .refused _, .fault _ => False

/-! ## The invariant -/

/-- The decoder waits for operand bytes: it has latched a legal opcode and fewer operands than its command has. -/
def latchWaits (l : Latches) : Bool :=
  match opcodeOf l.op with
  | none => false
  | some o => decide (l.nops < latchCount o) && l.c == colourBit l.op && l.f == filledBit l.op

/-- EXEC between steps is one of two waits: a string that still has characters to take, or a DISPLAY_UPDATE with the
event offered that its progress gives. -/
def execWaits (s : State) : Bool :=
  match s.tx with
  | none => opcodeOf s.work.latch.op == some .drawString && s.work.latch.c == colourBit s.work.latch.op &&
      decide (0 < s.work.text.nleft)
  | some e => (updateEvents s.fb)[eventsSent e s.work.si]? == some e && (e.dc || s.work.si == 0)

/-- The invariant of the machine: FB and the device's memory in canonical form, FAULT exactly when SEQ is FAULTED (R18),
an event offered only in EXEC, and a wait inside a command only where the engine can go on from. -/
def State.inv (s : State) : Bool :=
  Memory.wf s.fb && ramWf s.device.ram && (s.fault == decide (s.seq = .faulted)) &&
    match s.seq with
    | .idle => s.tx.isNone
    | .operands => s.tx.isNone && latchWaits s.work.latch
    | .exec => execWaits s
    | .faulted => s.tx.isNone

/-- `s.inv` as a proposition. -/
def Inv (s : State) : Prop := s.inv = true

end Sys2Proof.Machine
end

