-- ==== Sys2Proof/Certificates/Slice0/Obligations.lean ====
section
/-! DEFINITION. The statements for the provers: what the commands, the decoder, the device and the machine do, from the
numbered rules of spec/. Where a statement needs that FB is in its canonical form it says so; that every step keeps that
form is a statement of its own (StepKeepsTheInvariant). -/

open Sys2Proof Sys2Proof.Machine

/-! ## The bit-addressing layer -/

/-- spec/40_bitaddr.md R70: `Addr` is a bijection from the 4032 in-range coordinates onto the pairs `(index, bit)` with
`index < 504` and `bit < 8`, with the inverse the rule gives. -/
def Obligations.AddrIsABijection : Prop :=
  (∀ x y : Int, IsPixel x y →
      pixelAddr x y = (x.toNat + y.toNat / 8 * 84, y.toNat % 8) ∧ (pixelAddr x y).1 < 504 ∧ (pixelAddr x y).2 < 8 ∧
        x = ((pixelAddr x y).1 % 84 : Nat) ∧ y = ((pixelAddr x y).1 / 84 * 8 + (pixelAddr x y).2 : Nat)) ∧
    ∀ i b : Nat, i < 504 → b < 8 →
      IsPixel (i % 84 : Nat) (i / 84 * 8 + b : Nat) ∧ pixelAddr (i % 84 : Nat) (i / 84 * 8 + b : Nat) = (i, b)

/-- spec/40_bitaddr.md R71: `PixelWrite` drops an out-of-range write, else changes at most one bit of one byte; it is
idempotent, and writes to different pixels commute. -/
def Obligations.PixelWriteChangesOneBit : Prop :=
  ∀ (fb : Memory) (x y : Int) (c : Bool), Memory.wf fb = true →
    (¬IsPixel x y → pixelWrite x y c fb = fb) ∧
      (IsPixel x y →
        (∀ k < 8,
          (fbRead (pixelWrite x y c fb) (pixelAddr x y).1).getLsbD k =
            if k = (pixelAddr x y).2 then c else (fbRead fb (pixelAddr x y).1).getLsbD k) ∧
          ∀ i, i ≠ (pixelAddr x y).1 → fbRead (pixelWrite x y c fb) i = fbRead fb i) ∧
        pixelWrite x y c (pixelWrite x y c fb) = pixelWrite x y c fb ∧
          ∀ (x' y' : Int) (c' : Bool), x ≠ x' ∨ y ≠ y' →
            pixelWrite x' y' c' (pixelWrite x y c fb) = pixelWrite x y c (pixelWrite x' y' c' fb)

/-- spec/40_bitaddr.md R73: SET_PIXEL completes; an in-range pixel then reads `on`, an out-of-range one changes
nothing; every other pixel, byte and piece of state is as before. -/
def Obligations.SetPixelWritesItsPixel : Prop :=
  ∀ (on : Bool) (x y : Byte) (s : State), s.fault = false → Memory.wf s.fb = true →
    encode (.setPixel on x y) = [0x20 ||| bitByte on, x, y] ∧
      ∃ t, exec (.setPixel on x y) s = .next t ∧
        (x.toNat < 84 → y.toNat < 48 → pixelRead t.fb (zext x) (zext y) = some on) ∧
          (84 ≤ x.toNat ∨ 48 ≤ y.toNat → t.fb = s.fb) ∧
            Painted (fun a b => a = zext x ∧ b = zext y) on s.fb t.fb ∧ SameButFb s t

/-- spec/40_bitaddr.md R74: CLEAR completes and leaves every byte 0x00 and every pixel clear. -/
def Obligations.ClearBlanksTheFramebuffer : Prop :=
  ∀ s : State, s.fault = false → Memory.wf s.fb = true →
    encode .clear = [0x10] ∧
      ∃ t, exec .clear s = .next t ∧ t.fb = [] ∧ (∀ i, fbRead t.fb i = 0) ∧
        (∀ x y, IsPixel x y → pixelRead t.fb x y = some false) ∧ SameButFb s t

/-! ## The rasterizer -/

/-- spec/41_raster.md R82 items 1 to 4, and the bound that item 6 misses: the loop of `LineDraw` reaches the end point
after exactly `max(DX, DY)` advances and not before, stays in the bounding box, moves one step along the major axis and at
most one along the other, and keeps `2 * |ERR| <= 3 * max(DX, DY)`. -/
def Obligations.LineLoopReachesItsEnd : Prop :=
  ∀ (x0 y0 x1 y1 : Int) (k : Nat), k < lineCount x0 y0 x1 y1 →
    (lineAtEnd (lineAfter x0 y0 x1 y1 k) = true ↔ k + 1 = lineCount x0 y0 x1 y1) ∧
      (min x0 x1 ≤ (lineAfter x0 y0 x1 y1 k).lx ∧ (lineAfter x0 y0 x1 y1 k).lx ≤ max x0 x1) ∧
        (min y0 y1 ≤ (lineAfter x0 y0 x1 y1 k).ly ∧ (lineAfter x0 y0 x1 y1 k).ly ≤ max y0 y1) ∧
          (2 * (lineAfter x0 y0 x1 y1 k).err).natAbs ≤ 3 * max (x1 - x0).natAbs (y1 - y0).natAbs ∧
            (k + 1 < lineCount x0 y0 x1 y1 →
              ((lineAfter x0 y0 x1 y1 (k + 1)).lx - (lineAfter x0 y0 x1 y1 k).lx).natAbs ≤ 1 ∧
                ((lineAfter x0 y0 x1 y1 (k + 1)).ly - (lineAfter x0 y0 x1 y1 k).ly).natAbs ≤ 1 ∧
                  ((y1 - y0).natAbs ≤ (x1 - x0).natAbs →
                    ((lineAfter x0 y0 x1 y1 (k + 1)).lx - (lineAfter x0 y0 x1 y1 k).lx).natAbs = 1) ∧
                    ((x1 - x0).natAbs < (y1 - y0).natAbs →
                      ((lineAfter x0 y0 x1 y1 (k + 1)).ly - (lineAfter x0 y0 x1 y1 k).ly).natAbs = 1))

/-- spec/41_raster.md R82 item 6, first sentence, as the rule has it: `|ERR| <= DX + DY` throughout. It FAILS: the rule's
own vector L8, `draw_line(0,0,7,1,1)`, has `ERR = 9` with `DX + DY = 8` (spec/95_test_vectors.md section 4; log entry 24). -/
def Obligations.LineErrorNeverExceedsTheDeltas : Prop :=
  ∀ (x0 y0 x1 y1 : Int) (k : Nat), k < lineCount x0 y0 x1 y1 →
    (lineAfter x0 y0 x1 y1 k).err.natAbs ≤ (x1 - x0).natAbs + (y1 - y0).natAbs

/-- spec/41_raster.md R82 item 6 and spec/10_state.md R13: with operand bytes every value of E2 is at most 1020 in size,
every coordinate is 0 to 255, and a line has at most 256 points; on a segment of `RectOutline` E2 is at most 508 in
size, every coordinate is -1 to 509, and there are at most 255 points; so 16-bit registers never overflow. -/
def Obligations.LineRegistersFitSixteenBits : Prop :=
  (∀ (x0 y0 x1 y1 : Byte) (k : Nat), k < lineCount (zext x0) (zext y0) (zext x1) (zext y1) →
    lineCount (zext x0) (zext y0) (zext x1) (zext y1) ≤ 256 ∧
      (lineAfter (zext x0) (zext y0) (zext x1) (zext y1) k).e2.natAbs ≤ 1020 ∧
        (lineAfter (zext x0) (zext y0) (zext x1) (zext y1) k).err.natAbs ≤ 510 ∧
          (0 ≤ (lineAfter (zext x0) (zext y0) (zext x1) (zext y1) k).lx ∧
            (lineAfter (zext x0) (zext y0) (zext x1) (zext y1) k).lx ≤ 255) ∧
            0 ≤ (lineAfter (zext x0) (zext y0) (zext x1) (zext y1) k).ly ∧
              (lineAfter (zext x0) (zext y0) (zext x1) (zext y1) k).ly ≤ 255) ∧
    ∀ (x y w h : Byte) (edge k : Nat) (p q : Int × Int), edge < 4 →
      outlineSegment (zext x) (zext y) (zext x + zext w - 1) (zext y + zext h - 1) edge = (p, q) →
        k < lineCount p.1 p.2 q.1 q.2 →
          lineCount p.1 p.2 q.1 q.2 ≤ 255 ∧ (lineAfter p.1 p.2 q.1 q.2 k).e2.natAbs ≤ 508 ∧
            (lineAfter p.1 p.2 q.1 q.2 k).err.natAbs ≤ 254 ∧
              (-1 ≤ (lineAfter p.1 p.2 q.1 q.2 k).lx ∧ (lineAfter p.1 p.2 q.1 q.2 k).lx ≤ 509) ∧
                -1 ≤ (lineAfter p.1 p.2 q.1 q.2 k).ly ∧ (lineAfter p.1 p.2 q.1 q.2 k).ly ≤ 509

/-- spec/41_raster.md R81: DRAW_LINE completes and paints exactly the in-range points the loop of R80 visits. -/
def Obligations.DrawLinePaintsItsPoints : Prop :=
  ∀ (color : Bool) (x0 y0 x1 y1 : Byte) (s : State), s.fault = false → Memory.wf s.fb = true →
    encode (.drawLine color x0 y0 x1 y1) = [0x30 ||| bitByte color, x0, y0, x1, y1] ∧
      ∃ t, exec (.drawLine color x0 y0 x1 y1) s = .next t ∧
        Painted (LinePoint (zext x0) (zext y0) (zext x1) (zext y1)) color s.fb t.fb ∧ SameButFb s t

/-- spec/41_raster.md R82 items 2 and 5: both end points are drawn, and horizontal, vertical and diagonal lines are
exact, for all end points the procedure can be given. -/
def Obligations.StraightLinesAreExact : Prop :=
  ∀ (x0 y0 x1 y1 : Int) (c : Bool) (fb : Memory), Memory.wf fb = true →
    (IsPixel x0 y0 → pixelRead (lineDraw x0 y0 x1 y1 c fb).2 x0 y0 = some c) ∧
      (IsPixel x1 y1 → pixelRead (lineDraw x0 y0 x1 y1 c fb).2 x1 y1 = some c) ∧
        (y0 = y1 →
          Painted (fun a b => min x0 x1 ≤ a ∧ a ≤ max x0 x1 ∧ b = y0) c fb (lineDraw x0 y0 x1 y1 c fb).2) ∧
          (x0 = x1 →
            Painted (fun a b => min y0 y1 ≤ b ∧ b ≤ max y0 y1 ∧ a = x0) c fb (lineDraw x0 y0 x1 y1 c fb).2) ∧
            ((x1 - x0).natAbs = (y1 - y0).natAbs →
              Painted
                (fun a b =>
                  min x0 x1 ≤ a ∧ a ≤ max x0 x1 ∧ b - y0 = (a - x0) * ((y1 - y0).sign * (x1 - x0).sign))
                c fb (lineDraw x0 y0 x1 y1 c fb).2)

/-- spec/41_raster.md R83: a filled DRAW_RECT completes and paints the points of `[x, x+w) × [y, y+h)` that are pixels,
none when `w = 0` or `h = 0`. -/
def Obligations.FilledRectPaintsItsPoints : Prop :=
  ∀ (color : Bool) (x y w h : Byte) (s : State), s.fault = false → Memory.wf s.fb = true →
    ∃ t, exec (.drawRect color true x y w h) s = .next t ∧
      Painted (FillPoint (zext x) (zext y) (zext w) (zext h)) color s.fb t.fb ∧ SameButFb s t

/-- spec/41_raster.md R84: an outline DRAW_RECT completes and paints the four segments between `(x, y)` and the far
corner `(x+w-1, y+h-1)` that the rule lists, sizes 0 and 1 included (a size 0 reaches one column left or one row above). -/
def Obligations.OutlineRectPaintsItsPoints : Prop :=
  ∀ (color : Bool) (x y w h : Byte) (s : State), s.fault = false → Memory.wf s.fb = true →
    ∃ t, exec (.drawRect color false x y w h) s = .next t ∧
      Painted (OutlinePoint (zext x) (zext y) (zext w) (zext h)) color s.fb t.fb ∧ SameButFb s t

/-- spec/41_raster.md R86: CLEAR_AREA completes, clears the pixels of `[x, x+w) × [y, y+h)`, touches no bit outside it,
does what DRAW_RECT filled with colour 0 does, and on the whole display what CLEAR does. -/
def Obligations.ClearAreaClearsItsRectangle : Prop :=
  ∀ (x y w h : Byte) (s : State), s.fault = false → Memory.wf s.fb = true →
    encode (.clearArea x y w h) = [0x50, x, y, w, h] ∧
      (∃ t, exec (.clearArea x y w h) s = .next t ∧
        Painted (FillPoint (zext x) (zext y) (zext w) (zext h)) false s.fb t.fb ∧ SameButFb s t) ∧
        exec (.clearArea x y w h) s = exec (.drawRect false true x y w h) s ∧
          exec (.clearArea 0 0 84 48) s = exec .clear s

/-! ## The glyph compositer and text layout -/

/-- spec/42_glyph.md R92: DRAW_CHAR completes; at an origin of `x <= 78`, `y <= 40` with a code the font covers it
composites the 6 × 8 cell, and otherwise it changes nothing. -/
def Obligations.DrawCharCompositesItsCell : Prop :=
  ∀ (color : Bool) (x y code : Byte) (s : State), s.fault = false → Memory.wf s.fb = true →
    encode (.drawChar color x y code) = [0x60 ||| bitByte color, x, y, code] ∧
      ∃ t, exec (.drawChar color x y code) s = .next t ∧ SameButFb s t ∧
        (x.toNat ≤ 78 → y.toNat ≤ 40 → 0x20 ≤ code.toNat → code.toNat ≤ Config.fontLast →
          GlyphPainted x.toNat y.toNat code color s.fb t.fb) ∧
          (78 < x.toNat ∨ 40 < y.toNat ∨ code.toNat < 0x20 ∨ Config.fontLast < code.toNat → t.fb = s.fb)

/-- spec/42_glyph.md R96: on a page boundary the cell's bytes are the font's bytes (colour 1) or their complements
(colour 0), and the spacer byte is 0x00 or 0xFF. -/
def Obligations.PageAlignedGlyphIsItsFontBytes : Prop :=
  ∀ (color : Bool) (x y code : Byte) (s : State), s.fault = false → Memory.wf s.fb = true →
    x.toNat ≤ 78 → y.toNat ≤ 40 → y.toNat % 8 = 0 → 0x20 ≤ code.toNat → code.toNat ≤ Config.fontLast →
      ∃ t, exec (.drawChar color x y code) s = .next t ∧
        (∀ i < 5,
          fbRead t.fb (y.toNat / 8 * 84 + x.toNat + i) =
            if color then Config.font code.toNat i else ~~~(Config.font code.toNat i)) ∧
          fbRead t.fb (y.toNat / 8 * 84 + x.toNat + 5) = if color then 0x00 else 0xFF

/-- spec/42_glyph.md R93 to R95: DRAW_STRING completes, and FB is as if the character `k` were drawn by `GlyphDraw` at
`(x + 6 * (k % m), y + 8 * (k / m))` for each of the characters the block has room for, the rest being dropped. -/
def Obligations.DrawStringLaysOutItsText : Prop :=
  ∀ (color : Bool) (x y : Byte) (text : List Byte) (s : State), s.fault = false →
    ∃ t, exec (.drawString color x y text) s = .next t ∧ t.fb = textCells x.toNat y.toNat text color s.fb ∧
      SameButFb s t ∧ (text = [] → t.fb = s.fb) ∧
        ∀ i, 504 ≤ i → Memory.wf s.fb = true → fbRead t.fb i = fbRead s.fb i

/-- spec/42_glyph.md R95 item 4: the 15th character of a string from column 0 is drawn at `(0, y + 8)`: a string of 15
characters leaves the FB of its first 14 followed by a DRAW_CHAR of the 15th there. -/
def Obligations.FifteenthCharacterWraps : Prop :=
  ∀ (color : Bool) (y : Byte) (text : List Byte) (ch : Byte) (s : State), s.fault = false → y.toNat ≤ 32 →
    text.length = 14 →
      ∃ t u v, exec (.drawString color 0 y text) s = .next t ∧
        exec (.drawChar color 0 (y + 8) ch) t = .next u ∧ exec (.drawString color 0 y (text ++ [ch])) s = .next v ∧
          v.fb = u.fb

/-! ## The serializer and the TX port -/

/-- spec/43_serializer.md R102: with a collaborator that accepts every event DISPLAY_UPDATE completes, TRACE grows by
exactly the 506 events of the rule, and FB and FAULT are unchanged. -/
def Obligations.DisplayUpdateTransmitsTheFramebuffer : Prop :=
  ∀ s : State, s.fault = false → TxLive s →
    encode .displayUpdate = [0x80] ∧
      ∃ t, exec .displayUpdate s = .next t ∧
        t.trace = s.trace ++ (⟨false, 0x40⟩ :: ⟨false, 0x80⟩ ::
          (List.range 504).map fun i => (⟨true, fbRead s.fb i⟩ : TxEvent)) ∧
          t.trace.length = s.trace.length + 506 ∧ t.fb = s.fb ∧ t.fault = s.fault ∧ t.seq = .idle ∧ t.tx = none ∧
            t.moves = s.moves ∧ t.txCredit = s.txCredit

/-- spec/43_serializer.md R104: a collaborator that accepts only `k` of the 506 events leaves the engine waiting with
BUSY = 1, the first `k` in TRACE and the next one offered; no command byte is taken, and FAULT stays 0. The rule calls the wait no fault; that the model's step
answers `txStalled` there, to say that no step is enabled, is its own choice (log entry 9). -/
def Obligations.StalledUpdateWaits : Prop :=
  ∀ (s : State) (k : Nat), s.fault = false → s.txCredit = some k → k < 506 →
    ∃ t, exec .displayUpdate s = .next t ∧ t.trace = s.trace ++ (updateEvents s.fb).take k ∧
      t.tx = (updateEvents s.fb)[k]? ∧ txValid t = true ∧ busy t = true ∧ cmdReady t = false ∧ t.fb = s.fb ∧
        t.fault = false ∧ t.moves = s.moves ∧ (otherMove s.moves = none → step t = .fault .txStalled)

/-- spec/43_serializer.md R100 and R104: acceptance may come late. A stalled update whose collaborator then accepts every
event ends with the same TRACE and FB as one that never stalled, unless the host asserts reset first (that case is
ResetMoveResetsTheEngine). That the device is the same too, whatever bytes the host has yet to send it, rests on the
model's order, the offered event before the host's next move (log entry 7), and that the states are equal on its free
values for the working registers and their count (log entries 2 and 19). -/
def Obligations.LateAcceptanceChangesNothing : Prop :=
  ∀ (s : State) (k : Nat), s.fault = false → rstAsserted s.moves = false → k < 506 →
    ∃ t u v, exec .displayUpdate { s with txCredit := some k } = .next t ∧
      step { t with txCredit := none } = .next u ∧ exec .displayUpdate { s with txCredit := none } = .next v ∧
        u.trace = v.trace ∧ u.fb = v.fb ∧ u.device = v.device ∧ u.seq = .idle ∧ u.tx = none ∧ u = v

/-- A device in basic mode that takes one whole update holds data byte `i` at page `i / 84`, column `i % 84`, whatever it
held before, and its control state but the addresses is unchanged. That a data byte lands at the device's page and
column, and that the address then advances, is what spec/43_serializer.md R103 says such a device must do, from general
knowledge: the model presumes it (log entry 13), and the whole statement rests on that. -/
def Obligations.DeviceShowsThePublishedFramebuffer : Prop :=
  ∀ s : State, s.fault = false → TxLive s → s.device.mode = .basic →
    ∃ t, exec .displayUpdate s = .next t ∧
      (∀ p c : Nat, p < 6 → c < 84 → memFind t.device.ram (p * 84 + c) = some (fbRead s.fb (p * 84 + c))) ∧
        t.device.mode = .basic ∧ t.device.vop = s.device.vop ∧ t.device.bias = s.device.bias ∧
          t.device.displayNormal = s.device.displayNormal

/-- spec/70_reset_and_hazards.md R132: a device left in extended mode reads the engine's column command 0x80 as
"set contrast to level 0". -/
def Obligations.UpdateInExtendedModeSetsContrast : Prop :=
  ∀ s : State, s.fault = false → TxLive s → s.device.mode = .extended →
    ∃ t, exec .displayUpdate s = .next t ∧ t.device.vop = 0 ∧ t.device.mode = .extended ∧
      t.device.bias = s.device.bias

/-! ## Device command bytes -/

/-- spec/30_encoding.md R60: the three device bytes without operands enter the extended mode, return to the basic mode
and select the normal display mode; nothing else of the device and nothing of the engine changes. That they do so in
either mode, the display control byte in extended mode too, is the model's reading (log entry 25). -/
def Obligations.DeviceModeBytesTakeEffect : Prop :=
  ∀ s : State,
    (∃ t, exec .devFunctionSetExtended s = .next t ∧ t.device = { s.device with mode := .extended } ∧
        SameEngine s t) ∧
      (∃ t, exec .devFunctionSetBasic s = .next t ∧ t.device = { s.device with mode := .basic } ∧ SameEngine s t) ∧
        ∃ t, exec .devDisplayControlNormal s = .next t ∧ t.device = { s.device with displayNormal := true } ∧
          SameEngine s t

/-- spec/30_encoding.md R60, spec/90_conflicts.md C5: the byte `0x80 | v` sets the contrast in extended mode and the
column, up to 83, in basic mode; the bias is set in extended mode, the page, up to 5, by its byte. Nothing of the engine
changes. That the mode alone decides, whichever of the two rows the byte is sent as, is the model's reading (log entry
14), and so is that the page byte acts in both modes (log entry 25). -/
def Obligations.DeviceRegisterBytesTakeEffect : Prop :=
  ∀ s : State,
    (∀ v : BitVec 7, s.device.mode = .extended →
        ∃ t u, exec (.devSetVop v) s = .next t ∧ exec (.devSetXColumn v) s = .next u ∧
          t.device = { s.device with vop := v } ∧ u.device = { s.device with vop := v } ∧ SameEngine s t ∧
            SameEngine s u) ∧
      (∀ (v : BitVec 7) (h : v.toNat < 84), s.device.mode = .basic →
        ∃ t u, exec (.devSetXColumn v) s = .next t ∧ exec (.devSetVop v) s = .next u ∧
          t.device = { s.device with col := ⟨v.toNat, h⟩ } ∧ u.device = { s.device with col := ⟨v.toNat, h⟩ } ∧
            SameEngine s t ∧ SameEngine s u) ∧
        (∀ b : BitVec 3, s.device.mode = .extended →
          ∃ t, exec (.devSetBias b) s = .next t ∧ t.device = { s.device with bias := b } ∧ SameEngine s t) ∧
          ∀ (p : BitVec 3) (h : p.toNat < 6),
            ∃ t, exec (.devSetYPage p) s = .next t ∧ t.device = { s.device with page := ⟨p.toNat, h⟩ } ∧
              SameEngine s t

/-- Where the spec does not state what a device byte sets (a bias in basic mode, a page of 6 or 7, a column of 84 or
more, sent as either row of its pattern), the byte still runs and changes at most the register it is read for. The model's own choice: log entry 15. -/
def Obligations.UnstatedDeviceOperandsChangeOneRegister : Prop :=
  ∀ s : State,
    (∀ b : BitVec 3, ∃ t, exec (.devSetBias b) s = .next t ∧
        t.device = { s.device with bias := t.device.bias } ∧ SameEngine s t) ∧
      (∀ p : BitVec 3, ∃ t, exec (.devSetYPage p) s = .next t ∧
        t.device = { s.device with page := t.device.page } ∧ SameEngine s t) ∧
        ∀ c : BitVec 7, s.device.mode = .basic →
          (∃ t, exec (.devSetXColumn c) s = .next t ∧ t.device = { s.device with col := t.device.col } ∧
              SameEngine s t) ∧
            ∃ t, exec (.devSetVop c) s = .next t ∧ t.device = { s.device with col := t.device.col } ∧ SameEngine s t

/-- spec/70_reset_and_hazards.md R132: the five bytes of the boot sequence, from whatever state the device is in, leave it
in basic mode with the host's contrast and bias and the normal display, and nothing of the engine changes. That
the bytes reach the device one a step, by a path beside the TX port, is the model's choice (log entry 26). -/
def Obligations.BootSequenceInitializesTheDevice : Prop :=
  ∀ (s : State) (level : BitVec 7) (bias : BitVec 3) (ms : List HostMove), CleanEntry s →
    s.moves = bootSequence level bias ++ ms →
      ∃ t, Host.Core.run core 5 s = .next t ∧ t.device.mode = .basic ∧ t.device.vop = level ∧ t.device.bias = bias ∧
        t.device.displayNormal = true ∧ t.fb = s.fb ∧ t.trace = s.trace ∧ t.fault = false ∧ t.seq = .idle ∧
          t.work = s.work ∧ t.tx = s.tx ∧ t.txCredit = s.txCredit ∧ t.moves = ms ∧ CleanEntry t ∧
            DeviceInitialized t

/-! ## Encoding -/

/-- spec/30_encoding.md R51 to R55: decoding the encoding of a well-formed command of the stream, whatever bytes follow,
gives the command back and leaves what follows. -/
def Obligations.DecodeEncodeCommand : Prop :=
  ∀ (i : Instr) (rest : List Byte), i.wf = true → i.space = .command → decodeCommand (encode i ++ rest) = .ok i rest

/-- spec/30_encoding.md R51 to R55: what the decoder reads is a well-formed command of the stream, and the bytes it read
are that command's encoding. -/
def Obligations.DecodedBytesAreTheEncoding : Prop :=
  ∀ (bytes rest : List Byte) (i : Instr), decodeCommand bytes = .ok i rest →
    i.wf = true ∧ i.space = .command ∧ bytes = encode i ++ rest

/-- spec/30_encoding.md R60: a device in the mode a command byte is for reads the byte of every device row back, and the
two rows of one pattern by its mode. -/
def Obligations.DecodeEncodeDeviceByte : Prop :=
  ∀ i : Instr, i.space = .device →
    ∃ b, encode i = [b] ∧
      ((∀ v, i ≠ .devSetVop v) → decodeDevice .basic b = some i) ∧
        ((∀ v, i ≠ .devSetXColumn v) → decodeDevice .extended b = some i)

/-- spec/30_encoding.md R56: an opcode byte is illegal exactly when its operation code is 0 or above 8, or a reserved or
unused bit is set; 241 of the 256 values are. -/
def Obligations.IllegalOpcodeBytes : Prop :=
  (∀ op : Byte,
      opcodeOf op = none ↔
        op.toNat < 0x10 ∨ 0x90 ≤ op.toNat ∨ (0x11 ≤ op.toNat ∧ op.toNat ≤ 0x1F) ∨
          (0x22 ≤ op.toNat ∧ op.toNat ≤ 0x2F) ∨ (0x32 ≤ op.toNat ∧ op.toNat ≤ 0x3F) ∨
            (0x44 ≤ op.toNat ∧ op.toNat ≤ 0x4F) ∨ (0x51 ≤ op.toNat ∧ op.toNat ≤ 0x5F) ∨
              (0x62 ≤ op.toNat ∧ op.toNat ≤ 0x6F) ∨ (0x72 ≤ op.toNat ∧ op.toNat ≤ 0x7F) ∨
                (0x81 ≤ op.toNat ∧ op.toNat ≤ 0x8F)) ∧
    ((List.range 256).filter fun n => opcodeOf (BitVec.ofNat 8 n) == none).length = 241

/-- spec/30_encoding.md R57: after a legal opcode byte no operand or character byte is illegal. -/
def Obligations.OperandBytesAreNeverIllegal : Prop :=
  ∀ (op : Byte) (args : List Byte), opcodeOf op ≠ none →
    ∀ b, decodeCommand (op :: args) ≠ .illegalOpcode b

/-- Words written out from spec/30_encoding.md R54 and R58 and spec/40_bitaddr.md to 43_serializer.md decode to the
commands the spec says they are. -/
def Obligations.WrittenWordsDecode : Prop :=
  decodeCommand [0x10] = .ok .clear [] ∧ decodeCommand [0x21, 0x0A, 0x14] = .ok (.setPixel true 10 20) [] ∧
    decodeCommand [0x31, 0x00, 0x00, 0x05, 0x02] = .ok (.drawLine true 0 0 5 2) [] ∧
      decodeCommand [0x43, 0x03, 0x06, 0x02, 0x04] = .ok (.drawRect true true 3 6 2 4) [] ∧
        decodeCommand [0x50, 0x04, 0x07, 0x01, 0x02] = .ok (.clearArea 4 7 1 2) [] ∧
          decodeCommand [0x61, 0x0A, 0x03, 0x41] = .ok (.drawChar true 10 3 0x41) [] ∧
            decodeCommand [0x71, 0x00, 0x00, 0x02, 0x41, 0x42, 0x80] =
              .ok (.drawString true 0 0 [0x41, 0x42]) [0x80] ∧
              decodeCommand [0x80] = .ok .displayUpdate [] ∧ decodeCommand [0x11] = .illegalOpcode 0x11

/-! ## Steps -/

/-- spec/20_memory.md R35, spec/30_encoding.md R50: at a command boundary a step runs the whole well-formed command whose
bytes the host offers next: the decoder latches its bytes, SEQ is EXEC, the bytes are spent, and the command runs. -/
def Obligations.StepRunsTheDecodedCommand : Prop :=
  ∀ (i : Instr) (ms : List HostMove) (s : State), i.wf = true → i.space = .command → CleanEntry s →
    s.moves = (encode i).map .cmd ++ ms →
      step s = exec i (dispatched (encode i) (encode i).length s) ∧
        (dispatched (encode i) (encode i).length s).moves = ms

/-- spec/70_reset_and_hazards.md R132, R144: a byte the host sends the device by its own path is run as the row of R60 the
device reads it as. How such a byte gets there R132 leaves to the platform: that it reaches the device at once, also while
an update waits for its collaborator or the engine is faulted, is the model's choice (log entry 26), and so is that an
offered event that can be accepted goes first (log entry 7; OfferedEventGoesFirst). That a byte R60 does not list is
refused, since the spec does not say what it does, is the model's choice too (log entry 16). -/
def Obligations.StepDeliversDeviceBytes : Prop :=
  ∀ (b : Byte) (ms : List HostMove) (s : State), s.tx = none ∨ s.fault = true ∨ s.txCredit = some 0 → s.moves = .dev b :: ms →
    (∀ i, decodeDevice s.device.mode b = some i → step s = exec i { s with moves := ms }) ∧
      (decodeDevice s.device.mode b = none → step s = .refused .deviceByteNotListed)

/-- spec/60_exceptions.md R113, spec/30_encoding.md R56: an illegal opcode byte at a command boundary sets FAULT and
SEQ = FAULTED and changes nothing else; from then on `cmd_ready` is 0. -/
def Obligations.IllegalOpcodeRaisesTheFault : Prop :=
  ∀ (b : Byte) (ms : List HostMove) (s : State), CleanEntry s → s.moves = .cmd b :: ms → opcodeOf b = none →
    ∃ t, step s = .next t ∧ t.fault = true ∧ t.seq = .faulted ∧ cmdReady t = false ∧ busy t = false ∧
      t.fb = s.fb ∧ t.trace = s.trace ∧ t.work = s.work ∧ t.tx = none ∧ t.device = s.device ∧ t.moves = ms ∧
        t.txCredit = s.txCredit

/-- spec/60_exceptions.md R113, R117: a faulted engine runs no command and takes no command byte, keeps FB and TRACE, and
leaves FAULTED by reset alone; a host that does nothing else leaves it with no step. That the model answers
`engineFaulted` where no step exists is its own choice (log entry 9), and so is that the host acts on its other wires
past the bytes it still offers (log entry 6). -/
def Obligations.FaultedEngineWaitsForReset : Prop :=
  ∀ s : State, s.fault = true → s.seq = .faulted → s.tx = none →
    (∀ i : Instr, i.space = .command → exec i s = .fault .engineFaulted) ∧
      (otherMove s.moves = none → step s = .fault .engineFaulted) ∧
        ∀ t, step s = .next t → heldBytes t.moves = heldBytes s.moves ∧
          ((t.fault = true ∧ t.seq = .faulted ∧ t.fb = s.fb ∧ t.trace = s.trace ∧ t.work = s.work) ∨
            ∃ ms, otherMove s.moves = some (.rst, ms) ∧ t = resetEngine { s with moves := ms } ∧ CleanEntry t ∧
              ∀ i, fbRead t.fb i = 0)

/-- spec/70_reset_and_hazards.md R130, R131, spec/60_exceptions.md R115: reset has priority over everything. Asserted in
any state, at a command boundary, inside a command, with a TX event offered that could be accepted or in FAULTED, it is
the next step: it blanks FB, clears FAULT and BUSY, empties TRACE and the TX port, emits nothing and leaves the device as
it is. -/
def Obligations.ResetMoveResetsTheEngine : Prop :=
  ∀ (s : State) (ms : List HostMove), s.moves = .rst :: ms →
    ∃ t, step s = .next t ∧ (∀ i, fbRead t.fb i = 0) ∧ t.fault = false ∧ busy t = false ∧ t.seq = .idle ∧
      t.trace = [] ∧ txValid t = false ∧ cmdReady t = true ∧ t.device = s.device ∧ t.moves = ms ∧
        t.txCredit = s.txCredit ∧ CleanEntry t ∧ AfterReset t

/-- spec/10_state.md R23, spec/70_reset_and_hazards.md R130: what the spec states of the state after reset. -/
def Obligations.ResetStateIsBlank : Prop :=
  (∀ i, fbRead State.reset.fb i = 0) ∧ (∀ x y, IsPixel x y → pixelRead State.reset.fb x y = some false) ∧
    State.reset.fault = false ∧ busy State.reset = false ∧ State.reset.seq = .idle ∧ State.reset.trace = [] ∧
      cmdReady State.reset = true ∧ txValid State.reset = false ∧ CleanEntry State.reset ∧ AfterReset State.reset

/-- spec/30_encoding.md R61: a host that stops before the operands of a command are complete leaves the engine waiting
for ever, BUSY, with no fault and with FB and TRACE as before; operands are taken before the first effect. That the model's step answers `waitsForByte` in
that wait, which the rule calls no fault, is its own choice (log entry 9). -/
def Obligations.IncompleteCommandWaits : Prop :=
  ∀ (i : Instr) (k : Nat) (s : State), i.wf = true → i.space = .command → CleanEntry s → 0 < k →
    k < (encode i).length → k < 4 ∨ (∀ c x y text, i ≠ .drawString c x y text) →
      s.moves = ((encode i).take k).map .cmd →
        ∃ t, step s = .next t ∧ t.seq = .operands ∧ busy t = true ∧ cmdReady t = true ∧ t.fault = false ∧
          t.fb = s.fb ∧ t.trace = s.trace ∧ t.moves = [] ∧ step t = .fault .waitsForByte

/-- spec/30_encoding.md R61, R55: a host that stops inside a string leaves the engine waiting for ever with the glyphs of
the characters already taken drawn. That the model's step answers `waitsForByte` in that wait is its own choice (log
entry 9). -/
def Obligations.IncompleteStringShowsItsGlyphs : Prop :=
  ∀ (c : Bool) (x y : Byte) (text : List Byte) (k : Nat) (s : State), text.length ≤ 255 → CleanEntry s →
    k < text.length → s.moves = ((encode (.drawString c x y text)).take (4 + k)).map .cmd →
      ∃ t, step s = .next t ∧ t.seq = .exec ∧ busy t = true ∧ cmdReady t = true ∧ t.fault = false ∧
        t.fb = textCells x.toNat y.toNat (text.take k) c s.fb ∧ t.trace = s.trace ∧ t.moves = [] ∧
          step t = .fault .waitsForByte

/-- spec/30_encoding.md R50, spec/20_memory.md R42: the pace of the host does not matter. A command whose bytes come in
two parts, anywhere split, ends in the very state of the command whose bytes come at once, the model's free values for the
working registers included (log entry 2). -/
def Obligations.HostPaceDoesNotMatter : Prop :=
  ∀ (i : Instr) (k : Nat) (s : State), i.wf = true → i.space = .command → CleanEntry s → 0 < k →
    k < (encode i).length →
      ∃ t u, step { s with moves := ((encode i).take k).map .cmd } = .next t ∧
        step { t with moves := ((encode i).drop k).map .cmd } = .next u ∧
          step { s with moves := (encode i).map .cmd } = .next u

/-! ## The whole machine -/

/-- The invariant of the machine holds after reset. -/
def Obligations.ResetMeetsTheInvariant : Prop := Inv State.reset

/-- spec/10_state.md R10, R17, R18: every step keeps the invariant: FB and the device's memory in canonical form inside
their 504 bytes, FAULT exactly when SEQ is FAULTED, an event offered only in EXEC, and waits only where the engine can go
on from. -/
def Obligations.StepKeepsTheInvariant : Prop := ∀ s t : State, Inv s → step s = .next t → Inv t

/-- spec/60_exceptions.md R110: no drawing or transmission command faults, traps or is refused for any operand value, and
none sets FAULT. -/
def Obligations.EveryLegalCommandRuns : Prop :=
  ∀ (i : Instr) (s : State), i.space = .command → s.fault = false → ∃ t, exec i s = .next t ∧ t.fault = false

/-- spec/10_state.md R11, R20, spec/20_memory.md R38: only DISPLAY_UPDATE appends to TRACE, only drawing commands change
FB, and no command changes FAULT or what the host still offers. -/
def Obligations.OnlyUpdateTransmitsOnlyDrawingDraws : Prop :=
  ∀ (i : Instr) (s t : State), exec i s = .next t →
    (i ≠ .displayUpdate → t.trace = s.trace) ∧ (i = .displayUpdate ∨ i.space = .device → t.fb = s.fb) ∧
      t.fault = s.fault ∧ t.moves = s.moves

/-- spec/10_state.md R20: TRACE is append-only; only reset empties it. -/
def Obligations.TraceIsAppendOnly : Prop :=
  ∀ s t : State, step s = .next t →
    (∃ es, t.trace = s.trace ++ es) ∨ ∃ ms, otherMove s.moves = some (.rst, ms) ∧ t.trace = []

/-- spec/60_exceptions.md R118, spec/70_reset_and_hazards.md R145: no device state can influence the engine: two states
that differ in the device alone step alike but for the device. -/
def Obligations.DeviceNeverInfluencesTheEngine : Prop :=
  ∀ (s : State) (d : Device), SameButDevice (step s) (step { s with device := d })

/-- spec/20_memory.md R37, spec/70_reset_and_hazards.md R143: a program of whole commands, device bytes among them, that
the host delivers and nothing else, run from a clean entry with a live collaborator, ends normally, and its FB and TRACE
are those of its commands applied one after another. That the device is too is no word of R37 or R143 but the model's: the
mode alone decides what the byte `0x80 | v` is read as, whichever of its two rows was sent (log entry 14), and where R60
leaves an operand open both sides draw the same free values in the same order (log entries 15 and 19). That moments are
the boundaries of steps is the model's reading (log entry 27). -/
def Obligations.ProgramRunIsTheComposition : Prop :=
  ∀ (program : List Instr) (s : State), CleanEntry s → TxLive s → HostDelivers program s →
    ∃ t u, Host.Core.run core program.length s = .next t ∧ runAll program s = .next u ∧ t.moves = [] ∧ RunEnded t ∧
      t.fb = u.fb ∧ t.trace = u.trace ∧ t.device = u.device

/-- spec/40_bitaddr.md R75: the debug read port shows the pixel and its byte for an in-range coordinate. Where the rule
leaves outputs unspecified the model gives no value: none for `rd_bit` and `rd_byte` of an out-of-range coordinate, and
none at all while BUSY = 1. That is its own choice (log entry 20). -/
def Obligations.DebugPortShowsThePixel : Prop :=
  ∀ (s : State) (x y : Byte),
    (busy s = true → debugRead s x y = none) ∧
      (busy s = false → x.toNat < 84 → y.toNat < 48 →
        ∃ v, pixelRead s.fb (zext x) (zext y) = some v ∧
          debugRead s x y = some ⟨true, some v, some (fbRead s.fb (x.toNat + y.toNat / 8 * 84))⟩ ∧
            v = (fbRead s.fb (x.toNat + y.toNat / 8 * 84)).getLsbD (y.toNat % 8)) ∧
        (busy s = false → 84 ≤ x.toNat ∨ 48 ≤ y.toNat → debugRead s x y = some ⟨false, none, none⟩)

/-- spec/10_state.md R17, R18, spec/30_encoding.md R50, spec/60_exceptions.md R123: BUSY is 1 exactly in OPERANDS and EXEC;
a faulted engine is not busy and takes no byte; an idle engine to which nothing is offered stays as it is. -/
def Obligations.FlagsFollowTheSequencer : Prop :=
  ∀ s : State, Inv s →
    (busy s = true ↔ s.seq = .operands ∨ s.seq = .exec) ∧
      (s.fault = true → s.seq = .faulted ∧ busy s = false ∧ cmdReady s = false ∧ txValid s = false) ∧
        (s.seq = .idle → cmdReady s = true ∧ busy s = false ∧ txValid s = false) ∧
          (s.seq = .idle → s.moves = [] → step s = .next s)

/-! ## Runs, their end, and what the host does -/

/-- spec/70_reset_and_hazards.md R143, spec/20_memory.md R37: the run of a program of whole commands that the host
delivers and nothing else has a first moment at which every command byte is taken and the engine is clean, and the FB and
TRACE of that moment are those of its commands applied one after another. Where the program holds no byte for the device
it is after the last command. That moments are the boundaries of steps is the model's reading (log entry 27). -/
def Obligations.RunEndsAtItsFirstCleanMoment : Prop :=
  ∀ (program : List Instr) (s : State), CleanEntry s → TxLive s → HostDelivers program s →
    ∃ k t u, k ≤ program.length ∧ EndsNormallyAt k s t ∧ runAll program s = .next u ∧ t.fb = u.fb ∧ t.trace = u.trace ∧
      ((∀ i ∈ program, i.space = .command) → k = program.length)

/-- spec/70_reset_and_hazards.md R143, spec/60_exceptions.md R113: a run that has reached FAULTED does not end normally,
however many steps follow, and takes no further byte, unless the host asserts reset. -/
def Obligations.FaultedRunNeverEndsNormally : Prop :=
  ∀ (k : Nat) (s t : State), s.fault = true → HostMove.rst ∉ s.moves → Host.Core.run core k s = .next t →
    ¬RunEnded t ∧ heldBytes t.moves = heldBytes s.moves ∧ t.fb = s.fb ∧ t.trace = s.trace

/-- spec/43_serializer.md R102: an update right after reset emits the two commands and 504 bytes 0x00. -/
def Obligations.UpdateAfterResetSendsABlankPicture : Prop :=
  ∀ s : State, AfterReset s → TxLive s →
    ∃ t, exec .displayUpdate s = .next t ∧
      t.trace = ⟨false, 0x40⟩ :: ⟨false, 0x80⟩ :: List.replicate 504 (⟨true, 0x00⟩ : TxEvent) ∧ t.fb = [] ∧
        t.fault = false ∧ CleanEntry t

/-- spec/60_exceptions.md R113: a faulted engine runs no command of the stream, and a faulted one alone: the only end of a
command other than a next state is the model's answer for a command step that does not exist (log entry 9). -/
def Obligations.OnlyAFaultedEngineRunsNoCommand : Prop :=
  ∀ (i : Instr) (s : State), i.space = .command →
    (exec i s = .fault .engineFaulted ↔ s.fault = true) ∧ (s.fault = false ↔ ∃ t, exec i s = .next t)

/-- spec/30_encoding.md R60: every device command byte completes and changes the device alone. That it does so in every
state of the engine, faulted or busy, is the model's choice of the host's path (log entry 26), and so is that it does on
the operands R60 does not list (log entry 15). -/
def Obligations.EveryDeviceByteRuns : Prop :=
  ∀ (i : Instr) (s : State), i.space = .device →
    ∃ t, exec i s = .next t ∧ SameEngine s t ∧ t.device.ram = s.device.ram

/-- spec/10_state.md R14, spec/41_raster.md R83, R84: XR and YB are -1 to 509, RXE and RYE 0 to 510 and EDGE 0 to 3 after
the rectangle sequencers, whatever the registers held before; RI and RJ end inside the rectangle scanned. -/
def Obligations.RectRegistersStayInRange : Prop :=
  ∀ (x y w h : Byte) (c : Bool) (r : RectRegs) (l : LineRegs) (fb : Memory),
    ((-1 ≤ (rectOutline (zext x) (zext y) w.toNat h.toNat c (r, l, fb)).1.xr ∧
        (rectOutline (zext x) (zext y) w.toNat h.toNat c (r, l, fb)).1.xr ≤ 509) ∧
      (-1 ≤ (rectOutline (zext x) (zext y) w.toNat h.toNat c (r, l, fb)).1.yb ∧
        (rectOutline (zext x) (zext y) w.toNat h.toNat c (r, l, fb)).1.yb ≤ 509) ∧
        (rectOutline (zext x) (zext y) w.toNat h.toNat c (r, l, fb)).1.edge ≤ 3) ∧
      (rectFill (zext x) (zext y) w.toNat h.toNat c (r, fb)).1.rxe = zext x + zext w ∧
        (rectFill (zext x) (zext y) w.toNat h.toNat c (r, fb)).1.rye = zext y + zext h ∧
          (0 ≤ zext x + zext w ∧ zext x + zext w ≤ 510) ∧ (0 ≤ zext y + zext h ∧ zext y + zext h ≤ 510) ∧
            (w ≠ 0 →
              zext x ≤ (rectFill (zext x) (zext y) w.toNat h.toNat c (r, fb)).1.ri ∧
                (rectFill (zext x) (zext y) w.toNat h.toNat c (r, fb)).1.ri < zext x + zext w) ∧
              (w ≠ 0 → h ≠ 0 →
                zext y ≤ (rectFill (zext x) (zext y) w.toNat h.toNat c (r, fb)).1.rj ∧
                  (rectFill (zext x) (zext y) w.toNat h.toNat c (r, fb)).1.rj < zext y + zext h)

/-- spec/43_serializer.md R100, R104: an event offered by a stalled update is accepted as soon as the collaborator accepts
again, before the host does anything else but reset, which has priority (spec/60_exceptions.md R115); that it goes before
the host's other moves is the model's order (log entry 7). As many of the events still to send
as the credit allows join TRACE, and the update ends or waits with the next one offered. -/
def Obligations.OfferedEventGoesFirst : Prop :=
  ∀ (s : State) (e : TxEvent), Inv s → s.tx = some e → s.txCredit ≠ some 0 → rstAsserted s.moves = false →
    ∃ t n, step s = .next t ∧ 0 < n ∧
      t.trace = s.trace ++ ((updateEvents s.fb).drop (eventsSent e s.work.si)).take n ∧
        (s.txCredit = none → n = 506 - eventsSent e s.work.si) ∧
          (∀ k, s.txCredit = some k → n = min k (506 - eventsSent e s.work.si)) ∧ t.fb = s.fb ∧ t.fault = false ∧
            t.moves = s.moves ∧
              (t.seq = .idle ∧ t.tx = none ∨
                t.seq = .exec ∧ t.txCredit = some 0 ∧ t.tx = (updateEvents s.fb)[eventsSent e s.work.si + n]? ∧
                  t.tx ≠ none)

/-- spec/70_reset_and_hazards.md R143, R145, spec/20_memory.md R37, R42: whatever the host does on its other wires between
and after the bytes, a reset after them included, a run whose byte sequence consists of whole commands, from a clean entry
with a live collaborator, ends normally, and its result is the FB and TRACE of its commands applied one after another. The
bytes the host sends the device are ones R60 lists: the model refuses another (log entry 16). That moments are the
boundaries of steps is the model's reading (log entry 27). -/
def Obligations.WholeCommandsEndNormally : Prop :=
  ∀ (program : List Instr) (s : State), CleanEntry s → TxLive s → HostCompletes program s → DeviceBytesListed s →
    ∃ k t u, k ≤ s.moves.length ∧ EndsNormallyAt k s t ∧ runAll program s = .next u ∧ t.fb = u.fb ∧ t.trace = u.trace
end

