-- ==== Sys2Proof/Laws/Memory.lean ====
section
/-! SUPPORT. The laws of byte memories: a read after a write, every write keeps the canonical form, and memories in
canonical form that read alike are equal. -/

namespace Sys2Proof.Machine

/-! ## Reading after writing -/

theorem memFind_memPut_same (m : Memory) (a : Nat) (v : Byte) : memFind (memPut m a v) a = some v := by
  induction m with
  | nil => simp [memPut, memFind]
  | cons p m ih =>
    obtain ⟨k, w⟩ := p
    unfold memPut
    split_ifs with h1 h2
    · simp [memFind]
    · simp [memFind]
    · simp [memFind, Ne.symm h2, ih]

theorem memFind_memPut_other (m : Memory) {a b : Nat} (v : Byte) (h : b ≠ a) :
    memFind (memPut m a v) b = memFind m b := by
  induction m with
  | nil => simp [memPut, memFind, h.symm]
  | cons p m ih =>
    obtain ⟨k, w⟩ := p
    unfold memPut
    split_ifs with h1 h2
    · simp [memFind, h.symm]
    · subst h2; simp [memFind, h.symm]
    · simp only [memFind, ih]

theorem memFind_memErase_other (m : Memory) {a b : Nat} (h : b ≠ a) :
    memFind (memErase m a) b = memFind m b := by
  induction m with
  | nil => rfl
  | cons p m ih =>
    obtain ⟨k, w⟩ := p
    unfold memErase
    split_ifs with h1
    · subst h1; simp [memFind, h.symm]
    · simp only [memFind, ih]

/-- An address below every listed one is not listed. -/
theorem memFind_below {m : Memory} {lo a : Nat} (hm : memRisingFrom lo m = true) (h : a < lo) :
    memFind m a = none := by
  induction m generalizing lo with
  | nil => rfl
  | cons p m ih =>
    obtain ⟨k, w⟩ := p
    simp only [memRisingFrom, Bool.and_eq_true, decide_eq_true_eq] at hm
    simp only [memFind]
    rw [if_neg (by omega)]
    exact ih hm.2 (by omega)

theorem memFind_memErase_same {m : Memory} {lo : Nat} (hm : memRisingFrom lo m = true) (a : Nat) :
    memFind (memErase m a) a = none := by
  induction m generalizing lo with
  | nil => rfl
  | cons p m ih =>
    obtain ⟨k, w⟩ := p
    simp only [memRisingFrom, Bool.and_eq_true, decide_eq_true_eq] at hm
    unfold memErase
    split_ifs with h1
    · exact memFind_below hm.2 (by omega)
    · simp only [memFind, if_neg h1]
      exact ih hm.2

theorem wf_rising {fb : Memory} (h : Memory.wf fb = true) : memRisingFrom 0 fb = true := by
  simp only [Memory.wf, Bool.and_eq_true] at h
  exact h.1

/-- `MemRead` after `MemWrite` at the same index (spec/20_memory.md R33, R37). -/
theorem fbRead_fbWrite_same {fb : Memory} (h : Memory.wf fb = true) (i : Nat) (v : Byte) :
    fbRead (fbWrite fb i v) i = v := by
  unfold fbRead fbWrite
  split_ifs with hv
  · rw [memFind_memErase_same (wf_rising h) i, hv]; rfl
  · rw [memFind_memPut_same]; rfl

/-- `MemWrite` leaves every other byte unchanged (spec/20_memory.md R33). -/
theorem fbRead_fbWrite_other (fb : Memory) {i j : Nat} (v : Byte) (h : j ≠ i) :
    fbRead (fbWrite fb i v) j = fbRead fb j := by
  unfold fbRead fbWrite
  split_ifs
  · rw [memFind_memErase_other fb h]
  · rw [memFind_memPut_other fb v h]

/-! ## The canonical form is kept -/

theorem memRisingFrom_le {m : Memory} {lo lo' : Nat} (h : lo' ≤ lo) (hm : memRisingFrom lo m = true) :
    memRisingFrom lo' m = true := by
  cases m with
  | nil => rfl
  | cons p m =>
    obtain ⟨k, w⟩ := p
    simp only [memRisingFrom, Bool.and_eq_true, decide_eq_true_eq] at hm ⊢
    exact ⟨by omega, hm.2⟩

theorem memPut_rising {m : Memory} {lo a : Nat} (v : Byte) (ha : lo ≤ a) (hm : memRisingFrom lo m = true) :
    memRisingFrom lo (memPut m a v) = true := by
  induction m generalizing lo with
  | nil => simp [memPut, memRisingFrom, ha]
  | cons p m ih =>
    obtain ⟨k, w⟩ := p
    simp only [memRisingFrom, Bool.and_eq_true, decide_eq_true_eq] at hm
    unfold memPut
    split_ifs with h1 h2
    · simp only [memRisingFrom, Bool.and_eq_true, decide_eq_true_eq]
      exact ⟨ha, by omega, hm.2⟩
    · subst h2
      simp only [memRisingFrom, Bool.and_eq_true, decide_eq_true_eq]
      exact ⟨ha, hm.2⟩
    · simp only [memRisingFrom, Bool.and_eq_true, decide_eq_true_eq]
      exact ⟨hm.1, ih (by omega) hm.2⟩

theorem memErase_rising {m : Memory} {lo : Nat} (a : Nat) (hm : memRisingFrom lo m = true) :
    memRisingFrom lo (memErase m a) = true := by
  induction m generalizing lo with
  | nil => rfl
  | cons p m ih =>
    obtain ⟨k, w⟩ := p
    simp only [memRisingFrom, Bool.and_eq_true, decide_eq_true_eq] at hm
    unfold memErase
    split_ifs with h1
    · exact memRisingFrom_le (by omega) hm.2
    · simp only [memRisingFrom, Bool.and_eq_true, decide_eq_true_eq]
      exact ⟨hm.1, ih hm.2⟩

theorem memPut_all {P : Host.Cell → Bool} {m : Memory} {a : Nat} {v : Byte} (hp : P (a, v) = true)
    (hm : m.all P = true) : (memPut m a v).all P = true := by
  induction m with
  | nil => simpa [memPut] using hp
  | cons p m ih =>
    obtain ⟨k, w⟩ := p
    simp only [List.all_cons, Bool.and_eq_true] at hm
    unfold memPut
    split_ifs
    · simp only [List.all_cons, Bool.and_eq_true]; exact ⟨hp, hm.1, hm.2⟩
    · simp only [List.all_cons, Bool.and_eq_true]; exact ⟨hp, hm.2⟩
    · simp only [List.all_cons, Bool.and_eq_true]; exact ⟨hm.1, ih hm.2⟩

theorem memErase_all {P : Host.Cell → Bool} {m : Memory} {a : Nat} (hm : m.all P = true) :
    (memErase m a).all P = true := by
  induction m with
  | nil => rfl
  | cons p m ih =>
    obtain ⟨k, w⟩ := p
    simp only [List.all_cons, Bool.and_eq_true] at hm
    unfold memErase
    split_ifs
    · exact hm.2
    · simp only [List.all_cons, Bool.and_eq_true]; exact ⟨hm.1, ih hm.2⟩

/-- Every write of a byte of FB keeps its canonical form. -/
theorem fbWrite_wf {fb : Memory} {i : Nat} (v : Byte) (hi : i < 504) (h : Memory.wf fb = true) :
    Memory.wf (fbWrite fb i v) = true := by
  simp only [Memory.wf, Bool.and_eq_true] at h ⊢
  unfold fbWrite
  split_ifs with hv
  · exact ⟨memErase_rising i h.1, memErase_all h.2⟩
  · exact ⟨memPut_rising v (Nat.zero_le i) h.1, memPut_all (by simp only [Config.fbBytes, hi, decide_true, Bool.true_and, decide_eq_true_eq]; exact hv) h.2⟩

/-- Every write of a byte of the device's memory keeps its canonical form. -/
theorem memPut_ramWf {ram : Memory} {i : Nat} (v : Byte) (hi : i < 504) (h : ramWf ram = true) :
    ramWf (memPut ram i v) = true := by
  simp only [ramWf, Bool.and_eq_true] at h ⊢
  exact ⟨memPut_rising v (Nat.zero_le i) h.1, memPut_all (by simp [hi]) h.2⟩

theorem wf_nil : Memory.wf [] = true := rfl

/-! ## Equal memories are equal data -/

theorem memory_ext_from {m₁ m₂ : Memory} {lo : Nat} (h₁ : memRisingFrom lo m₁ = true)
    (h₂ : memRisingFrom lo m₂ = true) (h : ∀ a, memFind m₁ a = memFind m₂ a) : m₁ = m₂ := by
  induction m₁ generalizing m₂ lo with
  | nil =>
    cases m₂ with
    | nil => rfl
    | cons p m₂ => have := h p.1; simp [memFind] at this
  | cons p m₁ ih =>
    obtain ⟨k, w⟩ := p
    cases m₂ with
    | nil => have := h k; simp [memFind] at this
    | cons q m₂ =>
      obtain ⟨l, u⟩ := q
      simp only [memRisingFrom, Bool.and_eq_true, decide_eq_true_eq] at h₁ h₂
      have hkl : k = l := by
        rcases Nat.lt_trichotomy k l with hlt | heq | hgt
        · have hk := h k
          have : memFind m₂ k = none := memFind_below h₂.2 (by omega)
          simp [memFind, this, show l ≠ k by omega] at hk
        · exact heq
        · have hl := h l
          have : memFind m₁ l = none := memFind_below h₁.2 (by omega)
          simp [memFind, this, show k ≠ l by omega] at hl
      subst hkl
      have hw : w = u := by have := h k; simpa [memFind] using this
      subst hw
      refine congrArg _ (ih h₁.2 h₂.2 fun a => ?_)
      rcases Nat.lt_or_ge a (k + 1) with ha | ha
      · rw [memFind_below h₁.2 ha, memFind_below h₂.2 ha]
      · have := h a
        simpa [memFind, show k ≠ a by omega] using this

theorem memFind_ne_zero {fb : Memory} (h : Memory.wf fb = true) (a : Nat) : memFind fb a ≠ some 0 := by
  simp only [Memory.wf, Bool.and_eq_true] at h
  have hall := h.2
  clear h
  induction fb with
  | nil => simp [memFind]
  | cons p m ih =>
    obtain ⟨k, w⟩ := p
    simp only [List.all_cons, Bool.and_eq_true, decide_eq_true_eq] at hall
    unfold memFind
    split_ifs
    · intro hw; exact hall.1.2 (Option.some.inj hw)
    · exact ih hall.2

/-- Two framebuffers in canonical form that read alike are the same data. -/
theorem fb_ext {m₁ m₂ : Memory} (h₁ : Memory.wf m₁ = true) (h₂ : Memory.wf m₂ = true)
    (h : ∀ i, fbRead m₁ i = fbRead m₂ i) : m₁ = m₂ := by
  refine memory_ext_from (wf_rising h₁) (wf_rising h₂) fun a => ?_
  have ha := h a
  have hz₁ := memFind_ne_zero h₁ a
  have hz₂ := memFind_ne_zero h₂ a
  unfold fbRead at ha
  cases hm₁ : memFind m₁ a <;> cases hm₂ : memFind m₂ a <;> simp_all

end Sys2Proof.Machine
end

