-- ==== Sys2Proof/Laws/Pixel.lean ====
section
/-! SUPPORT. The laws of `Addr`, `PixelRead` and `PixelWrite` (spec/40_bitaddr.md R70 to R72), said once: what a pixel
write does to every bit of every byte. -/

namespace Sys2Proof.Machine

theorem inRange_iff (x y : Int) : inRange x y = true ↔ IsPixel x y := by
  simp only [inRange, IsPixel, Bool.and_eq_true, decide_eq_true_eq, Config.width, Config.height, and_assoc]
  norm_num

theorem inRange_false_iff (x y : Int) : inRange x y = false ↔ ¬IsPixel x y := by
  rw [← inRange_iff, Bool.not_eq_true]

/-- The index of an in-range pixel is one of the 504 (R36, R70). -/
theorem pixelAddr_lt {x y : Int} (h : IsPixel x y) : (pixelAddr x y).1 < 504 := by
  obtain ⟨hx0, hx, hy0, hy⟩ := h
  simp only [pixelAddr, Config.width]
  omega

theorem pixelAddr_bit_lt (x y : Int) : (pixelAddr x y).2 < 8 := Nat.mod_lt _ (by decide)

/-- Different in-range pixels have different places (R70). -/
theorem pixelAddr_inj {x y a b : Int} (h : IsPixel x y) (h' : IsPixel a b) (he : pixelAddr x y = pixelAddr a b) :
    x = a ∧ y = b := by
  obtain ⟨hx0, hx, hy0, hy⟩ := h
  obtain ⟨ha0, ha, hb0, hb⟩ := h'
  simp only [pixelAddr, Config.width, Prod.mk.injEq] at he
  omega

/-- One bit of `withBit` (R71). -/
theorem getLsbD_withBit (old : Byte) {bit k : Nat} (c : Bool) (hb : bit < 8) (hk : k < 8) :
    (withBit old bit c).getLsbD k = if k = bit then c else old.getLsbD k := by
  have h1 : (1#8 <<< bit).getLsbD k = decide (k = bit) := by
    rw [BitVec.getLsbD_shiftLeft, BitVec.getLsbD_one, Bool.eq_iff_iff]
    simp only [Bool.and_eq_true, Bool.not_eq_true', decide_eq_true_eq, decide_eq_false_iff_not]
    omega
  unfold withBit
  cases c with
  | true =>
    simp only [if_true, BitVec.getLsbD_or, h1]
    by_cases h : k = bit <;> simp [h]
  | false =>
    simp only [Bool.false_eq_true, if_false, BitVec.getLsbD_and, BitVec.getLsbD_not, h1, hk]
    by_cases h : k = bit <;> simp [h]

theorem pixelWrite_out {x y : Int} (c : Bool) (fb : Memory) (h : ¬IsPixel x y) : pixelWrite x y c fb = fb := by
  simp [pixelWrite, (inRange_false_iff x y).mpr h]

theorem pixelWrite_in {x y : Int} (c : Bool) (fb : Memory) (h : IsPixel x y) :
    pixelWrite x y c fb =
      fbWrite fb (pixelAddr x y).1 (withBit (fbRead fb (pixelAddr x y).1) (pixelAddr x y).2 c) := by
  simp [pixelWrite, (inRange_iff x y).mpr h]

/-- Every pixel write keeps the canonical form. -/
theorem pixelWrite_wf (x y : Int) (c : Bool) {fb : Memory} (h : Memory.wf fb = true) :
    Memory.wf (pixelWrite x y c fb) = true := by
  by_cases hp : IsPixel x y
  · rw [pixelWrite_in c fb hp]; exact fbWrite_wf _ (pixelAddr_lt hp) h
  · rwa [pixelWrite_out c fb hp]

/-- A pixel write changes no byte but the pixel's (R71). -/
theorem fbRead_pixelWrite_other {x y : Int} (c : Bool) (fb : Memory) {i : Nat}
    (h : IsPixel x y → i ≠ (pixelAddr x y).1) : fbRead (pixelWrite x y c fb) i = fbRead fb i := by
  by_cases hp : IsPixel x y
  · rw [pixelWrite_in c fb hp]; exact fbRead_fbWrite_other fb _ (h hp)
  · rw [pixelWrite_out c fb hp]

theorem fbRead_pixelWrite_same {x y : Int} (c : Bool) {fb : Memory} (h : Memory.wf fb = true) (hp : IsPixel x y) :
    fbRead (pixelWrite x y c fb) (pixelAddr x y).1 =
      withBit (fbRead fb (pixelAddr x y).1) (pixelAddr x y).2 c := by
  rw [pixelWrite_in c fb hp, fbRead_fbWrite_same h]

theorem pixelRead_in {x y : Int} (fb : Memory) (h : IsPixel x y) :
    pixelRead fb x y = some ((fbRead fb (pixelAddr x y).1).getLsbD (pixelAddr x y).2) := by
  simp [pixelRead, (inRange_iff x y).mpr h]

theorem pixelRead_out {x y : Int} (fb : Memory) (h : ¬IsPixel x y) : pixelRead fb x y = none := by
  simp [pixelRead, (inRange_false_iff x y).mpr h]

/-- What a pixel write does to every pixel (R71): the one it names reads the colour, the others read as before. -/
theorem pixelRead_pixelWrite {x y a b : Int} (c : Bool) {fb : Memory} (h : Memory.wf fb = true)
    (ha : IsPixel a b) :
    pixelRead (pixelWrite x y c fb) a b = if x = a ∧ y = b then some c else pixelRead fb a b := by
  rw [pixelRead_in _ ha, pixelRead_in _ ha]
  by_cases hp : IsPixel x y
  · by_cases hi : (pixelAddr a b).1 = (pixelAddr x y).1
    · rw [hi, fbRead_pixelWrite_same c h hp,
        getLsbD_withBit _ c (pixelAddr_bit_lt x y) (pixelAddr_bit_lt a b)]
      by_cases hb : (pixelAddr a b).2 = (pixelAddr x y).2
      · have hxy := pixelAddr_inj hp ha (Prod.ext hi.symm hb.symm)
        simp [hb, hxy]
      · have : ¬(x = a ∧ y = b) := by rintro ⟨rfl, rfl⟩; exact hb rfl
        simp [hb, this]
    · have : ¬(x = a ∧ y = b) := by rintro ⟨rfl, rfl⟩; exact hi rfl
      rw [fbRead_pixelWrite_other c fb fun _ => hi, if_neg this]
  · have : ¬(x = a ∧ y = b) := by rintro ⟨rfl, rfl⟩; exact hp ha
    rw [pixelWrite_out c fb hp, if_neg this]

end Sys2Proof.Machine
end

