-- ==== Sys2Proof/Laws/State.lean ====
section
/-! SUPPORT. The small laws of the operations that change the state: for each, what every field is afterwards. -/

namespace Sys2Proof.Machine

variable (s : State)

@[simp] theorem finish_fb : (finish s).fb = s.fb := rfl
@[simp] theorem finish_fault : (finish s).fault = s.fault := rfl
@[simp] theorem finish_seq : (finish s).seq = .idle := rfl
@[simp] theorem finish_trace : (finish s).trace = s.trace := rfl
@[simp] theorem finish_work : (finish s).work = freeWork s.draws := rfl
@[simp] theorem finish_tx : (finish s).tx = s.tx := rfl
@[simp] theorem finish_device : (finish s).device = s.device := rfl
@[simp] theorem finish_moves : (finish s).moves = s.moves := rfl
@[simp] theorem finish_txCredit : (finish s).txCredit = s.txCredit := rfl
@[simp] theorem finish_draws : (finish s).draws = s.draws + 1 := rfl

@[simp] theorem raiseFault_fb : (raiseFault s).fb = s.fb := rfl
@[simp] theorem raiseFault_fault : (raiseFault s).fault = true := rfl
@[simp] theorem raiseFault_seq : (raiseFault s).seq = .faulted := rfl
@[simp] theorem raiseFault_trace : (raiseFault s).trace = s.trace := rfl
@[simp] theorem raiseFault_work : (raiseFault s).work = s.work := rfl
@[simp] theorem raiseFault_tx : (raiseFault s).tx = s.tx := rfl
@[simp] theorem raiseFault_device : (raiseFault s).device = s.device := rfl
@[simp] theorem raiseFault_moves : (raiseFault s).moves = s.moves := rfl
@[simp] theorem raiseFault_txCredit : (raiseFault s).txCredit = s.txCredit := rfl
@[simp] theorem raiseFault_draws : (raiseFault s).draws = s.draws := rfl

@[simp] theorem resetEngine_fb : (resetEngine s).fb = [] := rfl
@[simp] theorem resetEngine_fault : (resetEngine s).fault = false := rfl
@[simp] theorem resetEngine_seq : (resetEngine s).seq = .idle := rfl
@[simp] theorem resetEngine_trace : (resetEngine s).trace = [] := rfl
@[simp] theorem resetEngine_work : (resetEngine s).work = Work.reset := rfl
@[simp] theorem resetEngine_tx : (resetEngine s).tx = none := rfl
@[simp] theorem resetEngine_device : (resetEngine s).device = s.device := rfl
@[simp] theorem resetEngine_moves : (resetEngine s).moves = s.moves := rfl
@[simp] theorem resetEngine_txCredit : (resetEngine s).txCredit = s.txCredit := rfl
@[simp] theorem resetEngine_draws : (resetEngine s).draws = s.draws := rfl

variable (x y w h : Byte) (c : Bool)

@[simp] theorem fillState_fault : (fillState x y w h c s).fault = s.fault := rfl
@[simp] theorem fillState_seq : (fillState x y w h c s).seq = s.seq := rfl
@[simp] theorem fillState_trace : (fillState x y w h c s).trace = s.trace := rfl
@[simp] theorem fillState_tx : (fillState x y w h c s).tx = s.tx := rfl
@[simp] theorem fillState_device : (fillState x y w h c s).device = s.device := rfl
@[simp] theorem fillState_moves : (fillState x y w h c s).moves = s.moves := rfl
@[simp] theorem fillState_txCredit : (fillState x y w h c s).txCredit = s.txCredit := rfl
@[simp] theorem fillState_draws : (fillState x y w h c s).draws = s.draws := rfl

@[simp] theorem outlineState_fault : (outlineState x y w h c s).fault = s.fault := rfl
@[simp] theorem outlineState_seq : (outlineState x y w h c s).seq = s.seq := rfl
@[simp] theorem outlineState_trace : (outlineState x y w h c s).trace = s.trace := rfl
@[simp] theorem outlineState_tx : (outlineState x y w h c s).tx = s.tx := rfl
@[simp] theorem outlineState_device : (outlineState x y w h c s).device = s.device := rfl
@[simp] theorem outlineState_moves : (outlineState x y w h c s).moves = s.moves := rfl
@[simp] theorem outlineState_txCredit : (outlineState x y w h c s).txCredit = s.txCredit := rfl
@[simp] theorem outlineState_draws : (outlineState x y w h c s).draws = s.draws := rfl

variable (chars : List Byte)

@[simp] theorem textState_fault : (textState c chars s).fault = s.fault := rfl
@[simp] theorem textState_seq : (textState c chars s).seq = s.seq := rfl
@[simp] theorem textState_trace : (textState c chars s).trace = s.trace := rfl
@[simp] theorem textState_tx : (textState c chars s).tx = s.tx := rfl
@[simp] theorem textState_device : (textState c chars s).device = s.device := rfl
@[simp] theorem textState_moves : (textState c chars s).moves = s.moves := rfl
@[simp] theorem textState_txCredit : (textState c chars s).txCredit = s.txCredit := rfl
@[simp] theorem textState_draws : (textState c chars s).draws = s.draws := rfl
@[simp] theorem textState_latch : (textState c chars s).work.latch = s.work.latch := rfl
@[simp] theorem textState_nil : textState c [] s = s := rfl

variable (len : Nat)

@[simp] theorem textBegin_fb : (textBegin x y len s).fb = s.fb := rfl
@[simp] theorem textBegin_fault : (textBegin x y len s).fault = s.fault := rfl
@[simp] theorem textBegin_seq : (textBegin x y len s).seq = s.seq := rfl
@[simp] theorem textBegin_trace : (textBegin x y len s).trace = s.trace := rfl
@[simp] theorem textBegin_tx : (textBegin x y len s).tx = s.tx := rfl
@[simp] theorem textBegin_device : (textBegin x y len s).device = s.device := rfl
@[simp] theorem textBegin_moves : (textBegin x y len s).moves = s.moves := rfl
@[simp] theorem textBegin_txCredit : (textBegin x y len s).txCredit = s.txCredit := rfl
@[simp] theorem textBegin_draws : (textBegin x y len s).draws = s.draws := rfl
@[simp] theorem textBegin_latch : (textBegin x y len s).work.latch = s.work.latch := rfl

variable (bytes : List Byte) (taken : Nat)

@[simp] theorem dispatched_fb : (dispatched bytes taken s).fb = s.fb := rfl
@[simp] theorem dispatched_fault : (dispatched bytes taken s).fault = s.fault := rfl
@[simp] theorem dispatched_seq : (dispatched bytes taken s).seq = .exec := rfl
@[simp] theorem dispatched_trace : (dispatched bytes taken s).trace = s.trace := rfl
@[simp] theorem dispatched_tx : (dispatched bytes taken s).tx = s.tx := rfl
@[simp] theorem dispatched_device : (dispatched bytes taken s).device = s.device := rfl
@[simp] theorem dispatched_moves : (dispatched bytes taken s).moves = s.moves.drop taken := rfl
@[simp] theorem dispatched_txCredit : (dispatched bytes taken s).txCredit = s.txCredit := rfl
@[simp] theorem dispatched_draws : (dispatched bytes taken s).draws = s.draws := rfl
@[simp] theorem dispatched_latch :
    (dispatched bytes taken s).work.latch = latchBytes bytes s.work.latch := rfl

variable (e : TxEvent)

@[simp] theorem txAccept_fb : (txAccept e s).fb = s.fb := rfl
@[simp] theorem txAccept_fault : (txAccept e s).fault = s.fault := rfl
@[simp] theorem txAccept_seq : (txAccept e s).seq = s.seq := rfl
@[simp] theorem txAccept_trace : (txAccept e s).trace = s.trace ++ [e] := rfl
@[simp] theorem txAccept_tx : (txAccept e s).tx = none := rfl
@[simp] theorem txAccept_device : (txAccept e s).device = deviceReceive s.draws e s.device := rfl
@[simp] theorem txAccept_moves : (txAccept e s).moves = s.moves := rfl
@[simp] theorem txAccept_txCredit : (txAccept e s).txCredit = s.txCredit.map (· - 1) := rfl
@[simp] theorem txAccept_draws : (txAccept e s).draws = s.draws := rfl

@[simp] theorem txRun_nil : txRun [] s = finish s := rfl

end Sys2Proof.Machine
end

