-- ==== Sys2Proof/Laws/Ops.lean ====
section
/-! SUPPORT. One law per shared operation: what a command of the stream, the serializer's run and a device byte can
answer, and the shape of the lists of host moves. -/

namespace Sys2Proof.Machine

/-- A command of the stream answers exactly when the engine is not faulted (spec/60_exceptions.md R110, R113). -/
theorem runCommand_eq {body : State → State} {s : State} (h : s.fault = false) :
    runCommand body s = .next (finish (body s)) := by
  simp [runCommand, h]

theorem runCommand_faulted {body : State → State} {s : State} (h : s.fault = true) :
    runCommand body s = .fault .engineFaulted := by
  simp [runCommand, h]

/-- If a command of the stream answers a next state, the engine was not faulted and that state is its body's, ended. -/
theorem runCommand_next {body : State → State} {s t : State} (h : runCommand body s = .next t) :
    s.fault = false ∧ t = finish (body s) := by
  cases hf : s.fault
  · rw [runCommand_eq hf] at h
    exact ⟨rfl, (Host.Outcome.next.inj h).symm⟩
  · rw [runCommand_faulted hf] at h; cases h

/-- A device command byte always runs, and touches the device and the count of draws only (R60). -/
theorem onDevice_next {f : Nat → Device → Device} {s t : State} (h : onDevice f s = .next t) :
    t = { s with device := f s.draws s.device, draws := s.draws + 1 } :=
  (Host.Outcome.next.inj h).symm

/-- The serializer's run changes neither FB, nor FAULT, nor the host's moves (spec/43_serializer.md R102). -/
theorem txRun_frame (es : List TxEvent) (s : State) :
    (txRun es s).fb = s.fb ∧ (txRun es s).fault = s.fault ∧ (txRun es s).moves = s.moves := by
  induction es generalizing s with
  | nil => simp
  | cons e es ih =>
    unfold txRun
    split_ifs
    · simp
    · simpa using ih (txAccept e s)

/-- A run appends to TRACE a prefix of its events (R102, R104). -/
theorem txRun_trace (es : List TxEvent) (s : State) :
    ∃ k, (txRun es s).trace = s.trace ++ es.take k := by
  induction es generalizing s with
  | nil => exact ⟨0, by simp⟩
  | cons e es ih =>
    unfold txRun
    split_ifs
    · exact ⟨0, by simp⟩
    · obtain ⟨k, hk⟩ := ih (txAccept e s)
      exact ⟨k + 1, by simp [hk]⟩

/-- A collaborator that accepts every event lets the whole run through (R104). -/
theorem txRun_live (es : List TxEvent) (s : State) (h : s.txCredit = none) :
    (txRun es s).trace = s.trace ++ es ∧ (txRun es s).seq = .idle := by
  induction es generalizing s with
  | nil => simp
  | cons e es ih =>
    have hb : txBlocked s = false := by simp [txBlocked, h]
    obtain ⟨h₁, h₂⟩ := ih (txAccept e s) (by simp [h])
    simp [txRun, hb, h₁, h₂]

theorem updateEvents_length (fb : Memory) : (updateEvents fb).length = 506 := by
  simp [updateEvents]

/-- The bytes offered are moves of the host, in order, and what follows them offers none first. -/
theorem cmdOffered_append (bs : List Byte) (ms : List HostMove) :
    cmdOffered (bs.map .cmd ++ ms) = bs ++ cmdOffered ms := by
  induction bs with
  | nil => rfl
  | cons b bs ih => simp [cmdOffered, ih]

theorem cmdOffered_map (bs : List Byte) : cmdOffered (bs.map .cmd) = bs := by
  simpa [cmdOffered] using cmdOffered_append bs []

/-- A host that only offers bytes does nothing on its other wires. -/
theorem otherMove_map (bs : List Byte) : otherMove (bs.map .cmd) = none := by
  induction bs with
  | nil => rfl
  | cons b bs ih => simp [otherMove, ih]

/-- The move found on another wire offers no command byte. -/
theorem otherMove_not_cmd {ms ms' : List HostMove} {m : HostMove} (h : otherMove ms = some (m, ms')) (b : Byte) :
    m ≠ .cmd b := by
  induction ms generalizing ms' with
  | nil => simp [otherMove] at h
  | cons a ms ih =>
    cases a with
    | cmd c =>
      simp only [otherMove, Option.map_eq_some_iff] at h
      obtain ⟨⟨m', r⟩, hr, he⟩ := h
      obtain ⟨rfl, rfl⟩ := Prod.mk.inj he
      exact ih hr
    | dev c => simp only [otherMove, Option.some.injEq, Prod.mk.injEq] at h; rw [← h.1]; simp
    | rst => simp only [otherMove, Option.some.injEq, Prod.mk.injEq] at h; rw [← h.1]; simp
    | txReady n => simp only [otherMove, Option.some.injEq, Prod.mk.injEq] at h; rw [← h.1]; simp

end Sys2Proof.Machine
end

