-- ==== Sys2Proof/Laws/Device.lean ====
section
/-! SUPPORT. The display device: its operations keep its memory in canonical form, and command bytes leave it alone. -/

namespace Sys2Proof.Machine

theorem advanceAddress_ram (d : Device) : (advanceAddress d).ram = d.ram := by
  unfold advanceAddress; split_ifs <;> rfl

theorem deviceCommand_ram (n : Nat) (i : Instr) (d : Device) : (deviceCommand n i d).ram = d.ram := by
  cases i <;> simp only [deviceCommand, setMode, setDisplayNormal, selectPage, columnOrContrast, setBias] <;>
    cases d.mode <;> rfl

theorem deviceData_ramWf (b : Byte) {d : Device} (h : ramWf d.ram = true) : ramWf (deviceData b d).ram = true := by
  have hp := d.page.isLt
  have hc := d.col.isLt
  rw [deviceData, advanceAddress_ram]
  exact memPut_ramWf b (by omega) h

/-- Whatever the device takes from the TX port keeps its memory in canonical form. -/
theorem deviceReceive_ramWf (n : Nat) (e : TxEvent) {d : Device} (h : ramWf d.ram = true) :
    ramWf (deviceReceive n e d).ram = true := by
  unfold deviceReceive
  split_ifs
  · exact deviceData_ramWf _ h
  · split
    · rw [deviceCommand_ram]; exact h
    · exact h

/-- The device reads as one of its rows only a row of its own: no command of the engine's stream (R54, R60). -/
theorem decodeDevice_space {m : DevMode} {b : Byte} {i : Instr} (h : decodeDevice m b = some i) :
    i.space = .device := by
  unfold decodeDevice at h
  split_ifs at h <;> cases m <;> (simp only [Option.some.injEq] at h; subst h; rfl)

/-- A byte R60 lists is listed in both modes. -/
theorem decodeDevice_isSome (m m' : DevMode) (b : Byte) :
    (decodeDevice m b).isSome = (decodeDevice m' b).isSome := by
  unfold decodeDevice
  split_ifs <;> cases m <;> cases m' <;> rfl

end Sys2Proof.Machine
end

