-- ==== Sys2Proof/Laws/Paint.lean ====
section
/-! SUPPORT. Drawing a list of points in one colour, said once: what it does to every pixel and every byte. The
rasterizer's procedures are shown to be such a drawing, and their effect follows. -/

namespace Sys2Proof.Machine

/-- `PixelWrite` of one colour on each point of a list, in order. -/
def paintPoints (c : Bool) (points : List (Int × Int)) (fb : Memory) : Memory :=
  points.foldl (fun m p => pixelWrite p.1 p.2 c m) fb

@[simp] theorem paintPoints_nil (c : Bool) (fb : Memory) : paintPoints c [] fb = fb := rfl

@[simp] theorem paintPoints_cons (c : Bool) (p : Int × Int) (ps : List (Int × Int)) (fb : Memory) :
    paintPoints c (p :: ps) fb = paintPoints c ps (pixelWrite p.1 p.2 c fb) := rfl

theorem paintPoints_append (c : Bool) (ps qs : List (Int × Int)) (fb : Memory) :
    paintPoints c (ps ++ qs) fb = paintPoints c qs (paintPoints c ps fb) := by
  simp [paintPoints, List.foldl_append]

theorem paintPoints_wf (c : Bool) (ps : List (Int × Int)) {fb : Memory} (h : Memory.wf fb = true) :
    Memory.wf (paintPoints c ps fb) = true := by
  induction ps generalizing fb with
  | nil => exact h
  | cons p ps ih => exact ih (pixelWrite_wf p.1 p.2 c h)

theorem pixelRead_paintPoints (c : Bool) (ps : List (Int × Int)) {fb : Memory} (h : Memory.wf fb = true)
    {a b : Int} (hp : IsPixel a b) :
    pixelRead (paintPoints c ps fb) a b = if (a, b) ∈ ps then some c else pixelRead fb a b := by
  induction ps generalizing fb with
  | nil => simp
  | cons p ps ih =>
    obtain ⟨x, y⟩ := p
    rw [paintPoints_cons, ih (pixelWrite_wf x y c h), pixelRead_pixelWrite c h hp]
    by_cases hm : (a, b) ∈ ps
    · simp [hm]
    · by_cases he : x = a ∧ y = b
      · simp [he.1, he.2]
      · have : ¬(a = x ∧ b = y) := fun ⟨h₁, h₂⟩ => he ⟨h₁.symm, h₂.symm⟩
        simp [hm, he, this]

theorem fbRead_paintPoints (c : Bool) (ps : List (Int × Int)) (fb : Memory) {i : Nat}
    (h : ∀ p ∈ ps, IsPixel p.1 p.2 → (pixelAddr p.1 p.2).1 ≠ i) : fbRead (paintPoints c ps fb) i = fbRead fb i := by
  induction ps generalizing fb with
  | nil => rfl
  | cons p ps ih =>
    rw [paintPoints_cons, ih _ fun q hq => h q (List.mem_cons_of_mem _ hq)]
    exact fbRead_pixelWrite_other c fb fun hp => (h p (List.mem_cons_self ..) hp).symm

/-- Drawing a list of points paints exactly the points of the list that are pixels. -/
theorem paintPoints_painted (c : Bool) (ps : List (Int × Int)) {fb : Memory} (h : Memory.wf fb = true) :
    Painted (fun a b => (a, b) ∈ ps) c fb (paintPoints c ps fb) := by
  refine ⟨fun x y hp hd => ?_, fun x y hp hd => ?_, fun i hi => fbRead_paintPoints c ps fb fun p hp hx => ?_⟩
  · rw [pixelRead_paintPoints c ps h hp, if_pos hd]
  · rw [pixelRead_paintPoints c ps h hp, if_neg hd]
  · exact hi p.1 p.2 hx hp

end Sys2Proof.Machine
end

