-- ==== Sys2Proof/Laws/Glyph.lean ====
section
/-! SUPPORT. The glyph compositer depends on the font only through the five columns of its glyph, and on the glyph
sequencer's registers not at all. -/

namespace Sys2Proof.Machine

theorem foldl_congr_mem {α β : Type} {f g : β → α → β} {l : List α} (h : ∀ a ∈ l, ∀ b, f b a = g b a) (b : β) :
    l.foldl f b = l.foldl g b := by
  induction l generalizing b with
  | nil => rfl
  | cons a l ih =>
    rw [List.foldl_cons, List.foldl_cons, h a (List.mem_cons_self ..)]
    exact ih (fun a' ha' => h a' (List.mem_cons_of_mem _ ha')) _

/-- Two fonts that agree on a glyph's five columns draw the same cell (spec/42_glyph.md R91). -/
theorem glyphBody_congr (x y : Nat) {f g : Nat → Byte} (h : ∀ i < 5, f i = g i) (c : Bool) (p : GlyphRegs × Memory) :
    glyphBody x y f c p = glyphBody x y g c p := by
  unfold glyphBody
  refine congrArg _ (foldl_congr_mem (fun i hi q => ?_) p)
  rw [h i (List.mem_range.mp hi)]

/-- A glyph that passes both guards is its body; one that fails either changes nothing (R91). -/
theorem glyphDraw_accepted {x y : Nat} {code : Byte} (hf : glyphFits x y = true) (hc : glyphCovered code = true)
    (c : Bool) (p : GlyphRegs × Memory) :
    glyphDraw x y code c p = glyphBody x y (Config.font code.toNat) c p := by
  simp [glyphDraw, hf, hc]

theorem glyphDraw_rejected {x y : Nat} {code : Byte} (h : glyphFits x y = false ∨ glyphCovered code = false)
    (c : Bool) (p : GlyphRegs × Memory) : glyphDraw x y code c p = p := by
  rcases h with h | h <;> simp [glyphDraw, h]

/-- The points of one cell column, top to bottom, and FB after them. -/
theorem glyphColumn_fb (x y gi : Nat) (b : Byte) (c : Bool) (p : GlyphRegs × Memory) :
    (glyphColumn x y gi b c p).2 =
      (List.range 8).foldl
        (fun m gj => pixelWrite ((x + gi : Nat) : Int) ((y + gj : Nat) : Int) (if b.getLsbD gj then c else !c) m)
        p.2 := by
  have step : ∀ (l : List Nat) (q : GlyphRegs × Memory),
      (l.foldl (fun q gj => ({ q.1 with gj := gj },
        pixelWrite ((x + gi : Nat) : Int) ((y + gj : Nat) : Int) (if b.getLsbD gj then c else !c) q.2)) q).2 =
      l.foldl
        (fun m gj => pixelWrite ((x + gi : Nat) : Int) ((y + gj : Nat) : Int) (if b.getLsbD gj then c else !c) m)
        q.2 := by
    intro l
    induction l with
    | nil => intro q; rfl
    | cons a l ih => intro q; simp only [List.foldl_cons, ih]
  exact step _ _

/-- FB after a glyph does not depend on what the glyph sequencer's registers held. -/
theorem glyphBody_fb_regs (x y : Nat) (f : Nat → Byte) (c : Bool) (g g' : GlyphRegs) (fb : Memory) :
    (glyphBody x y f c (g, fb)).2 = (glyphBody x y f c (g', fb)).2 := by
  have cols : ∀ (l : List Nat) (p q : GlyphRegs × Memory), p.2 = q.2 →
      (l.foldl (fun q gi => glyphColumn x y gi (f gi) c ({ q.1 with gbyte := f gi }, q.2)) p).2 =
      (l.foldl (fun q gi => glyphColumn x y gi (f gi) c ({ q.1 with gbyte := f gi }, q.2)) q).2 := by
    intro l
    induction l with
    | nil => intro p q h; exact h
    | cons a l ih =>
      intro p q h
      simp only [List.foldl_cons]
      exact ih _ _ (by rw [glyphColumn_fb, glyphColumn_fb, h])
  unfold glyphBody
  rw [glyphColumn_fb, glyphColumn_fb, cols _ (g, fb) (g', fb) rfl]

theorem glyphDraw_fb_regs (x y : Nat) (code : Byte) (c : Bool) (g g' : GlyphRegs) (fb : Memory) :
    (glyphDraw x y code c (g, fb)).2 = (glyphDraw x y code c (g', fb)).2 := by
  unfold glyphDraw
  split_ifs
  · rfl
  · rfl
  · exact glyphBody_fb_regs x y _ c g g' fb

/-- Every glyph keeps FB in canonical form. -/
theorem glyphColumn_wf (x y gi : Nat) (b : Byte) (c : Bool) {p : GlyphRegs × Memory} (h : Memory.wf p.2 = true) :
    Memory.wf (glyphColumn x y gi b c p).2 = true := by
  rw [glyphColumn_fb]
  generalize p.2 = m at h
  have : ∀ (l : List Nat) (m : Memory), Memory.wf m = true →
      Memory.wf (l.foldl (fun m gj =>
        pixelWrite ((x + gi : Nat) : Int) ((y + gj : Nat) : Int) (if b.getLsbD gj then c else !c) m) m) = true := by
    intro l
    induction l with
    | nil => intro m hm; exact hm
    | cons a l ih => intro m hm; exact ih _ (pixelWrite_wf _ _ _ hm)
  exact this _ m h

theorem glyphDraw_wf (x y : Nat) (code : Byte) (c : Bool) {p : GlyphRegs × Memory} (h : Memory.wf p.2 = true) :
    Memory.wf (glyphDraw x y code c p).2 = true := by
  have cols : ∀ (f : Nat → Byte) (l : List Nat) (p : GlyphRegs × Memory), Memory.wf p.2 = true →
      Memory.wf (l.foldl (fun q gi => glyphColumn x y gi (f gi) c ({ q.1 with gbyte := f gi }, q.2)) p).2 = true := by
    intro f l
    induction l with
    | nil => intro p hp; exact hp
    | cons a l ih => intro p hp; exact ih _ (glyphColumn_wf x y a (f a) c hp)
  unfold glyphDraw
  split_ifs
  · exact h
  · exact h
  · exact glyphColumn_wf x y _ _ c (cols _ _ p h)

end Sys2Proof.Machine
end

