-- ==== Sys2Proof/Laws/PerInstr.lean ====
section
/-! SUPPORT. A statement about every instruction as syntax: its encoding has the length spec/30_encoding.md R51 and R55
give it. -/

namespace Sys2Proof.Laws.EncodedLength

/-- The encoding is as long as R55 says, and never empty. -/
def Statement (i : Instr) : Prop := (encode i).length = i.byteLength ∧ 0 < i.byteLength

theorem clear : Statement .clear := ⟨rfl, Nat.succ_pos _⟩
theorem setPixel (on : Bool) (x y : Byte) : Statement (.setPixel on x y) := ⟨rfl, Nat.succ_pos _⟩
theorem drawLine (c : Bool) (x0 y0 x1 y1 : Byte) : Statement (.drawLine c x0 y0 x1 y1) := ⟨rfl, Nat.succ_pos _⟩
theorem drawRect (c f : Bool) (x y w h : Byte) : Statement (.drawRect c f x y w h) := ⟨rfl, Nat.succ_pos _⟩
theorem clearArea (x y w h : Byte) : Statement (.clearArea x y w h) := ⟨rfl, Nat.succ_pos _⟩
theorem drawChar (c : Bool) (x y code : Byte) : Statement (.drawChar c x y code) := ⟨rfl, Nat.succ_pos _⟩
theorem drawString (c : Bool) (x y : Byte) (text : List Byte) : Statement (.drawString c x y text) := by
  constructor
  · simp only [encode, Instr.byteLength, List.length_cons]; omega
  · simp only [Instr.byteLength]; omega
theorem displayUpdate : Statement .displayUpdate := ⟨rfl, Nat.succ_pos _⟩
theorem devFunctionSetExtended : Statement .devFunctionSetExtended := ⟨rfl, Nat.succ_pos _⟩
theorem devSetVop (level : BitVec 7) : Statement (.devSetVop level) := ⟨rfl, Nat.succ_pos _⟩
theorem devSetBias (bias : BitVec 3) : Statement (.devSetBias bias) := ⟨rfl, Nat.succ_pos _⟩
theorem devFunctionSetBasic : Statement .devFunctionSetBasic := ⟨rfl, Nat.succ_pos _⟩
theorem devDisplayControlNormal : Statement .devDisplayControlNormal := ⟨rfl, Nat.succ_pos _⟩
theorem devSetYPage (page : BitVec 3) : Statement (.devSetYPage page) := ⟨rfl, Nat.succ_pos _⟩
theorem devSetXColumn (col : BitVec 7) : Statement (.devSetXColumn col) := ⟨rfl, Nat.succ_pos _⟩

end Sys2Proof.Laws.EncodedLength
end

