-- ==== Sys2Proof/Laws/Raster.lean ====
section
/-! SUPPORT. The rasterizer's procedures are drawings of lists of points (spec/41_raster.md R80, R83, R84). -/

namespace Sys2Proof.Machine

/-! ## The line procedure -/

/-- The points the loop of `LineDraw` visits in at most `fuel` iterations. -/
def loopPoints : Nat → LineRegs → List (Int × Int)
  | 0, _ => []
  | fuel + 1, r => (r.lx, r.ly) :: if lineAtEnd r then [] else loopPoints fuel (lineAdvance r)

/-- FB after the loop is the drawing of the points it visits. -/
theorem lineLoop_fb (fuel : Nat) (c : Bool) (r : LineRegs) (fb : Memory) :
    (lineLoop fuel c (r, fb)).2 = paintPoints c (loopPoints fuel r) fb := by
  induction fuel generalizing r fb with
  | zero => rfl
  | succ fuel ih =>
    unfold lineLoop loopPoints
    split_ifs
    · rfl
    · rw [ih, paintPoints_cons]

theorem lineDraw_fb (x0 y0 x1 y1 : Int) (c : Bool) (fb : Memory) :
    (lineDraw x0 y0 x1 y1 c fb).2 =
      paintPoints c (loopPoints (lineCount x0 y0 x1 y1) (lineStart x0 y0 x1 y1)) fb :=
  lineLoop_fb _ c _ fb

theorem lineDraw_wf (x0 y0 x1 y1 : Int) (c : Bool) {fb : Memory} (h : Memory.wf fb = true) :
    Memory.wf (lineDraw x0 y0 x1 y1 c fb).2 = true := by
  rw [lineDraw_fb]; exact paintPoints_wf c _ h

/-- An advance is an advance of the loop's registers: one more iteration after `k` of them. -/
theorem lineAfter_succ (x0 y0 x1 y1 : Int) (k : Nat) :
    lineAfter x0 y0 x1 y1 (k + 1) = lineAdvance (lineAfter x0 y0 x1 y1 k) := rfl

/-- The end point, the deltas and the directions stay as they are loaded. -/
theorem lineAdvance_fixed (r : LineRegs) :
    (lineAdvance r).lx1 = r.lx1 ∧ (lineAdvance r).ly1 = r.ly1 ∧ (lineAdvance r).dx = r.dx ∧
      (lineAdvance r).dy = r.dy ∧ (lineAdvance r).sx = r.sx ∧ (lineAdvance r).sy = r.sy := by
  unfold lineAdvance lineStepY lineStepX
  split_ifs <;> simp

theorem lineAfter_fixed (x0 y0 x1 y1 : Int) (k : Nat) :
    (lineAfter x0 y0 x1 y1 k).lx1 = x1 ∧ (lineAfter x0 y0 x1 y1 k).ly1 = y1 ∧
      (lineAfter x0 y0 x1 y1 k).dx = ((x1 - x0).natAbs : Int) ∧
        (lineAfter x0 y0 x1 y1 k).dy = ((y1 - y0).natAbs : Int) ∧
          (lineAfter x0 y0 x1 y1 k).sx = (if x0 < x1 then 1 else -1) ∧
            (lineAfter x0 y0 x1 y1 k).sy = (if y0 < y1 then 1 else -1) := by
  induction k with
  | zero => exact ⟨rfl, rfl, rfl, rfl, rfl, rfl⟩
  | succ k ih =>
    obtain ⟨h₁, h₂, h₃, h₄, h₅, h₆⟩ := lineAdvance_fixed (lineAfter x0 y0 x1 y1 k)
    obtain ⟨i₁, i₂, i₃, i₄, i₅, i₆⟩ := ih
    rw [lineAfter_succ]
    exact ⟨h₁.trans i₁, h₂.trans i₂, h₃.trans i₃, h₄.trans i₄, h₅.trans i₅, h₆.trans i₆⟩

/-! ## The rectangle procedures -/

theorem rectColumn_spec (y : Int) (h : Nat) (c : Bool) (p : RectRegs × Memory) :
    (rectColumn y h c p).2 =
        paintPoints c ((List.range h).map fun (j : Nat) => (p.1.ri, y + (j : Int))) p.2 ∧
      (rectColumn y h c p).1.ri = p.1.ri := by
  have : ∀ (l : List Nat) (q : RectRegs × Memory),
      (l.foldl (fun q (j : Nat) => ({ q.1 with rj := y + (j : Int) }, pixelWrite q.1.ri (y + (j : Int)) c q.2)) q).2 =
          paintPoints c (l.map fun (j : Nat) => (q.1.ri, y + (j : Int))) q.2 ∧
        (l.foldl (fun q (j : Nat) => ({ q.1 with rj := y + (j : Int) }, pixelWrite q.1.ri (y + (j : Int)) c q.2)) q).1.ri =
          q.1.ri := by
    intro l
    induction l with
    | nil => intro q; exact ⟨rfl, rfl⟩
    | cons a l ih =>
      intro q
      simp only [List.foldl_cons, List.map_cons, paintPoints_cons]
      exact ih _
  exact this _ p

/-- The points of `RectFill` in its order: columns outside, rows inside (R83). -/
def fillPoints (x y : Int) (w h : Nat) : List (Int × Int) :=
  (List.range w).flatMap fun (i : Nat) => (List.range h).map fun (j : Nat) => (x + (i : Int), y + (j : Int))

theorem rectFill_fb (x y : Int) (w h : Nat) (c : Bool) (p : RectRegs × Memory) :
    (rectFill x y w h c p).2 = paintPoints c (fillPoints x y w h) p.2 := by
  have : ∀ (l : List Nat) (q : RectRegs × Memory),
      (l.foldl (fun q (i : Nat) => rectColumn y h c ({ q.1 with ri := x + (i : Int) }, q.2)) q).2 =
        paintPoints c (l.flatMap fun (i : Nat) => (List.range h).map fun (j : Nat) => (x + (i : Int), y + (j : Int))) q.2 := by
    intro l
    induction l with
    | nil => intro q; rfl
    | cons a l ih =>
      intro q
      rw [List.foldl_cons, ih, (rectColumn_spec y h c _).1, List.flatMap_cons, paintPoints_append]
  exact this _ _

theorem mem_fillPoints (x y : Int) (w h : Nat) (a b : Int) :
    (a, b) ∈ fillPoints x y w h ↔ FillPoint x y w h a b := by
  simp only [fillPoints, List.mem_flatMap, List.mem_map, List.mem_range, Prod.mk.injEq, FillPoint]
  constructor
  · rintro ⟨i, hi, j, hj, rfl, rfl⟩
    omega
  · rintro ⟨h₁, h₂, h₃, h₄⟩
    exact ⟨(a - x).toNat, by omega, (b - y).toNat, by omega, by omega, by omega⟩

/-- The four segments of `RectOutline`, one after another (R84). -/
theorem rectOutline_fb (x y : Int) (w h : Nat) (c : Bool) (p : RectRegs × LineRegs × Memory) :
    (rectOutline x y w h c p).2.2 =
      (lineDraw (x + w - 1) y (x + w - 1) (y + h - 1) c
        (lineDraw x y x (y + h - 1) c
          (lineDraw x (y + h - 1) (x + w - 1) (y + h - 1) c
            (lineDraw x y (x + w - 1) y c p.2.2).2).2).2).2 := rfl

theorem rectOutline_wf (x y : Int) (w h : Nat) (c : Bool) {p : RectRegs × LineRegs × Memory}
    (hp : Memory.wf p.2.2 = true) : Memory.wf (rectOutline x y w h c p).2.2 = true := by
  rw [rectOutline_fb]
  exact lineDraw_wf _ _ _ _ c (lineDraw_wf _ _ _ _ c (lineDraw_wf _ _ _ _ c (lineDraw_wf _ _ _ _ c hp)))

theorem rectFill_wf (x y : Int) (w h : Nat) (c : Bool) {p : RectRegs × Memory} (hp : Memory.wf p.2 = true) :
    Memory.wf (rectFill x y w h c p).2 = true := by
  rw [rectFill_fb]; exact paintPoints_wf c _ hp

/-! ## CLEAR -/

/-- The byte writes of CLEAR keep the canonical form, and every index below 504 then reads 0x00 (spec/40_bitaddr.md R74). -/
theorem clearBytes_wf {fb : Memory} (h : Memory.wf fb = true) : Memory.wf (clearBytes fb) = true := by
  have : ∀ (l : List Nat) (m : Memory), (∀ i ∈ l, i < 504) → Memory.wf m = true →
      Memory.wf (l.foldl (fun m i => fbWrite m i 0) m) = true := by
    intro l
    induction l with
    | nil => intro m _ hm; exact hm
    | cons a l ih =>
      intro m hl hm
      exact ih _ (fun i hi => hl i (List.mem_cons_of_mem _ hi)) (fbWrite_wf 0 (hl a (List.mem_cons_self ..)) hm)
  exact this _ fb (fun i hi => List.mem_range.mp hi) h

end Sys2Proof.Machine
end

