-- ==== Sys2Proof/Laws/Step.lean ====
section
/-! SUPPORT. What a step can do, said once: the inversion of step, of taking command bytes and of the host's moves. -/

namespace Sys2Proof.Machine

/-- A move of the host on another wire: reset, more TX credit, or a listed byte to the device. -/
theorem hostMove_cases {m : HostMove} {s t : State} (hm : ∀ b, m ≠ .cmd b) (h : hostMove m s = .next t) :
    (m = .rst ∧ t = resetEngine s) ∨
      (∃ n, m = .txReady n ∧ t = { s with txCredit := s.txCredit.map (· + n) }) ∨
        ∃ b i, m = .dev b ∧ decodeDevice s.device.mode b = some i ∧ exec i s = .next t := by
  cases m with
  | cmd b => exact absurd rfl (hm b)
  | dev b =>
    simp only [hostMove] at h
    split at h
    · rename_i i hi; exact .inr (.inr ⟨b, i, rfl, hi, h⟩)
    · cases h
  | rst => exact .inl ⟨rfl, (Host.Outcome.next.inj h).symm⟩
  | txReady n => exact .inr (.inl ⟨n, rfl, (Host.Outcome.next.inj h).symm⟩)

/-- Taking command bytes: a whole command runs, an illegal opcode byte raises the fault, or the command waits. -/
theorem takeCommand_cases {s t : State} (h : takeCommand s = .next t) :
    (∃ i rest, decodeCommand (takenBefore s ++ cmdOffered s.moves) = .ok i rest ∧
        exec i (dispatched
          ((takenBefore s ++ cmdOffered s.moves).take
            ((takenBefore s ++ cmdOffered s.moves).length - rest.length))
          ((takenBefore s ++ cmdOffered s.moves).length - rest.length - (takenBefore s).length) s) = .next t) ∨
      (∃ op, decodeCommand (takenBefore s ++ cmdOffered s.moves) = .illegalOpcode op ∧
        t = raiseFault { s with moves := s.moves.drop 1 }) ∨
        (decodeCommand (takenBefore s ++ cmdOffered s.moves) = .truncated ∧
          t = awaitBytes (takenBefore s ++ cmdOffered s.moves) (cmdOffered s.moves).length s) := by
  simp only [takeCommand] at h
  split at h
  · rename_i i rest hd; exact .inl ⟨i, rest, hd, h⟩
  · rename_i op hd; exact .inr (.inl ⟨op, hd, (Host.Outcome.next.inj h).symm⟩)
  · rename_i hd
    refine .inr (.inr ⟨hd, ?_⟩)
    rw [← Host.Outcome.next.inj h, List.length_append, Nat.add_sub_cancel_left]

theorem otherMove_of_ready {s t : State} (h : stepReady s = .next t) (hc : ∀ b ms, s.moves ≠ .cmd b :: ms)
    (hn : s.moves ≠ []) :
    ∃ m ms, otherMove s.moves = some (m, ms) ∧ hostMove m { s with moves := ms } = .next t := by
  unfold stepReady at h
  split at h
  · rename_i hm; exact absurd hm hn
  · rename_i b ms hm; exact absurd hm (hc b ms)
  · rename_i b ms hm; exact ⟨.dev b, ms, by rw [hm]; rfl, h⟩
  · rename_i ms hm; exact ⟨.rst, ms, by rw [hm]; rfl, h⟩
  · rename_i n ms hm; exact ⟨.txReady n, ms, by rw [hm]; rfl, h⟩

/-- What a step that answers a next state did: it went on with a stalled update, idled, took characters of a string in
progress, took command bytes, or let the host act on another wire. -/
theorem step_cases {s t : State} (h : step s = .next t) :
    (∃ e, s.tx = some e ∧ s.fault = false ∧ txBlocked s = false ∧ rstAsserted s.moves = false ∧
        t = resumeUpdate e s) ∨
      (s.tx = none ∧ cmdReady s = true ∧ s.moves = [] ∧ s.seq = .idle ∧ t = s) ∨
        (s.tx = none ∧ cmdReady s = true ∧ s.seq = .exec ∧ (∃ b ms, s.moves = .cmd b :: ms) ∧ t = resumeText s) ∨
          (s.tx = none ∧ cmdReady s = true ∧ s.seq ≠ .exec ∧ (∃ b ms, s.moves = .cmd b :: ms) ∧
            takeCommand s = .next t) ∨
            ∃ m ms, otherMove s.moves = some (m, ms) ∧ hostMove m { s with moves := ms } = .next t := by
  have held : stepHeld s = .next t →
      ∃ m ms, otherMove s.moves = some (m, ms) ∧ hostMove m { s with moves := ms } = .next t := by
    intro hh
    unfold stepHeld at hh
    split at hh
    · rename_i m ms hm; exact ⟨m, ms, hm, hh⟩
    · split at hh <;> cases hh
  unfold step sequence at h
  split at h
  · rename_i e he
    split at h
    · exact .inr (.inr (.inr (.inr (held h))))
    · rename_i hb
      simp only [Bool.or_eq_true, not_or, Bool.not_eq_true] at hb
      exact .inl ⟨e, he, hb.1.1, hb.1.2, hb.2, (Host.Outcome.next.inj h).symm⟩
  · rename_i he
    split at h
    · rename_i hr
      by_cases hn : s.moves = []
      · simp only [stepReady, hn] at h
        split at h
        · rename_i hi; exact .inr (.inl ⟨he, hr, hn, hi, (Host.Outcome.next.inj h).symm⟩)
        · cases h
      · by_cases hc : ∃ b ms, s.moves = .cmd b :: ms
        · obtain ⟨b, ms, hm⟩ := hc
          simp only [stepReady, hm] at h
          split at h
          · rename_i hx
            exact .inr (.inr (.inl ⟨he, hr, hx, ⟨b, ms, hm⟩, (Host.Outcome.next.inj h).symm⟩))
          · rename_i hx; exact .inr (.inr (.inr (.inl ⟨he, hr, hx, ⟨b, ms, hm⟩, h⟩)))
        · exact .inr (.inr (.inr (.inr (otherMove_of_ready h (fun b ms hm => hc ⟨b, ms, hm⟩) hn))))
    · exact .inr (.inr (.inr (.inr (held h))))

/-! ## The priority of reset -/

@[simp] theorem rstAsserted_nil : rstAsserted [] = false := rfl
@[simp] theorem rstAsserted_cmd (b : Byte) (ms : List HostMove) : rstAsserted (.cmd b :: ms) = false := rfl
@[simp] theorem rstAsserted_dev (b : Byte) (ms : List HostMove) : rstAsserted (.dev b :: ms) = false := rfl
@[simp] theorem rstAsserted_txReady (n : Nat) (ms : List HostMove) : rstAsserted (.txReady n :: ms) = false := rfl
@[simp] theorem rstAsserted_rst (ms : List HostMove) : rstAsserted (.rst :: ms) = true := rfl

/-- An asserted reset is the next step of every state (spec/60_exceptions.md R115). -/
theorem step_of_rst {s : State} {ms : List HostMove} (h : s.moves = .rst :: ms) :
    step s = .next (resetEngine { s with moves := ms }) := by
  have held : stepHeld s = .next (resetEngine { s with moves := ms }) := by
    simp only [stepHeld, h, otherMove, hostMove]
  unfold step sequence
  split
  · rw [if_pos (by simp [h])]; exact held
  · split
    · simp only [stepReady, h, hostMove]
    · exact held

/-! ## Runs and launch premises -/

/-- A state after reset is a clean entry (spec/70_reset_and_hazards.md R145). -/
theorem cleanEntry_of_afterReset {s : State} (h : AfterReset s) : CleanEntry s := ⟨h.2.2.1, h.2.1, h.2.2.2.2⟩

/-- Asserting reset leaves such a state, whatever was going on. -/
theorem afterReset_resetEngine (s : State) : AfterReset (resetEngine s) := ⟨rfl, rfl, rfl, rfl, rfl⟩

/-- The bytes a run has still to take: those before the host's next reset. -/
@[simp] theorem runBytes_nil : runBytes [] = [] := rfl
@[simp] theorem runBytes_cmd (b : Byte) (ms : List HostMove) : runBytes (.cmd b :: ms) = b :: runBytes ms := rfl
@[simp] theorem runBytes_dev (b : Byte) (ms : List HostMove) : runBytes (.dev b :: ms) = runBytes ms := rfl
@[simp] theorem runBytes_txReady (n : Nat) (ms : List HostMove) : runBytes (.txReady n :: ms) = runBytes ms := rfl
@[simp] theorem runBytes_rst (ms : List HostMove) : runBytes (.rst :: ms) = [] := rfl

theorem runBytes_cmds (bs : List Byte) (ms : List HostMove) : runBytes (bs.map .cmd ++ ms) = bs ++ runBytes ms := by
  induction bs with
  | nil => rfl
  | cons b bs ih => rw [List.map_cons, List.cons_append, runBytes_cmd, ih, List.cons_append]

theorem runBytes_devs (bs : List Byte) (ms : List HostMove) : runBytes (bs.map .dev ++ ms) = runBytes ms := by
  induction bs with
  | nil => rfl
  | cons b bs ih => rw [List.map_cons, List.cons_append, runBytes_dev, ih]

/-- A host that delivers a program and does nothing else completes its commands of the stream. -/
theorem hostCompletes_of_hostDelivers {program : List Instr} {s : State} (h : HostDelivers program s) :
    HostCompletes (program.filter fun i => decide (i.space = .command)) s := by
  obtain ⟨hw, hm⟩ := h
  refine ⟨fun i hi => ?_, ?_⟩
  · obtain ⟨hi, hc⟩ := List.mem_filter.mp hi
    exact ⟨of_decide_eq_true hc, hw i hi (of_decide_eq_true hc)⟩
  · rw [hm]
    clear hw hm
    induction program with
    | nil => rfl
    | cons i is ih =>
      cases hi : i.space <;> simp [deliver, hi, runBytes_cmds, runBytes_devs, ih]

/-- Whether R60 lists a byte does not depend on the device's mode. -/
theorem decodeDevice_listed (m m' : DevMode) {b : Byte} (h : decodeDevice m b ≠ none) : decodeDevice m' b ≠ none := by
  unfold decodeDevice at h ⊢
  split_ifs at h ⊢ <;> first | exact h | (cases m' <;> simp)

/-- A clean state with nothing more to come from the host is the end of a run. -/
theorem runEnded_of_moves_nil {s : State} (hm : s.moves = []) (hs : CleanEntry s) : RunEnded s :=
  ⟨by rw [hm]; rfl, hs⟩

/-- FAULTED is no normal end of a run (spec/70_reset_and_hazards.md R143). -/
theorem not_runEnded_of_fault {s : State} (h : s.fault = true) : ¬RunEnded s :=
  fun hr => Bool.false_ne_true (hr.2.2.1.symm.trans h)

end Sys2Proof.Machine
end

