-- ==== Sys2Proof/Laws/Text.lean ====
section
/-! SUPPORT. The text layout (spec/42_glyph.md R93, R94): characters taken in parts are characters taken at once, each
costs one of NLEFT, and FB keeps its canonical form. -/

namespace Sys2Proof.Machine

theorem textRun_append (c : Bool) (a b : List Byte) (p : TextRegs × GlyphRegs × Memory) :
    textRun c (a ++ b) p = textRun c b (textRun c a p) := by
  simp [textRun, List.foldl_append]

@[simp] theorem textRun_nil (c : Bool) (p : TextRegs × GlyphRegs × Memory) : textRun c [] p = p := rfl

@[simp] theorem textRun_cons (c : Bool) (ch : Byte) (chars : List Byte) (p : TextRegs × GlyphRegs × Memory) :
    textRun c (ch :: chars) p = textRun c chars (textChar c p ch) := rfl

theorem textAdvance_nleft (t : TextRegs) : (textAdvance t).nleft = t.nleft := by
  unfold textAdvance; split_ifs <;> rfl

theorem textChar_nleft (c : Bool) (p : TextRegs × GlyphRegs × Memory) (ch : Byte) :
    (textChar c p ch).1.nleft = p.1.nleft - 1 := by
  unfold textChar
  split_ifs
  · rfl
  · exact textAdvance_nleft _

/-- Every character taken, laid out or discarded, lowers NLEFT by one (R94). -/
theorem textRun_nleft (c : Bool) (chars : List Byte) (p : TextRegs × GlyphRegs × Memory) :
    (textRun c chars p).1.nleft = p.1.nleft - chars.length := by
  induction chars generalizing p with
  | nil => simp
  | cons ch chars ih => rw [textRun_cons, ih, textChar_nleft, List.length_cons]; omega

theorem textChar_wf (c : Bool) (ch : Byte) {p : TextRegs × GlyphRegs × Memory} (h : Memory.wf p.2.2 = true) :
    Memory.wf (textChar c p ch).2.2 = true := by
  unfold textChar
  split_ifs
  · exact h
  · exact glyphDraw_wf _ _ ch c h

theorem textRun_wf (c : Bool) (chars : List Byte) {p : TextRegs × GlyphRegs × Memory}
    (h : Memory.wf p.2.2 = true) : Memory.wf (textRun c chars p).2.2 = true := by
  induction chars generalizing p with
  | nil => exact h
  | cons ch chars ih => exact ih (textChar_wf c ch h)

/-- A layout that has stopped draws nothing more (R93, R94). -/
theorem textRun_stopped (c : Bool) (chars : List Byte) (p : TextRegs × GlyphRegs × Memory)
    (h : p.1.stopped = true) : (textRun c chars p).2 = p.2 := by
  induction chars generalizing p with
  | nil => rfl
  | cons ch chars ih =>
    have hc : textChar c p ch = ({ p.1 with nleft := p.1.nleft - 1 }, p.2) := by simp [textChar, h]
    rw [textRun_cons, ih _ (by rw [hc]; exact h), hc]

end Sys2Proof.Machine
end

