-- ==== Sys2Proof/Tests/Slice0.lean ====
section
/-! SUPPORT. Tests. The expected values are the spec's own: the encodings of spec/30_encoding.md R54 and R60 written out
bit by bit, and the vectors of spec/95_test_vectors.md; and a witness for the hypotheses of every statement. -/

namespace Sys2Proof.Tests

open Sys2Proof.Machine

/-! ## WellFormed refuses -/

theorem test_wf_refuses_long_string : (Instr.drawString true 0 0 (List.replicate 256 0x41)).wf = false := by decide +kernel
theorem test_wf_takes_longest_string : (Instr.drawString true 0 0 (List.replicate 255 0x41)).wf = true := by decide +kernel
theorem test_wf_refuses_page_6 : (Instr.devSetYPage 6).wf = false := by decide
theorem test_wf_refuses_column_84 : (Instr.devSetXColumn 84).wf = false := by decide

/-! ## Decoding: words written from R54, R58, R60 and the rules' examples -/

theorem test_decode_clear : decodeCommand [0b00010000] = .ok .clear [] := by decide
theorem test_decode_setPixel : decodeCommand [0b00100001, 0x0A, 0x14] = .ok (.setPixel true 10 20) [] := by decide
theorem test_decode_drawLine :
    decodeCommand [0b00110001, 0x00, 0x00, 0x05, 0x02] = .ok (.drawLine true 0 0 5 2) [] := by decide
theorem test_decode_drawRect_filled :
    decodeCommand [0b01000010, 0x05, 0x05, 0x14, 0x0F] = .ok (.drawRect false true 5 5 20 15) [] := by decide
theorem test_decode_drawRect_outline :
    decodeCommand [0b01000001, 0x05, 0x05, 0x14, 0x0F] = .ok (.drawRect true false 5 5 20 15) [] := by decide
theorem test_decode_clearArea :
    decodeCommand [0b01010000, 0x04, 0x07, 0x01, 0x02] = .ok (.clearArea 4 7 1 2) [] := by decide
theorem test_decode_drawChar : decodeCommand [0b01100000, 0x4E, 0x28, 0x41] = .ok (.drawChar false 78 40 0x41) [] := by
  decide
theorem test_decode_drawString :
    decodeCommand [0b01110001, 0x00, 0x00, 0x02, 0x41, 0x42, 0x10] = .ok (.drawString true 0 0 [0x41, 0x42]) [0x10] := by
  decide
theorem test_decode_empty_string : decodeCommand [0x71, 0x00, 0x00, 0x00] = .ok (.drawString true 0 0 []) [] := by decide
theorem test_decode_displayUpdate : decodeCommand [0b10000000] = .ok .displayUpdate [] := by decide
theorem test_decode_devFunctionSetExtended : decodeDevice .basic 0b00100001 = some .devFunctionSetExtended := by decide
theorem test_decode_devSetVop : decodeDevice .extended 0b10111111 = some (.devSetVop 0x3F) := by decide
theorem test_decode_devSetBias : decodeDevice .extended 0b00010100 = some (.devSetBias 4) := by decide
theorem test_decode_devFunctionSetBasic : decodeDevice .extended 0b00100000 = some .devFunctionSetBasic := by decide
theorem test_decode_devDisplayControlNormal :
    decodeDevice .basic 0b00001100 = some .devDisplayControlNormal := by decide
theorem test_decode_devSetYPage : decodeDevice .basic 0b01000101 = some (.devSetYPage 5) := by decide
theorem test_decode_devSetXColumn : decodeDevice .basic 0b11010011 = some (.devSetXColumn 83) := by decide

/-- Vectors E1 to E6: illegal opcode bytes. -/
theorem test_decode_illegal :
    [0x00, 0x11, 0x23, 0x44, 0x81, 0xFF, 0x90].map (fun b => opcodeOf b) = List.replicate 7 none := by decide
/-- Vector E8: 0x90 as an operand is no fault. -/
theorem test_decode_operand_90 : decodeCommand [0x21, 0x90, 0x90] = .ok (.setPixel true 144 144) [] := by decide
theorem test_decode_truncated : decodeCommand [0x71, 0x00, 0x00, 0x02, 0x41] = .truncated := by decide
/-- No two rows of the opcode map select one byte. -/
theorem test_opcode_rows_disjoint :
    opcodeRows.Pairwise fun r q => (r.pattern &&& q.mask &&& r.mask) ≠ (q.pattern &&& r.mask &&& q.mask) := by decide

theorem test_encode_drawString : encode (.drawString true 0 0 [0x41]) = [0x71, 0x00, 0x00, 0x01, 0x41] := by decide
theorem test_tableWord : decodeTableWord 24 0x140A21 = some (.setPixel true 10 20) := by decide +kernel
theorem test_tableWord_device : decodeTableWord 8 0x0C = some .devDisplayControlNormal := by decide +kernel

/-! ## The commands: the vectors of spec/95_test_vectors.md -/

/-- FB after a command that answers a next state. -/
def fbAfter (o : Host.Outcome State Fault Refusal) : Option Memory :=
  match o with
  | .next t => some t.fb
  | .fault _ => none
  | .refused _ => none

/-- The reset state with this FB. -/
def withFb (fb : Memory) : State := { State.reset with fb := fb }

/-- V4. -/
theorem test_setPixel_clears_one_bit : fbAfter (exec (.setPixel false 10 20) (withFb [(178, 0x31)])) = some [(178, 0x21)] := by
  decide
/-- V9, V6. -/
theorem test_setPixel_last_pixel :
    fbAfter (exec (.setPixel true 83 47) State.reset) = some [(503, 0x80)] ∧
      fbAfter (exec (.setPixel true 84 0) State.reset) = some [] := by decide
/-- V12. -/
theorem test_clear_blanks : fbAfter (exec .clear (withFb [(0, 0x80), (178, 0x21), (503, 0x80)])) = some [] := by decide +kernel
/-- L9, L10: direction matters. -/
theorem test_drawLine_direction :
    fbAfter (exec (.drawLine true 7 7 6 5) State.reset) = some [(6, 0x20), (7, 0xC0)] ∧
      fbAfter (exec (.drawLine true 6 5 7 7) State.reset) = some [(6, 0x60), (7, 0x80)] := by decide
/-- L11. -/
theorem test_drawLine_clipped :
    fbAfter (exec (.drawLine true 80 45 90 50) State.reset) =
      some [(500, 0x20), (501, 0x20), (502, 0x40), (503, 0x40)] := by decide +kernel
/-- Q1, Q13. -/
theorem test_drawRect_filled :
    fbAfter (exec (.drawRect true true 3 6 2 4) State.reset) = some [(3, 0xC0), (4, 0xC0), (87, 0x03), (88, 0x03)] ∧
      fbAfter (exec (.drawRect true true 5 5 0 3) State.reset) = some [] := by decide
/-- Q16, Q21: outlines of size 0. -/
theorem test_drawRect_outline_size_0 :
    fbAfter (exec (.drawRect true false 5 5 0 3) State.reset) = some [(4, 0xE0), (5, 0xE0)] ∧
      fbAfter (exec (.drawRect true false 3 0 3 0) State.reset) = some [(3, 0x01), (4, 0x01), (5, 0x01)] := by decide +kernel
/-- Q2. -/
theorem test_clearArea :
    fbAfter (exec (.clearArea 4 7 1 2) (withFb [(3, 0xC0), (4, 0xC0), (87, 0x03), (88, 0x03)])) =
      some [(3, 0xC0), (4, 0x40), (87, 0x03), (88, 0x02)] := by decide
/-- G8, G10: a rejected origin and a code below 0x20. -/
theorem test_drawChar_rejected :
    fbAfter (exec (.drawChar true 79 40 0x41) (withFb [(0, 0xFF)])) = some [(0, 0xFF)] ∧
      fbAfter (exec (.drawChar true 0 0 0x1F) (withFb [(0, 0xFF)])) = some [(0, 0xFF)] := by decide +kernel

/-- The fixture font's `'A'`. -/
def fixtureA (col : Nat) : Byte := [0x7E, 0x11, 0x11, 0x11, 0x7E].getD col 0

/-- The cell of G6, and of G2 (colour 0). -/
theorem test_glyphBody_fixture :
    (glyphBody 10 3 fixtureA true (Work.reset.glyph, [])).2 =
        [(10, 0xF0), (11, 0x88), (12, 0x88), (13, 0x88), (14, 0xF0), (94, 0x03), (98, 0x03)] ∧
      (glyphBody 0 0 fixtureA false (Work.reset.glyph, [])).2 =
        [(0, 0x81), (1, 0xEE), (2, 0xEE), (3, 0xEE), (4, 0x81), (5, 0xFF)] := by decide +kernel

/-- G6 of the command, for every font that has the fixture's `'A'`. -/
theorem test_drawChar_fixture (hf : FontIs (fun _ => fixtureA) [0x41]) (hl : FontLast 0x7E) :
    fbAfter (exec (.drawChar true 10 3 0x41) State.reset) =
      some [(10, 0xF0), (11, 0x88), (12, 0x88), (13, 0x88), (14, 0xF0), (94, 0x03), (98, 0x03)] := by
  have hc : glyphCovered 0x41 = true := by
    have : Config.fontLast = 0x7E := hl
    simp [glyphCovered, this]
  have hg : glyphDraw 10 3 0x41 true (Work.reset.glyph, []) = glyphBody 10 3 fixtureA true (Work.reset.glyph, []) := by
    rw [glyphDraw_accepted (by decide) hc]
    exact glyphBody_congr 10 3 (fun i hi => hf 0x41 (by simp) i hi) true _
  show some (glyphDraw 10 3 0x41 true (Work.reset.glyph, [])).2 = _
  rw [hg, test_glyphBody_fixture.1]

/-- T1, T6: the empty string, and a string of which every glyph is rejected. -/
theorem test_drawString_draws_nothing :
    fbAfter (exec (.drawString true 0 0 []) (withFb [(0, 0x7E)])) = some [(0, 0x7E)] ∧
      fbAfter (exec (.drawString true 79 0 (List.replicate 10 0x41)) State.reset) = some [] := by decide +kernel
/-- R95 item 4: the 14th character is attempted at (78, y), the 15th at (0, y + 8). -/
theorem test_text_cursor_wraps :
    ((List.replicate 13 ()).foldl (fun t _ => textAdvance t) (textStart 0 0 15 Work.reset.text)).cx = 78 ∧
      ((List.replicate 14 ()).foldl (fun t _ => textAdvance t) (textStart 0 0 15 Work.reset.text)).cx = 0 ∧
        ((List.replicate 14 ()).foldl (fun t _ => textAdvance t) (textStart 0 0 15 Work.reset.text)).cy = 8 := by decide

/-- X2: the first events of an update. -/
theorem test_displayUpdate_events :
    (updateEvents [(0, 0x7E), (1, 0x11)]).take 5 =
      [⟨false, 0x40⟩, ⟨false, 0x80⟩, ⟨true, 0x7E⟩, ⟨true, 0x11⟩, ⟨true, 0x00⟩] := by decide +kernel
/-- X1: 506 events from reset, whatever is drawn. -/
theorem test_displayUpdate_trace (s : State) (h : TxLive s) : (txRun (updateEvents s.fb) s).trace = s.trace ++ updateEvents s.fb :=
  (txRun_live _ s h).1

/-- The device after a command byte. -/
def deviceAfter (o : Host.Outcome State Fault Refusal) : Option Device :=
  match o with
  | .next t => some t.device
  | .fault _ => none
  | .refused _ => none

/-- R60, R132: the byte 0xBF is contrast level 0x3F in extended mode and column 0x3F in basic mode. -/
theorem test_device_vop_and_column :
    (deviceAfter (exec (.devSetVop 0x3F) { State.reset with device := { Device.reset with mode := .extended } })).map
        (fun d => (d.vop, d.col)) = some (0x3F, 0) ∧
      (deviceAfter (exec (.devSetXColumn 0x3F) State.reset)).map (fun d => (d.vop, d.col)) = some (0, 0x3F) := by decide
theorem test_device_page : (deviceAfter (exec (.devSetYPage 5) State.reset)).map (·.page) = some 5 := by decide
/-- R103: the address steps to the next page after column 83. -/
theorem test_device_data_steps_page :
    deviceData 0xA5 { Device.reset with page := 1, col := 83 } =
      { Device.reset with page := 2, col := 0, ram := [(167, 0xA5)] } := by decide

/-! ## Steps -/

/-- The reset state with these moves of the host. -/
def offering (ms : List HostMove) : State := { State.reset with moves := ms }

/-- FAULT, SEQ, BUSY, FB and how many moves of the host are left. -/
structure Seen where
  fault : Bool
  seq : Seq
  busy : Bool
  fb : Memory
  left : Nat
  deriving DecidableEq, Repr

/-- What a step leaves of the flags and FB. -/
def flagsAfter (o : Host.Outcome State Fault Refusal) : Option Seen :=
  match o with
  | .next t => some ⟨t.fault, t.seq, busy t, t.fb, t.moves.length⟩
  | .fault _ => none
  | .refused _ => none

/-- E3: SET_PIXEL with the filled flag set; the bytes after it are not taken. -/
theorem test_step_illegal_opcode :
    flagsAfter (step (offering [.cmd 0x23, .cmd 2, .cmd 2])) = some ⟨true, .faulted, false, [], 2⟩ := by decide
/-- E7's first command. -/
theorem test_step_runs_command :
    flagsAfter (step (offering [.cmd 0x21, .cmd 0, .cmd 0, .cmd 0xFF])) = some ⟨false, .idle, false, [(0, 0x01)], 1⟩ := by
  decide
/-- R61: a command cut short, and its end when the rest comes. -/
theorem test_step_waits :
    flagsAfter (step (offering [.cmd 0x21, .cmd 0])) = some ⟨false, .operands, true, [], 0⟩ := by decide
/-- Program 3: after the fault nothing is taken. -/
theorem test_step_faulted : step (raiseFault (offering [.cmd 0x21])) = .fault .engineFaulted := rfl
theorem test_step_idle : step State.reset = .next State.reset := rfl
theorem test_step_reset :
    flagsAfter (step (raiseFault (offering [.cmd 0x21, .rst]))) = some ⟨false, .idle, false, [], 1⟩ := by decide
theorem test_withFetchWord :
    flagsAfter (step (State.reset.withFetchWord 24 0x140A21)) = some ⟨false, .idle, false, [(178, 0x10)], 0⟩ := by decide +kernel
/-- R75: the debug port. -/
theorem test_debugRead :
    debugRead (withFb [(178, 0x10)]) 10 20 = some ⟨true, some true, some 0x10⟩ ∧
      debugRead (withFb [(178, 0x10)]) 84 0 = some ⟨false, none, none⟩ := by decide

/-! ## Witnesses: the hypotheses of every statement are met -/

theorem witness_reset : State.reset.fault = false ∧ Memory.wf State.reset.fb = true ∧ CleanEntry State.reset ∧
    TxLive State.reset ∧ Inv State.reset ∧ AfterReset State.reset := by
  refine ⟨rfl, rfl, ⟨rfl, rfl, rfl⟩, rfl, rfl, rfl, rfl, rfl, rfl, rfl⟩
/-- AddrIsABijection, PixelWriteChangesOneBit, StraightLinesAreExact: the first and the last pixel, and one outside. -/
theorem witness_pixels : IsPixel 0 0 ∧ IsPixel 83 47 ∧ ¬IsPixel 84 0 ∧ ¬IsPixel (-1) 0 ∧ ¬IsPixel 0 48 ∧
    (503 < 504 ∧ 7 < 8) ∧ ((0 : Int) ≠ 1 ∨ (0 : Int) ≠ 0) := by
  simp [IsPixel]
/-- SetPixelWritesItsPixel, DebugPortShowsThePixel: both clauses at their boundary. -/
theorem witness_setPixel : (83#8).toNat < 84 ∧ (47#8).toNat < 48 ∧ 84 ≤ (84#8).toNat ∧ 48 ≤ (48#8).toNat := by decide
/-- The line statements: a line of more than one point, its last iteration, and horizontal, vertical and diagonal ones. -/
theorem witness_line : 7 < lineCount 0 0 7 1 ∧ 0 + 1 < lineCount 0 0 7 1 ∧ 255 < lineCount (zext 0) (zext 0) (zext 255) (zext 255) ∧
    ((7 : Int) - 0).natAbs = ((7 : Int) - 0).natAbs ∧ ((1 : Int) - 0).natAbs ≤ ((7 : Int) - 0).natAbs ∧
      ((1 : Int) - 0).natAbs < ((7 : Int) - 0).natAbs := by decide
/-- LineRegistersFitSixteenBits, second clause: the longest top segment, and the left one of size 0 at row 0. -/
theorem witness_outline : outlineSegment (zext 255) (zext 255) (zext 255 + zext 255 - 1) (zext 255 + zext 255 - 1) 0 =
      ((255, 255), 509, 255) ∧ 254 < lineCount 255 255 509 255 ∧
    outlineSegment (zext 0) (zext 0) (zext 0 + zext 0 - 1) (zext 0 + zext 0 - 1) 2 = ((0, 0), 0, -1) ∧
      1 < lineCount 0 0 0 (-1) := by decide
/-- LineErrorNeverExceedsTheDeltas fails: vector L8 at its fourth advance. -/
theorem witness_line_error : (lineAfter 0 0 7 1 4).err = 9 ∧ ((7 : Int) - 0).natAbs + ((1 : Int) - 0).natAbs = 8 := by decide
/-- DrawCharCompositesItsCell, PageAlignedGlyphIsItsFontBytes: the last accepted origin with a space, and the first
rejected ones. -/
theorem witness_drawChar : (78#8).toNat ≤ 78 ∧ (40#8).toNat ≤ 40 ∧ (40#8).toNat % 8 = 0 ∧ 0x20 ≤ (0x20#8).toNat ∧
    (0x20#8).toNat ≤ Config.fontLast ∧ 78 < (79#8).toNat ∧ 40 < (41#8).toNat ∧ (0x1F#8).toNat < 0x20 := by
  refine ⟨by decide, by decide, by decide, by decide, ?_, by decide, by decide, by decide⟩
  exact Nat.le_add_right 0x20 _
/-- FifteenthCharacterWraps. -/
theorem witness_fourteen : (32#8).toNat ≤ 32 ∧ (List.replicate 14 (0x41#8)).length = 14 := by decide
/-- StalledUpdateWaits, LateAcceptanceChangesNothing: no event accepted, and all but the last. -/
theorem witness_stalled : ({ State.reset with txCredit := some 0 } : State).fault = false ∧
    ({ State.reset with txCredit := some 505 } : State).txCredit = some 505 ∧ 0 < 506 ∧ 505 < 506 ∧
      otherMove State.reset.moves = none := by decide
/-- DeviceShowsThePublishedFramebuffer, UpdateInExtendedModeSetsContrast, DeviceRegisterBytesTakeEffect. -/
theorem witness_device : State.reset.device.mode = .basic ∧
    ({ State.reset with device := { Device.reset with mode := .extended } } : State).device.mode = .extended ∧
      (83#7).toNat < 84 ∧ (5#3).toNat < 6 := by decide
/-- BootSequenceInitializesTheDevice. -/
theorem witness_boot : CleanEntry (offering (bootSequence 0x3F 4 ++ [])) ∧
    (offering (bootSequence 0x3F 4 ++ [])).moves = bootSequence 0x3F 4 ++ [] := ⟨⟨rfl, rfl, rfl⟩, rfl⟩
/-- DecodeEncodeCommand, DecodedBytesAreTheEncoding, DecodeEncodeDeviceByte, OperandBytesAreNeverIllegal. -/
theorem witness_encoding : (Instr.drawString true 0 0 [0x41]).wf = true ∧
    (Instr.drawString true 0 0 [0x41]).space = .command ∧ decodeCommand [0x10] = .ok .clear [] ∧
      (Instr.devSetBias 4).space = .device ∧ (∀ v, Instr.devSetBias 4 ≠ .devSetVop v) ∧
        (∀ v, Instr.devSetBias 4 ≠ .devSetXColumn v) ∧ opcodeOf 0x71 ≠ none := by
  refine ⟨by decide, by decide, by decide, by decide, ?_, ?_, by decide⟩ <;> intro v h <;> cases h
/-- StepRunsTheDecodedCommand, HostPaceDoesNotMatter, IncompleteCommandWaits. -/
theorem witness_step : (Instr.setPixel true 10 20).wf = true ∧ (Instr.setPixel true 10 20).space = .command ∧
    CleanEntry (offering ((encode (.setPixel true 10 20)).map .cmd ++ [])) ∧ 0 < 2 ∧
      2 < (encode (.setPixel true 10 20)).length ∧ (∀ c x y text, Instr.setPixel true 10 20 ≠ .drawString c x y text) ∧
        CleanEntry (offering (((encode (.setPixel true 10 20)).take 2).map .cmd)) := by
  refine ⟨rfl, rfl, ⟨rfl, rfl, rfl⟩, by decide, by decide, ?_, ⟨rfl, rfl, rfl⟩⟩
  intro c x y text h
  cases h
/-- IncompleteCommandWaits: a string whose length byte has not come. -/
theorem witness_incomplete : (Instr.drawString true 0 0 [0x41]).wf = true ∧ 3 < (encode (.drawString true 0 0 [0x41])).length ∧
    CleanEntry (offering (((encode (.drawString true 0 0 [0x41])).take 3).map .cmd)) ∧
      flagsAfter (step (offering (((encode (.drawString true 0 0 [0x41])).take 3).map .cmd))) =
        some ⟨false, .operands, true, [], 0⟩ := ⟨by decide, by decide, ⟨rfl, rfl, rfl⟩, by decide⟩
/-- StepDeliversDeviceBytes, both clauses. -/
theorem witness_device_byte : (offering [.dev 0x21]).tx = none ∧
    decodeDevice (offering [.dev 0x21]).device.mode 0x21 = some .devFunctionSetExtended ∧
      decodeDevice (offering [.dev 0x0D]).device.mode 0x0D = none := by decide
/-- StepDeliversDeviceBytes: a stalled update and a faulted engine, each with a listed byte that the next step delivers. -/
theorem witness_device_byte_held :
    ({ offering [.dev 0x21] with tx := some ⟨false, 0x40⟩, txCredit := some 0, seq := .exec } : State).txCredit = some 0 ∧
      (raiseFault (offering [.dev 0x21])).fault = true ∧
        step { offering [.dev 0x21] with tx := some ⟨false, 0x40⟩, txCredit := some 0, seq := .exec } =
          exec .devFunctionSetExtended { State.reset with tx := some ⟨false, 0x40⟩, txCredit := some 0, seq := .exec } ∧
          step (raiseFault (offering [.dev 0x21])) = exec .devFunctionSetExtended (raiseFault State.reset) ∧
            step (raiseFault (offering [.dev 0x0D])) = .refused .deviceByteNotListed :=
  ⟨rfl, rfl, rfl, rfl, rfl⟩
/-- IllegalOpcodeRaisesTheFault. -/
theorem witness_illegal : CleanEntry (offering [.cmd 0x90]) ∧ opcodeOf 0x90 = none := ⟨⟨rfl, rfl, rfl⟩, by decide⟩
/-- FaultedEngineWaitsForReset: a faulted engine, with nothing to step to, and with a step. -/
theorem witness_faulted : (raiseFault State.reset).fault = true ∧ (raiseFault State.reset).seq = .faulted ∧
    (raiseFault State.reset).tx = none ∧ otherMove (raiseFault (offering [.cmd 0x21])).moves = none ∧
      step (raiseFault (offering [.rst])) = .next (resetEngine (raiseFault State.reset)) :=
  ⟨rfl, rfl, rfl, rfl, rfl⟩
/-- ResetMoveResetsTheEngine: at a boundary, and inside an update whose offered event the collaborator accepts. -/
theorem witness_resetMove : (offering [.rst]).moves = [.rst] ∧
    ({ offering [.rst] with tx := some ⟨false, 0x40⟩, txCredit := none, seq := .exec } : State).moves = [.rst] := by
  decide
/-- OfferedEventGoesFirst, LateAcceptanceChangesNothing: a stalled update whose collaborator accepts one more event, and no
reset asserted. -/
theorem witness_offered :
    Machine.Inv { offering [.cmd 0x10] with tx := some ⟨false, 0x40⟩, txCredit := some 1, seq := .exec } ∧
      rstAsserted (offering [.cmd 0x10]).moves = false := by
  refine ⟨?_, rfl⟩
  show State.inv _ = true
  decide +kernel
/-- R115: reset has priority over an event that could be accepted: TRACE is emptied and nothing is sent. -/
theorem test_reset_priority (s : State) (h : s.moves = [.rst, .cmd 0x10]) (n : Nat) :
    step { s with tx := some ⟨false, 0x40⟩, txCredit := some (n + 1), seq := .exec } =
      .next { State.reset with device := s.device, moves := [.cmd 0x10], txCredit := some (n + 1), draws := s.draws } :=
  step_of_rst h
/-- IncompleteStringShowsItsGlyphs. -/
theorem witness_incomplete_string : [0x41#8, 0x42#8].length ≤ 255 ∧ 1 < [0x41#8, 0x42#8].length ∧
    CleanEntry (offering (((encode (.drawString true 0 0 [0x41, 0x42])).take 5).map .cmd)) :=
  ⟨by decide, by decide, rfl, rfl, rfl⟩
/-- StepKeepsTheInvariant, TraceIsAppendOnly, OnlyUpdateTransmitsOnlyDrawingDraws, EveryLegalCommandRuns. -/
theorem witness_steps : Inv State.reset ∧ step State.reset = .next State.reset ∧ (∃ t, exec .clear State.reset = .next t) ∧
    (∃ t, exec .devFunctionSetBasic State.reset = .next t) :=
  ⟨rfl, rfl, ⟨_, rfl⟩, ⟨_, rfl⟩⟩
/-- ProgramRunIsTheComposition: program 3 without its fault, and a device byte. -/
theorem witness_program : (∀ i ∈ [Instr.setPixel true 1 1, .devFunctionSetBasic], i.wf = true) ∧
    CleanEntry (offering ([Instr.setPixel true 1 1, .devFunctionSetBasic].flatMap deliver)) ∧
      TxLive (offering ([Instr.setPixel true 1 1, .devFunctionSetBasic].flatMap deliver)) ∧
        HostDelivers [.setPixel true 1 1, .devFunctionSetBasic]
          (offering ([Instr.setPixel true 1 1, .devFunctionSetBasic].flatMap deliver)) :=
  ⟨by decide, ⟨rfl, rfl, rfl⟩, rfl, by decide, rfl⟩
/-- R145: a string of 256 characters is no whole command, whatever the host offers. -/
theorem test_hostCompletes_refuses_long_string (s : State) :
    ¬HostCompletes [.drawString true 0 0 (List.replicate 256 0x41)] s := by
  intro h
  exact Bool.false_ne_true (test_wf_refuses_long_string.symm.trans (h.1 _ (List.mem_singleton.mpr rfl)).2)
/-- R145, WholeCommandsEndNormally: whole commands, with moves on the host's other wires between their bytes and a reset
after them; the bytes after the reset belong to the next run. A command cut short is none. -/
theorem witness_hostCompletes :
    HostCompletes [.clear] (offering [.cmd 0x10, .rst, .cmd 0x21]) ∧
      HostCompletes [.setPixel true 1 2] (offering [.txReady 1, .cmd 0x21, .dev 0x20, .cmd 1, .cmd 2, .rst]) ∧
        DeviceBytesListed (offering [.txReady 1, .cmd 0x21, .dev 0x20, .cmd 1, .cmd 2, .rst]) ∧
          CleanEntry (offering [.txReady 1, .cmd 0x21, .dev 0x20, .cmd 1, .cmd 2, .rst]) ∧
            TxLive (offering [.txReady 1, .cmd 0x21, .dev 0x20, .cmd 1, .cmd 2, .rst]) ∧
              ¬HostCompletes [.setPixel true 1 2] (offering [.cmd 0x21, .cmd 1, .rst, .cmd 2]) := by
  refine ⟨⟨by decide, rfl⟩, ⟨by decide, rfl⟩, ?_, ⟨rfl, rfl, rfl⟩, rfl, fun h => absurd h.2 (by decide)⟩
  intro b hb
  obtain rfl : b = 0x20 := by simpa [offering, List.takeWhile] using hb
  decide
/-- R143: a run has ended when its bytes are taken, though the host has yet to assert reset; before that it has not. -/
theorem test_run_ends_before_the_reset :
    RunEnded (offering [.rst]) ∧ RunEnded (offering [.dev 0x20, .txReady 1]) ∧ RunEnded (offering [.rst, .cmd 0x10]) ∧
      ¬RunEnded (offering [.cmd 0x80, .rst]) :=
  ⟨⟨rfl, rfl, rfl, rfl⟩, ⟨rfl, rfl, rfl, rfl⟩, ⟨rfl, rfl, rfl, rfl⟩, fun h => by cases h.1⟩
/-- RunEndsAtItsFirstCleanMoment: one SET_PIXEL, with a reset to come. -/
theorem witness_run : ∃ t, EndsNormallyAt 1 (offering [.cmd 0x21, .cmd 0, .cmd 0, .rst]) t ∧ t.moves = [.rst] ∧
    t.fb = [(0, 0x01)] := by
  refine ⟨_, ⟨rfl, ⟨rfl, rfl, rfl, rfl⟩, rfl, ?_⟩, rfl, rfl⟩
  intro j hj u hu hr
  obtain rfl : j = 0 := by omega
  cases hu
  cases hr.1
/-- FaultedRunNeverEndsNormally. -/
theorem witness_faulted_run : (raiseFault (offering [.txReady 1, .cmd 0x21])).fault = true ∧
    HostMove.rst ∉ (raiseFault (offering [.txReady 1, .cmd 0x21])).moves ∧
      Host.Core.run core 1 (raiseFault (offering [.txReady 1, .cmd 0x21])) = .next (raiseFault (offering [.cmd 0x21])) :=
  ⟨rfl, by decide, rfl⟩
/-- FlagsFollowTheSequencer, DebugPortShowsThePixel: a busy state and an idle one, and a faulted one that meets Inv. -/
theorem witness_flags : busy { State.reset with seq := .operands } = true ∧ busy State.reset = false ∧
    Inv (raiseFault State.reset) ∧ State.reset.seq = .idle ∧ State.reset.moves = [] :=
  ⟨rfl, rfl, rfl, rfl, rfl⟩

end Sys2Proof.Tests
end

section
/-! The invariant of the machine, what every command and every step leaves unchanged, and the ranges of the rectangle
registers (spec/10_state.md). -/

namespace Sys2Proof.Machine

/-! ## What a command can do -/

/-- `body` is the sequencer of a command that only draws: of what the command leaves behind, the body decides FB alone,
and it keeps FB in canonical form. -/
def DrawsOnly (body : State → State) : Prop :=
  ∀ s, finish (body s) = finish { s with fb := (body s).fb } ∧
    (Memory.wf s.fb = true → Memory.wf (body s).fb = true)

theorem drawsOnly_of_fb {f : Memory → Memory} (hf : ∀ {fb}, Memory.wf fb = true → Memory.wf (f fb) = true) :
    DrawsOnly fun s => { s with fb := f s.fb } :=
  fun _ => ⟨rfl, hf⟩

theorem fillState_drawsOnly (x y w h : Byte) (c : Bool) : DrawsOnly (fillState x y w h c) :=
  fun s => ⟨rfl, rectFill_wf (zext x) (zext y) w.toNat h.toNat c (p := (s.work.rect, s.fb))⟩

theorem outlineState_drawsOnly (x y w h : Byte) (c : Bool) : DrawsOnly (outlineState x y w h c) :=
  fun s => ⟨rfl, rectOutline_wf (zext x) (zext y) w.toNat h.toNat c (p := (s.work.rect, s.work.line, s.fb))⟩

theorem textState_wf (c : Bool) (chars : List Byte) {s : State} (h : Memory.wf s.fb = true) :
    Memory.wf (textState c chars s).fb = true :=
  textRun_wf c chars (p := (s.work.text, s.work.glyph, s.fb)) h

/-- Every command of the stream but DISPLAY_UPDATE runs a sequencer that only draws (spec/20_memory.md R38). -/
theorem exec_of_command {i : Instr} (hc : i.space = .command) (hu : i ≠ .displayUpdate) :
    ∃ body, (∀ s, exec i s = runCommand body s) ∧ DrawsOnly body := by
  cases i with
  | clear => exact ⟨_, fun _ => rfl, drawsOnly_of_fb clearBytes_wf⟩
  | setPixel on x y => exact ⟨_, fun _ => rfl, drawsOnly_of_fb (pixelWrite_wf (zext x) (zext y) on)⟩
  | drawLine c x0 y0 x1 y1 =>
    exact ⟨_, fun _ => rfl, fun s => ⟨rfl, lineDraw_wf (zext x0) (zext y0) (zext x1) (zext y1) c (fb := s.fb)⟩⟩
  | drawRect c filled x y w h =>
    cases filled with
    | true => exact ⟨_, fun _ => rfl, fillState_drawsOnly x y w h c⟩
    | false => exact ⟨_, fun _ => rfl, outlineState_drawsOnly x y w h c⟩
  | clearArea x y w h => exact ⟨_, fun _ => rfl, fillState_drawsOnly x y w h false⟩
  | drawChar c x y code =>
    exact ⟨_, fun _ => rfl, fun s => ⟨rfl, glyphDraw_wf x.toNat y.toNat code c (p := (s.work.glyph, s.fb))⟩⟩
  | drawString c x y text =>
    exact ⟨_, fun _ => rfl, fun s => ⟨rfl, textState_wf c text (s := textBegin x y text.length s)⟩⟩
  | displayUpdate => exact absurd rfl hu
  | _ => cases hc

/-- A device row is what the device does with the byte (spec/30_encoding.md R60). -/
theorem exec_of_device {i : Instr} (hd : i.space = .device) (s : State) :
    exec i s = onDevice (fun n d => deviceCommand n i d) s := by
  cases i with
  | devFunctionSetExtended | devSetVop | devSetBias | devFunctionSetBasic | devDisplayControlNormal | devSetYPage
  | devSetXColumn => rfl
  | _ => cases hd

theorem execDisplayUpdate_next {s t : State} (h : execDisplayUpdate s = .next t) :
    s.fault = false ∧ t = txRun (updateEvents s.fb) { s with work := { s.work with si := 0 } } := by
  unfold execDisplayUpdate at h
  split at h
  · cases h
  · rename_i hf
    exact ⟨Bool.eq_false_of_not_eq_true hf, (Host.Outcome.next.inj h).symm⟩

/-- What a command that answers a next state did: a device row changed the device, DISPLAY_UPDATE ran the serializer, or
a command that only draws changed FB and ended. -/
theorem exec_cases {i : Instr} {s t : State} (h : exec i s = .next t) :
    (i.space = .device ∧
        t = { s with device := deviceCommand s.draws i s.device, draws := s.draws + 1 }) ∨
      (i = .displayUpdate ∧ s.fault = false ∧
        t = txRun (updateEvents s.fb) { s with work := { s.work with si := 0 } }) ∨
        (i.space = .command ∧ i ≠ .displayUpdate ∧ s.fault = false ∧
          ∃ fb, t = finish { s with fb := fb } ∧ (Memory.wf s.fb = true → Memory.wf fb = true)) := by
  cases hs : i.space with
  | device =>
    rw [exec_of_device hs] at h
    exact .inl ⟨rfl, onDevice_next h⟩
  | command =>
    by_cases hu : i = .displayUpdate
    · subst hu
      exact .inr (.inl ⟨rfl, execDisplayUpdate_next h⟩)
    · obtain ⟨body, hbody, hdraws⟩ := exec_of_command hs hu
      rw [hbody] at h
      obtain ⟨hfault, rfl⟩ := runCommand_next h
      exact .inr (.inr ⟨rfl, hu, hfault, (body s).fb, hdraws s⟩)

/-- The decoder answers commands of the stream only (spec/30_encoding.md R54). -/
theorem decodeOperands_space {o : Opcode} {c f : Bool} {args rest : List Byte} {i : Instr}
    (h : decodeOperands o c f args = .ok i rest) : i.space = .command := by
  unfold decodeOperands at h
  cases o with
  | clear | displayUpdate => cases h; rfl
  | setPixel | drawLine | drawRect | clearArea | drawChar =>
    dsimp only at h
    split at h
    · cases h; rfl
    · cases h
  | drawString =>
    dsimp only at h
    split at h
    · split at h
      · cases h; rfl
      · cases h
    · cases h

theorem decodeCommand_space {bytes rest : List Byte} {i : Instr} (h : decodeCommand bytes = .ok i rest) :
    i.space = .command := by
  unfold decodeCommand at h
  split at h
  · cases h
  · split at h
    · cases h
    · exact decodeOperands_space h

/-! ## A command cut short -/

/-- The operands of a command are cut short where too few bytes are there to latch, or inside a string's characters
(spec/30_encoding.md R55, R61). -/
theorem decodeOperands_truncated {o : Opcode} {c f : Bool} {args : List Byte}
    (h : decodeOperands o c f args = .truncated) :
    args.length < latchCount o ∨
      o = .drawString ∧ ∃ x y len chars, args = x :: y :: len :: chars ∧ chars.length < len.toNat := by
  unfold decodeOperands at h
  cases o with
  | clear => cases h
  | displayUpdate => cases h
  | drawString =>
    match args with
    | [] | [_] | [_, _] => exact .inl (by simp [latchCount])
    | x :: y :: len :: chars =>
      refine .inr ⟨rfl, x, y, len, chars, rfl, ?_⟩
      by_contra hlen
      simp only [if_pos (Nat.le_of_not_lt hlen)] at h
      cases h
  | setPixel =>
    match args with
    | [] | [_] => exact .inl (by simp [latchCount])
    | _ :: _ :: _ => cases h
  | drawChar =>
    match args with
    | [] | [_] | [_, _] => exact .inl (by simp [latchCount])
    | _ :: _ :: _ :: _ => cases h
  | drawLine | drawRect | clearArea =>
    match args with
    | [] | [_] | [_, _] | [_, _, _] => exact .inl (by simp [latchCount])
    | _ :: _ :: _ :: _ :: _ => cases h

/-- A command cut short after its opcode byte: the operation is known and the operands are cut short. -/
theorem decodeCommand_truncated {op : Byte} {args : List Byte} (h : decodeCommand (op :: args) = .truncated) :
    ∃ o, opcodeOf op = some o ∧ decodeOperands o (colourBit op) (filledBit op) args = .truncated := by
  simp only [decodeCommand] at h
  split at h
  · cases h
  · exact ⟨_, ‹_›, h⟩

/-- How the engine waits for the bytes of a command cut short (R55, R61): in a string, with the characters there laid
out, or for operand bytes. -/
theorem awaitBytes_cases {bytes : List Byte} (hne : bytes ≠ []) (h : decodeCommand bytes = .truncated) (n : Nat)
    (s : State) :
    (∃ op x y len chars, bytes = op :: x :: y :: len :: chars ∧ opcodeOf op = some .drawString ∧
        chars.length < len.toNat ∧
        awaitBytes bytes n s = textState (colourBit op) chars (textBegin x y len.toNat (dispatched bytes n s))) ∨
      ∃ op args o, bytes = op :: args ∧ opcodeOf op = some o ∧ args.length < latchCount o ∧
        awaitBytes bytes n s = { dispatched bytes n s with seq := .operands } := by
  obtain ⟨op, args, rfl⟩ := List.exists_cons_of_ne_nil hne
  obtain ⟨o, ho, hargs⟩ := decodeCommand_truncated h
  rcases decodeOperands_truncated hargs with hshort | ⟨rfl, x, y, len, chars, rfl, hlen⟩
  · refine .inr ⟨op, args, o, rfl, ho, hshort, ?_⟩
    unfold awaitBytes
    split
    · rename_i heq
      obtain ⟨rfl, rfl⟩ := List.cons.inj heq
      refine if_neg fun hstring => ?_
      obtain rfl := Option.some.inj (ho.symm.trans hstring)
      simp only [latchCount, List.length_cons] at hshort
      omega
    · rfl
  · exact .inl ⟨op, x, y, len, chars, rfl, ho, hlen, by simp only [awaitBytes, if_pos ho]⟩

/-! ## What a step leaves unchanged -/

/-- Every command appends to TRACE or leaves it (spec/10_state.md R20). -/
theorem exec_trace {i : Instr} {s t : State} (h : exec i s = .next t) : ∃ es, t.trace = s.trace ++ es := by
  rcases exec_cases h with ⟨-, rfl⟩ | ⟨-, -, rfl⟩ | ⟨-, -, -, fb, rfl, -⟩
  · exact ⟨[], (List.append_nil _).symm⟩
  · obtain ⟨k, hk⟩ := txRun_trace (updateEvents s.fb) { s with work := { s.work with si := 0 } }
    exact ⟨_, hk⟩
  · exact ⟨[], (List.append_nil _).symm⟩

theorem resumeText_trace (s : State) : (resumeText s).trace = s.trace := by
  unfold resumeText
  dsimp only
  split <;> rfl

theorem awaitBytes_trace (bytes : List Byte) (n : Nat) (s : State) : (awaitBytes bytes n s).trace = s.trace := by
  unfold awaitBytes
  split
  · split <;> rfl
  · rfl

/-- Settles O44: by what a command can do, said once in `exec_cases`. -/
theorem onlyUpdateTransmitsOnlyDrawingDraws : Obligations.OnlyUpdateTransmitsOnlyDrawingDraws := by
  unfold Obligations.OnlyUpdateTransmitsOnlyDrawingDraws
  intro i s t h
  rcases exec_cases h with ⟨-, rfl⟩ | ⟨rfl, -, rfl⟩ | ⟨hcommand, hu, -, fb, rfl, -⟩
  · exact ⟨fun _ => rfl, fun _ => rfl, rfl, rfl⟩
  · obtain ⟨hfb, hfault, hmoves⟩ := txRun_frame (updateEvents s.fb) { s with work := { s.work with si := 0 } }
    exact ⟨fun hu => absurd rfl hu, fun _ => hfb, hfault, hmoves⟩
  · refine ⟨fun _ => rfl, ?_, rfl, rfl⟩
    rintro (rfl | hdevice)
    · exact absurd rfl hu
    · rw [hdevice] at hcommand
      cases hcommand

/-- Settles O45: every kind of step appends to TRACE or leaves it, but for the host's reset. -/
theorem traceIsAppendOnly : Obligations.TraceIsAppendOnly := by
  unfold Obligations.TraceIsAppendOnly
  intro s t h
  rcases step_cases h with ⟨e, -, -, -, -, rfl⟩ | ⟨-, -, -, -, rfl⟩ | ⟨-, -, -, -, rfl⟩ | ⟨-, -, -, -, hcommand⟩ |
    ⟨m, ms, hother, hmove⟩
  · obtain ⟨k, hk⟩ := txRun_trace ((updateEvents s.fb).drop (eventsSent e s.work.si)) s
    exact .inl ⟨_, hk⟩
  · exact .inl ⟨[], (List.append_nil _).symm⟩
  · exact .inl ⟨[], by rw [resumeText_trace, List.append_nil]⟩
  · rcases takeCommand_cases hcommand with ⟨i, rest, -, hexec⟩ | ⟨op, -, rfl⟩ | ⟨-, rfl⟩
    · obtain ⟨es, htrace⟩ := exec_trace hexec
      exact .inl ⟨es, htrace⟩
    · exact .inl ⟨[], (List.append_nil _).symm⟩
    · exact .inl ⟨[], by rw [awaitBytes_trace, List.append_nil]⟩
  · rcases hostMove_cases (otherMove_not_cmd hother) hmove with ⟨rfl, rfl⟩ | ⟨n, -, rfl⟩ | ⟨b, i, -, -, hexec⟩
    · exact .inr ⟨ms, hother, rfl⟩
    · exact .inl ⟨[], (List.append_nil _).symm⟩
    · obtain ⟨es, htrace⟩ := exec_trace hexec
      exact .inl ⟨es, htrace⟩

/-! ## The invariant, by what the engine is doing -/

theorem inv_idle_iff {s : State} (hs : s.seq = .idle) :
    Inv s ↔ Memory.wf s.fb = true ∧ ramWf s.device.ram = true ∧ s.fault = false ∧ s.tx = none := by
  simp [Inv, State.inv, hs, and_assoc]

theorem inv_operands_iff {s : State} (hs : s.seq = .operands) :
    Inv s ↔ Memory.wf s.fb = true ∧ ramWf s.device.ram = true ∧ s.fault = false ∧ s.tx = none ∧
      latchWaits s.work.latch = true := by
  simp [Inv, State.inv, hs, and_assoc]

theorem inv_exec_iff {s : State} (hs : s.seq = .exec) :
    Inv s ↔ Memory.wf s.fb = true ∧ ramWf s.device.ram = true ∧ s.fault = false ∧ execWaits s = true := by
  simp [Inv, State.inv, hs, and_assoc]

theorem inv_faulted_iff {s : State} (hs : s.seq = .faulted) :
    Inv s ↔ Memory.wf s.fb = true ∧ ramWf s.device.ram = true ∧ s.fault = true ∧ s.tx = none := by
  simp [Inv, State.inv, hs, and_assoc]

theorem Inv.fb_wf {s : State} (h : Inv s) : Memory.wf s.fb = true := by
  simp only [Inv, State.inv, Bool.and_eq_true] at h
  obtain ⟨⟨⟨hfb, -⟩, -⟩, -⟩ := h
  exact hfb

theorem Inv.ram_wf {s : State} (h : Inv s) : ramWf s.device.ram = true := by
  simp only [Inv, State.inv, Bool.and_eq_true] at h
  obtain ⟨⟨⟨-, hram⟩, -⟩, -⟩ := h
  exact hram

/-- FAULT is set exactly in FAULTED (spec/10_state.md R18). -/
theorem Inv.fault_iff {s : State} (h : Inv s) : s.fault = true ↔ s.seq = .faulted := by
  simp only [Inv, State.inv, Bool.and_eq_true, beq_iff_eq] at h
  obtain ⟨⟨-, hfault⟩, -⟩ := h
  rw [hfault, decide_eq_true_eq]

/-- An event is offered in EXEC only (R17). -/
theorem Inv.seq_of_tx {s : State} {e : TxEvent} (h : Inv s) (he : s.tx = some e) : s.seq = .exec := by
  cases hs : s.seq with
  | exec => rfl
  | idle => simp [inv_idle_iff hs, he] at h
  | operands => simp [inv_operands_iff hs, he] at h
  | faulted => simp [inv_faulted_iff hs, he] at h

/-- The invariant says nothing of what the environment does next, nor of the device beyond the form of its memory. -/
theorem Inv.set_environment {s : State} (h : Inv s) {d : Device} (hd : ramWf d.ram = true) (ms : List HostMove)
    (credit : Option Nat) (n : Nat) :
    Inv { s with device := d, moves := ms, txCredit := credit, draws := n } := by
  have hwaits : execWaits { s with device := d, moves := ms, txCredit := credit, draws := n } = execWaits s := rfl
  have hram := h.ram_wf
  simpa only [Inv, State.inv, hd, hram, hwaits] using h

/-- EXEC with nothing offered waits for the characters of a string (spec/30_encoding.md R55). -/
theorem execWaits_text_iff {s : State} (ht : s.tx = none) :
    execWaits s = true ↔ opcodeOf s.work.latch.op = some .drawString ∧
      s.work.latch.c = colourBit s.work.latch.op ∧ 0 < s.work.text.nleft := by
  simp [execWaits, ht, and_assoc]

/-- EXEC with an event offered is a stalled update, at the place its progress gives (spec/43_serializer.md R104). -/
theorem execWaits_update_iff {s : State} {e : TxEvent} (ht : s.tx = some e) :
    execWaits s = true ↔ (updateEvents s.fb)[eventsSent e s.work.si]? = some e ∧ (e.dc = true ∨ s.work.si = 0) := by
  simp [execWaits, ht]

/-! ## The progress of an update -/

/-- The events of an update are two command bytes, then data bytes (spec/43_serializer.md R102). -/
theorem updateEvents_dc {fb : Memory} {k : Nat} {e : TxEvent} (h : (updateEvents fb)[k]? = some e) :
    e.dc = decide (2 ≤ k) := by
  obtain _ | _ | k := k
  · obtain rfl := Option.some.inj h
    rfl
  · obtain rfl := Option.some.inj h
    rfl
  · simp only [updateEvents, List.getElem?_cons_succ, List.getElem?_map, Option.map_eq_some_iff] at h
    obtain ⟨i, -, rfl⟩ := h
    simp [dataEvent]

/-- After `k` events SI counts the data bytes among them, and from SI and the event offered next `k` is known again. -/
theorem eventsSent_of_getElem? {fb : Memory} {k : Nat} {e : TxEvent} (h : (updateEvents fb)[k]? = some e) :
    eventsSent e (k - 2) = k := by
  have hdc := updateEvents_dc h
  obtain _ | _ | k := k
  · obtain rfl := Option.some.inj h
    rfl
  · obtain rfl := Option.some.inj h
    rfl
  · simp only [eventsSent, hdc, Nat.le_add_left, decide_true, if_true]
    omega

/-- An update that has sent `k` of its events, SI with it, runs on into a state that meets the invariant: ended, or
waiting with its next event offered. -/
theorem txRun_inv (k : Nat) {s : State} (hfb : Memory.wf s.fb = true) (hram : ramWf s.device.ram = true)
    (hfault : s.fault = false) (hsi : s.work.si = k - 2) (htx : k < 506 ∨ s.tx = none) :
    Inv (txRun ((updateEvents s.fb).drop k) s) := by
  induction hes : (updateEvents s.fb).drop k generalizing k s with
  | nil =>
    have hk : 506 ≤ k := by simpa [updateEvents_length] using List.drop_eq_nil_iff.mp hes
    exact (inv_idle_iff rfl).mpr ⟨hfb, hram, hfault, htx.resolve_left (by omega)⟩
  | cons e es ih =>
    have hget : (updateEvents s.fb)[k]? = some e := by
      rw [← List.head?_drop, hes, List.head?_cons]
    have hrest : (updateEvents s.fb).drop (k + 1) = es := by
      rw [← List.tail_drop, hes, List.tail_cons]
    have hdc := updateEvents_dc hget
    unfold txRun
    split_ifs
    · refine (inv_exec_iff rfl).mpr ⟨hfb, hram, hfault, (execWaits_update_iff rfl).mpr ⟨?_, ?_⟩⟩
      · dsimp only
        rw [hsi, eventsSent_of_getElem? hget, hget]
      · dsimp only
        rw [hdc, hsi, decide_eq_true_eq]
        omega
    · refine ih (k + 1) hfb (deviceReceive_ramWf _ e hram) hfault ?_ (.inr rfl) hrest
      show (if e.dc then s.work.si + 1 else s.work.si) = k + 1 - 2
      rw [hdc, hsi]
      by_cases hk : 2 ≤ k <;> simp [hk] <;> omega

/-- A stalled update goes on into a state that meets the invariant (R104). -/
theorem resumeUpdate_inv {s : State} {e : TxEvent} (h : Inv s) (he : s.tx = some e) : Inv (resumeUpdate e s) := by
  obtain ⟨hfb, hram, hfault, hwaits⟩ := (inv_exec_iff (h.seq_of_tx he)).mp h
  obtain ⟨hget, hsi⟩ := (execWaits_update_iff he).mp hwaits
  have hlt : eventsSent e s.work.si < 506 := by
    obtain ⟨hlt, -⟩ := List.getElem?_eq_some_iff.mp hget
    rwa [updateEvents_length] at hlt
  have hdc := updateEvents_dc hget
  refine txRun_inv _ hfb hram hfault ?_ (.inl hlt)
  rcases hsi with hdata | hzero
  · simp [eventsSent, hdata]
  · rcases Bool.eq_false_or_eq_true e.dc with hdata | hcmd
    · simp [eventsSent, hdata]
    · rw [hcmd] at hdc
      have := of_decide_eq_false hdc.symm
      omega

/-! ## Every step keeps the invariant -/

/-- A command of the stream ends, or an update waits, in a state that meets the invariant. -/
theorem exec_command_inv {i : Instr} {s t : State} (hc : i.space = .command) (hfb : Memory.wf s.fb = true)
    (hram : ramWf s.device.ram = true) (htx : s.tx = none) (h : exec i s = .next t) : Inv t := by
  rcases exec_cases h with ⟨hd, -⟩ | ⟨-, hfault, rfl⟩ | ⟨-, -, hfault, fb, rfl, hwf⟩
  · rw [hd] at hc
    cases hc
  · exact txRun_inv 0 (s := { s with work := { s.work with si := 0 } }) hfb hram hfault rfl (.inl (by decide))
  · exact (inv_idle_iff rfl).mpr ⟨hwf hfb, hram, hfault, htx⟩

/-- A device row leaves the engine as it is and the device's memory too. -/
theorem exec_device_inv {i : Instr} {s t : State} (hd : i.space = .device) (hinv : Inv s) (h : exec i s = .next t) :
    Inv t := by
  rw [exec_of_device hd] at h
  rw [onDevice_next h]
  exact hinv.set_environment (by rw [deviceCommand_ram]; exact hinv.ram_wf) s.moves s.txCredit (s.draws + 1)

/-- The decoder that has latched a command cut short among its operand bytes waits for the rest. -/
theorem latchWaits_latchBytes {op : Byte} {args : List Byte} {o : Opcode} (ho : opcodeOf op = some o)
    (hshort : args.length < latchCount o) (l : Latches) : latchWaits (latchBytes (op :: args) l) = true := by
  simp only [latchBytes, ho, Option.map_some, Option.getD_some, List.take_of_length_le hshort.le]
  simp [latchWaits, loadLatches, ho, hshort]

theorem textState_nleft (c : Bool) (chars : List Byte) (s : State) :
    (textState c chars s).work.text.nleft = s.work.text.nleft - chars.length :=
  textRun_nleft c chars _

/-- The engine waits for the bytes of a command cut short where it can go on from (R61). -/
theorem awaitBytes_inv {bytes : List Byte} (hne : bytes ≠ []) (h : decodeCommand bytes = .truncated) (n : Nat)
    {s : State} (hfb : Memory.wf s.fb = true) (hram : ramWf s.device.ram = true) (hfault : s.fault = false)
    (htx : s.tx = none) : Inv (awaitBytes bytes n s) := by
  rcases awaitBytes_cases hne h n s with
    ⟨op, x, y, len, chars, rfl, ho, hlen, heq⟩ | ⟨op, args, o, rfl, ho, hshort, heq⟩
  · rw [heq]
    refine (inv_exec_iff rfl).mpr ⟨textState_wf _ chars hfb, hram, hfault, (execWaits_text_iff ?_).mpr ⟨ho, rfl, ?_⟩⟩
    · exact htx
    · rw [textState_nleft]
      exact Nat.sub_pos_of_lt hlen
  · rw [heq]
    exact (inv_operands_iff rfl).mpr ⟨hfb, hram, hfault, htx, latchWaits_latchBytes ho hshort _⟩

/-- A string in progress ends with its last character, or waits for the next (R94). -/
theorem resumeText_inv {s : State} (h : Inv s) (hs : s.seq = .exec) (htx : s.tx = none) : Inv (resumeText s) := by
  obtain ⟨hfb, hram, hfault, hwaits⟩ := (inv_exec_iff hs).mp h
  obtain ⟨ho, hc, -⟩ := (execWaits_text_iff htx).mp hwaits
  unfold resumeText
  dsimp only
  split
  · exact (inv_idle_iff rfl).mpr ⟨textState_wf _ _ hfb, hram, hfault, htx⟩
  · rename_i hleft
    refine (inv_exec_iff ?_).mpr ⟨textState_wf _ _ hfb, hram, hfault,
      (execWaits_text_iff ?_).mpr ⟨ho, hc, Nat.pos_of_ne_zero hleft⟩⟩
    · exact hs
    · exact htx

/-- Taking command bytes keeps the invariant. -/
theorem takeCommand_inv {s t : State} (hinv : Inv s) (hfault : s.fault = false) (htx : s.tx = none)
    (hoffered : ∃ b ms, s.moves = .cmd b :: ms) (h : takeCommand s = .next t) : Inv t := by
  have hfb := hinv.fb_wf
  have hram := hinv.ram_wf
  rcases takeCommand_cases h with ⟨i, rest, hdecode, hexec⟩ | ⟨op, -, rfl⟩ | ⟨hcut, rfl⟩
  · exact exec_command_inv (s := dispatched _ _ s) (decodeCommand_space hdecode) hfb hram htx hexec
  · exact (inv_faulted_iff rfl).mpr ⟨hfb, hram, rfl, htx⟩
  · obtain ⟨b, ms, hmoves⟩ := hoffered
    have hne : takenBefore s ++ cmdOffered s.moves ≠ [] := by simp [hmoves, cmdOffered]
    exact awaitBytes_inv hne hcut _ hfb hram hfault htx

/-- What the host does on its other wires keeps the invariant. -/
theorem hostMove_inv {m : HostMove} {s t : State} (hm : ∀ b, m ≠ .cmd b) (hinv : Inv s)
    (h : hostMove m s = .next t) : Inv t := by
  rcases hostMove_cases hm h with ⟨-, rfl⟩ | ⟨n, -, rfl⟩ | ⟨b, i, -, hdecode, hexec⟩
  · exact (inv_idle_iff rfl).mpr ⟨rfl, hinv.ram_wf, rfl, rfl⟩
  · exact hinv.set_environment hinv.ram_wf s.moves _ s.draws
  · exact exec_device_inv (decodeDevice_space hdecode) hinv hexec

theorem fault_of_cmdReady {s : State} (h : cmdReady s = true) : s.fault = false := by
  simp only [cmdReady, Bool.and_eq_true, Bool.not_eq_true'] at h
  exact h.1

/-- Settles O42: each kind of step of `step_cases` keeps the invariant. -/
theorem stepKeepsTheInvariant : Obligations.StepKeepsTheInvariant := by
  unfold Obligations.StepKeepsTheInvariant
  intro s t hinv h
  rcases step_cases h with ⟨e, he, -, -, -, rfl⟩ | ⟨-, -, -, -, rfl⟩ | ⟨htx, -, hs, -, rfl⟩ |
    ⟨htx, hready, -, hoffered, hcommand⟩ | ⟨m, ms, hother, hmove⟩
  · exact resumeUpdate_inv hinv he
  · exact hinv
  · exact resumeText_inv hinv hs htx
  · exact takeCommand_inv hinv (fault_of_cmdReady hready) htx hoffered hcommand
  · exact hostMove_inv (otherMove_not_cmd hother) (hinv.set_environment hinv.ram_wf ms s.txCredit s.draws) hmove

/-! ## The state after reset, and the flags -/

/-- Settles O41: reset leaves an idle engine with FB blank and nothing offered. -/
theorem resetMeetsTheInvariant : Obligations.ResetMeetsTheInvariant := by
  unfold Obligations.ResetMeetsTheInvariant
  exact (inv_idle_iff rfl).mpr ⟨wf_nil, rfl, rfl, rfl⟩

/-- A blank FB reads 0x00 everywhere, so every pixel is clear. -/
theorem pixelRead_nil {x y : Int} (h : IsPixel x y) : pixelRead [] x y = some false := by
  rw [pixelRead_in [] h]
  simp [fbRead, memFind]

/-- Settles O37: field by field. -/
theorem resetStateIsBlank : Obligations.ResetStateIsBlank := by
  unfold Obligations.ResetStateIsBlank
  exact ⟨fun _ => rfl, fun _ _ => pixelRead_nil, rfl, rfl, rfl, rfl, rfl, rfl, ⟨rfl, rfl, rfl⟩, rfl, rfl, rfl, rfl, rfl⟩

/-- BUSY by SEQ (spec/10_state.md R18). -/
theorem busy_iff (s : State) : busy s = true ↔ s.seq = .operands ∨ s.seq = .exec := by
  unfold busy
  cases s.seq <;> simp

/-- An idle engine to which nothing is offered stays as it is (spec/60_exceptions.md R123). -/
theorem step_idle_nil {s : State} (hs : s.seq = .idle) (hfault : s.fault = false) (htx : s.tx = none)
    (hmoves : s.moves = []) : step s = .next s := by
  simp [step, sequence, stepReady, cmdReady, hs, hfault, htx, hmoves]

/-- Settles O49: the invariant ties FAULT and the TX port to SEQ, and the flags follow. -/
theorem flagsFollowTheSequencer : Obligations.FlagsFollowTheSequencer := by
  unfold Obligations.FlagsFollowTheSequencer
  intro s hinv
  refine ⟨busy_iff s, fun hfault => ?_, fun hs => ?_, fun hs hmoves => ?_⟩
  · have hs := hinv.fault_iff.mp hfault
    obtain ⟨-, -, -, htx⟩ := (inv_faulted_iff hs).mp hinv
    simp [hs, busy, cmdReady, hfault, txValid, htx]
  · obtain ⟨-, -, hfault, htx⟩ := (inv_idle_iff hs).mp hinv
    simp [hs, busy, cmdReady, hfault, txValid, htx]
  · obtain ⟨-, -, hfault, htx⟩ := (inv_idle_iff hs).mp hinv
    exact step_idle_nil hs hfault htx hmoves

/-! ## The rectangle registers -/

theorem rectColumn_succ (y : Int) (h : Nat) (c : Bool) (p : RectRegs × Memory) :
    rectColumn y (h + 1) c p = ({ (rectColumn y h c p).1 with rj := y + h },
      pixelWrite (rectColumn y h c p).1.ri (y + h) c (rectColumn y h c p).2) := by
  simp only [rectColumn, List.range_succ, List.foldl_append, List.foldl_cons, List.foldl_nil]

/-- The inner scan moves RJ alone: it ends on the last row of the rectangle (spec/41_raster.md R83). -/
theorem rectColumn_regs (y : Int) (h : Nat) (c : Bool) (p : RectRegs × Memory) :
    (rectColumn y h c p).1 = { p.1 with rj := if h = 0 then p.1.rj else y + h - 1 } := by
  induction h with
  | zero => rfl
  | succ h ih =>
    rw [rectColumn_succ, ih, if_neg (Nat.succ_ne_zero h), Nat.cast_succ, ← Int.add_assoc, Int.add_sub_cancel]

/-- The outer scan of `RectFill`, from where the registers stand after its loads (R83). -/
def fillScan (x y : Int) (w h : Nat) (c : Bool) (p : RectRegs × Memory) : RectRegs × Memory :=
  (List.range w).foldl (fun q (i : Nat) => rectColumn y h c ({ q.1 with ri := x + (i : Int) }, q.2)) p

theorem rectFill_eq_fillScan (x y : Int) (w h : Nat) (c : Bool) (p : RectRegs × Memory) :
    rectFill x y w h c p = fillScan x y w h c ({ p.1 with rxe := x + (w : Int), rye := y + (h : Int) }, p.2) := rfl

theorem fillScan_succ (x y : Int) (w h : Nat) (c : Bool) (p : RectRegs × Memory) :
    fillScan x y (w + 1) h c p =
      rectColumn y h c ({ (fillScan x y w h c p).1 with ri := x + w }, (fillScan x y w h c p).2) := by
  simp only [fillScan, List.range_succ, List.foldl_append, List.foldl_cons, List.foldl_nil]

/-- The outer scan moves RI and RJ alone: they end in the last column and, where it has rows, on the last of them. -/
theorem fillScan_regs (x y : Int) (w h : Nat) (c : Bool) (p : RectRegs × Memory) :
    (fillScan x y w h c p).1 =
      { p.1 with ri := if w = 0 then p.1.ri else x + w - 1
                 rj := if w = 0 ∨ h = 0 then p.1.rj else y + h - 1 } := by
  induction w with
  | zero => simp [fillScan]
  | succ w ih =>
    rw [fillScan_succ, rectColumn_regs, ih]
    by_cases hh : h = 0 <;> simp [hh, ← Int.add_assoc]

/-- The registers after `RectFill`. -/
theorem rectFill_regs (x y : Int) (w h : Nat) (c : Bool) (p : RectRegs × Memory) :
    (rectFill x y w h c p).1 =
      { p.1 with rxe := x + w, rye := y + h
                 ri := if w = 0 then p.1.ri else x + w - 1
                 rj := if w = 0 ∨ h = 0 then p.1.rj else y + h - 1 } := by
  rw [rectFill_eq_fillScan, fillScan_regs]

/-- The registers after `RectOutline`: the far corner, and the last of the four segments (R84). -/
theorem rectOutline_regs (x y : Int) (w h : Nat) (c : Bool) (p : RectRegs × LineRegs × Memory) :
    (rectOutline x y w h c p).1 = { p.1 with xr := x + w - 1, yb := y + h - 1, edge := 3 } := rfl

/-- An operand byte is an integer of 0 to 255 (spec/30_encoding.md R53). -/
theorem zext_bounds (b : Byte) : 0 ≤ zext b ∧ zext b ≤ 255 := by
  have := b.isLt
  simp only [zext, Int.ofNat_eq_natCast]
  omega

theorem natCast_toNat_eq_zext (b : Byte) : (b.toNat : Int) = zext b := rfl

theorem toNat_eq_zero_iff (b : Byte) : b.toNat = 0 ↔ b = 0 := BitVec.toNat_inj (y := 0)

theorem zext_pos {b : Byte} (h : b ≠ 0) : 0 < zext b :=
  Int.natCast_pos.mpr (Nat.pos_of_ne_zero (mt (toNat_eq_zero_iff b).mp h))

/-- Settles O55: by the registers' closed forms, and operands of one byte. -/
theorem rectRegistersStayInRange : Obligations.RectRegistersStayInRange := by
  unfold Obligations.RectRegistersStayInRange
  intro x y w h c r l fb
  have hx := zext_bounds x
  have hy := zext_bounds y
  have hw := zext_bounds w
  have hh := zext_bounds h
  simp only [rectOutline_regs, rectFill_regs, natCast_toNat_eq_zext, toNat_eq_zero_iff]
  refine ⟨⟨by omega, by omega, le_refl 3⟩, trivial, trivial, by omega, by omega, fun hw0 => ?_, fun hw0 hh0 => ?_⟩
  · have := zext_pos hw0
    rw [if_neg hw0]
    omega
  · have := zext_pos hh0
    rw [if_neg (not_or.mpr ⟨hw0, hh0⟩)]
    omega

end Sys2Proof.Machine
end

section
/-! A command of the stream is taken whole at a command boundary, and a program that the host delivers runs as the
composition of its commands (spec/20_memory.md R35, R37). -/

namespace Sys2Proof.Machine

/-! ## The decoder reads an encoding back -/

/-- Decoding an encoding gives the command back and leaves the bytes that follow (spec/30_encoding.md R51 to R55). -/
theorem decodeCommand_encode {i : Instr} (hw : i.wf = true) (hc : i.space = .command) (rest : List Byte) :
    decodeCommand (encode i ++ rest) = .ok i rest := by
  cases i with
  | clear | clearArea | displayUpdate => rfl
  | setPixel c | drawLine c | drawChar c => cases c <;> rfl
  | drawRect c f => cases c <;> cases f <;> rfl
  | drawString c x y text =>
    have hlen : (BitVec.ofNat 8 text.length).toNat = text.length := by
      have := of_decide_eq_true hw
      simp only [Config.strMax] at this
      rw [BitVec.toNat_ofNat, Nat.mod_eq_of_lt (by omega)]
    have hop : decodeCommand (encode (.drawString c x y text) ++ rest) =
        decodeOperands .drawString c (filledBit (0x70 ||| bitByte c))
          (x :: y :: BitVec.ofNat 8 text.length :: (text ++ rest)) := by
      cases c <;> rfl
    simp [hop, decodeOperands, hlen]
  | _ => cases hc

/-- Every encoding has a first byte. -/
theorem encode_ne_nil (i : Instr) : encode i ≠ [] := by
  cases i <;> simp [encode]

theorem decodeDevice_bias (m : DevMode) (bias : BitVec 3) :
    decodeDevice m (0x10 ||| bias.setWidth 8) = some (.devSetBias bias) := by
  revert bias
  cases m <;> decide

theorem decodeDevice_page (m : DevMode) (page : BitVec 3) :
    decodeDevice m (0x40 ||| page.setWidth 8) = some (.devSetYPage page) := by
  revert page
  cases m <;> decide

/-- A device in basic mode reads `0x80 | v` as a column (spec/30_encoding.md R60, spec/90_conflicts.md C5). -/
theorem decodeDevice_basic_column : ∀ v : BitVec 7,
    decodeDevice .basic (0x80 ||| v.setWidth 8) = some (.devSetXColumn v) := by decide

/-- A device in extended mode reads `0x80 | v` as a contrast level (R60, C5). -/
theorem decodeDevice_extended_vop : ∀ v : BitVec 7,
    decodeDevice .extended (0x80 ||| v.setWidth 8) = some (.devSetVop v) := by decide

/-- The device reads the byte of a device row, in either mode, as a row that does the same (spec/30_encoding.md R60, log
entry 14). -/
theorem decodeDevice_encode {i : Instr} (hd : i.space = .device) (m : DevMode) :
    ∃ b j, encode i = [b] ∧ decodeDevice m b = some j ∧ ∀ n d, deviceCommand n j d = deviceCommand n i d := by
  cases i with
  | devFunctionSetExtended | devFunctionSetBasic | devDisplayControlNormal =>
    exact ⟨_, _, rfl, rfl, fun _ _ => rfl⟩
  | devSetBias bias => exact ⟨_, _, rfl, decodeDevice_bias m bias, fun _ _ => rfl⟩
  | devSetYPage page => exact ⟨_, _, rfl, decodeDevice_page m page, fun _ _ => rfl⟩
  | devSetVop v | devSetXColumn v =>
    cases m with
    | basic => exact ⟨_, _, rfl, decodeDevice_basic_column v, fun _ _ => rfl⟩
    | extended => exact ⟨_, _, rfl, decodeDevice_extended_vop v, fun _ _ => rfl⟩
  | _ => cases hd

/-! ## A step at a command boundary -/

/-- At a command boundary a byte offered on the command port is taken. -/
theorem step_of_cmd {s : State} {b : Byte} {ms : List HostMove} (hs : CleanEntry s) (hm : s.moves = .cmd b :: ms) :
    step s = takeCommand s := by
  obtain ⟨hseq, hfault, htx⟩ := hs
  simp [step, sequence, stepReady, cmdReady, hseq, hfault, htx, hm]

/-- At a command boundary a byte the host sends the device gets there. -/
theorem step_of_dev {s : State} {b : Byte} {ms : List HostMove} (hs : CleanEntry s) (hm : s.moves = .dev b :: ms) :
    step s = hostMove (.dev b) { s with moves := ms } := by
  obtain ⟨hseq, hfault, htx⟩ := hs
  simp [step, sequence, stepReady, cmdReady, hseq, hfault, htx, hm]

/-- An idle engine takes the whole command whose encoding comes first among the bytes offered. -/
theorem takeCommand_idle {s : State} {i : Instr} {rest : List Byte} (hs : s.seq = .idle)
    (hoffered : cmdOffered s.moves = encode i ++ rest) (hdecode : decodeCommand (encode i ++ rest) = .ok i rest) :
    takeCommand s = exec i (dispatched (encode i) (encode i).length s) := by
  simp [takeCommand, takenBefore, hs, hoffered, hdecode]

/-- At a command boundary a step runs the command whose bytes the host offers next (spec/20_memory.md R35). -/
theorem step_of_encode {i : Instr} {ms : List HostMove} {s : State} (hw : i.wf = true) (hc : i.space = .command)
    (hs : CleanEntry s) (hm : s.moves = (encode i).map .cmd ++ ms) :
    step s = exec i (dispatched (encode i) (encode i).length s) := by
  have hseq : s.seq = .idle := hs.1
  obtain ⟨b, bs, hbytes⟩ := List.exists_cons_of_ne_nil (encode_ne_nil i)
  have hcmd : s.moves = .cmd b :: (bs.map .cmd ++ ms) := by rw [hm, hbytes]; rfl
  rw [step_of_cmd hs hcmd]
  exact takeCommand_idle hseq (by rw [hm, cmdOffered_append]) (decodeCommand_encode hw hc _)

/-- Settles O32: the bytes offered decode to the command, and as many moves are spent as it has bytes. -/
theorem stepRunsTheDecodedCommand : Obligations.StepRunsTheDecodedCommand := by
  unfold Obligations.StepRunsTheDecodedCommand
  intro i ms s hw hc hs hm
  exact ⟨step_of_encode hw hc hs hm, by simp [hm]⟩

/-! ## What a command reads -/

/-- FB after the characters of a string depends neither on the glyph sequencer's registers nor on the character register
(spec/42_glyph.md R93). -/
theorem textRun_fb_regs (c : Bool) (chars : List Byte) {p q : TextRegs × GlyphRegs × Memory}
    (ht : ∃ ch, p.1 = { q.1 with ch := ch }) (hfb : p.2.2 = q.2.2) :
    (textRun c chars p).2.2 = (textRun c chars q).2.2 := by
  induction chars generalizing p q with
  | nil => exact hfb
  | cons a chars ih =>
    obtain ⟨t, g, fb⟩ := p
    obtain ⟨t', g', fb'⟩ := q
    obtain ⟨ch, rfl⟩ : ∃ ch, t = { t' with ch := ch } := ht
    obtain rfl : fb = fb' := hfb
    rw [textRun_cons, textRun_cons]
    cases hstop : t'.stopped with
    | true => exact ih ⟨ch, by simp [textChar, hstop]⟩ (by simp [textChar, hstop])
    | false =>
      refine ih ⟨(textChar c ({ t' with ch := ch }, g, fb) a).1.ch, ?_⟩ ?_
      · simp [textChar, hstop]
      · simpa [textChar, hstop] using glyphDraw_fb_regs t'.cx t'.cy a c g g' fb

/-- The sequencer `body` decides FB alone of what the command leaves behind, and FB after it is `f` of FB before it. -/
def DrawsBy (f : Memory → Memory) (body : State → State) : Prop :=
  ∀ s, finish (body s) = finish { s with fb := f s.fb }

theorem runCommand_of_drawsBy {f : Memory → Memory} {body : State → State} (h : DrawsBy f body) {s : State}
    (hfault : s.fault = false) : runCommand body s = .next (finish { s with fb := f s.fb }) := by
  rw [runCommand_eq hfault, h s]

theorem fillState_drawsBy (x y w h : Byte) (c : Bool) :
    DrawsBy (paintPoints c (fillPoints (zext x) (zext y) w.toNat h.toNat)) (fillState x y w h c) := fun s =>
  congrArg (fun fb => finish { s with fb := fb }) (rectFill_fb _ _ _ _ c (s.work.rect, s.fb))

/-- FB after a command that only draws depends on the former FB alone (spec/20_memory.md R37, R38). -/
theorem exec_drawsBy {i : Instr} (hc : i.space = .command) (hu : i ≠ .displayUpdate) :
    ∃ body f, (∀ s, exec i s = runCommand body s) ∧ DrawsBy f body := by
  cases i with
  | clear => exact ⟨_, clearBytes, fun _ => rfl, fun _ => rfl⟩
  | setPixel on x y => exact ⟨_, pixelWrite (zext x) (zext y) on, fun _ => rfl, fun _ => rfl⟩
  | drawLine c x0 y0 x1 y1 =>
    exact ⟨_, fun fb => (lineDraw (zext x0) (zext y0) (zext x1) (zext y1) c fb).2, fun _ => rfl, fun _ => rfl⟩
  | drawRect c filled x y w h =>
    cases filled with
    | true => exact ⟨_, _, fun _ => rfl, fillState_drawsBy x y w h c⟩
    | false =>
      exact ⟨_,
        fun fb => (rectOutline (zext x) (zext y) w.toNat h.toNat c (Work.reset.rect, Work.reset.line, fb)).2.2,
        fun _ => rfl, fun _ => rfl⟩
  | clearArea x y w h => exact ⟨_, _, fun _ => rfl, fillState_drawsBy x y w h false⟩
  | drawChar c x y code =>
    exact ⟨_, fun fb => (glyphDraw x.toNat y.toNat code c (Work.reset.glyph, fb)).2, fun _ => rfl, fun s =>
      congrArg (fun fb => finish { s with fb := fb }) (glyphDraw_fb_regs _ _ _ _ s.work.glyph _ _)⟩
  | drawString c x y text =>
    exact ⟨_,
      fun fb =>
        (textRun c text (textStart x.toNat y.toNat text.length Work.reset.text, Work.reset.glyph, fb)).2.2,
      fun _ => rfl, fun s => congrArg (fun fb => finish { s with fb := fb }) (textRun_fb_regs c text ⟨_, rfl⟩ rfl)⟩
  | displayUpdate => exact absurd rfl hu
  | _ => cases hc

/-- With a live collaborator an update sends all its events and ends (spec/43_serializer.md R102, R104). -/
theorem txRun_of_live (es : List TxEvent) {s : State} (hlive : TxLive s) (htx : s.tx = none) :
    txRun es s = finish { s with
      trace := s.trace ++ es
      device := es.foldl (fun d e => deviceReceive s.draws e d) s.device } := by
  induction es generalizing s with
  | nil => simp
  | cons e es ih =>
    have hcredit : s.txCredit = none := hlive
    have hopen : txBlocked s = false := by simp [txBlocked, hcredit]
    have hlive' : TxLive (txAccept e s) := by simp [TxLive, hcredit]
    rw [txRun, if_neg (by simp [hopen]), ih hlive' rfl]
    simp [finish, hcredit, htx]

/-- The end of an update whose collaborator accepts every event: all of them are in TRACE, and the device has them. -/
def afterUpdate (s : State) : State :=
  finish { s with
    trace := s.trace ++ updateEvents s.fb
    device := (updateEvents s.fb).foldl (fun d e => deviceReceive s.draws e d) s.device }

/-- DISPLAY_UPDATE with a live collaborator (spec/43_serializer.md R102). -/
theorem execDisplayUpdate_of_live {s : State} (hfault : s.fault = false) (hlive : TxLive s) (htx : s.tx = none) :
    execDisplayUpdate s = .next (afterUpdate s) := by
  rw [execDisplayUpdate, if_neg (by simp [hfault])]
  exact congrArg Host.Outcome.next
    (txRun_of_live (updateEvents s.fb) (s := { s with work := { s.work with si := 0 } }) hlive htx)

/-- A command of the stream, on an engine that is not faulted, ends at a command boundary, and what it leaves depends
neither on SEQ, nor on what the working registers held, nor on what the host does next. -/
theorem exec_of_live {i : Instr} {s : State} (hc : i.space = .command) (hfault : s.fault = false) (htx : s.tx = none)
    (hlive : TxLive s) :
    ∃ t, CleanEntry t ∧ TxLive t ∧ ∀ q w ms,
      exec i { s with seq := q, work := w, moves := ms } = .next { t with moves := ms } := by
  by_cases hu : i = .displayUpdate
  · subst hu
    refine ⟨afterUpdate s, ⟨rfl, hfault, htx⟩, hlive, fun q w ms => ?_⟩
    have hend := execDisplayUpdate_of_live (s := { s with seq := q, work := w, moves := ms }) hfault hlive htx
    simpa only [exec, afterUpdate, finish] using hend
  · obtain ⟨body, f, hbody, hf⟩ := exec_drawsBy hc hu
    refine ⟨finish { s with fb := f s.fb }, ⟨rfl, hfault, htx⟩, hlive, fun q w ms => ?_⟩
    rw [hbody]
    exact runCommand_of_drawsBy hf hfault

/-! ## The run of a program -/

/-- At a command boundary a step runs the command the host delivers next, as it would run by itself: the step commutes
with the command, whatever the host does next (spec/20_memory.md R35, R37). -/
theorem step_of_deliver {i : Instr} {rest : List HostMove} {s : State} (hw : i.space = .command → i.wf = true)
    (hs : CleanEntry s) (hlive : TxLive s) (hm : s.moves = deliver i ++ rest) :
    ∃ t, step s = .next t ∧ CleanEntry t ∧ TxLive t ∧ t.moves = rest ∧
      ∀ ms, exec i { s with moves := ms } = .next { t with moves := ms } := by
  cases hsp : i.space with
  | command =>
    simp only [deliver, hsp] at hm
    have ⟨_, hfault, htx⟩ := hs
    obtain ⟨t, ht, hlt, hexec⟩ := exec_of_live hsp hfault htx hlive
    refine ⟨{ t with moves := rest }, ?_, ht, hlt, rfl, fun ms => hexec s.seq s.work ms⟩
    rw [step_of_encode (hw hsp) hsp hs hm]
    have hrest : s.moves.drop (encode i).length = rest := by simp [hm]
    rw [← hrest]
    exact hexec _ _ _
  | device =>
    obtain ⟨b, j, hbyte, hread, hsame⟩ := decodeDevice_encode hsp s.device.mode
    simp only [deliver, hsp, hbyte, List.map_cons, List.map_nil, List.cons_append, List.nil_append] at hm
    refine ⟨{ s with device := deviceCommand s.draws i s.device, moves := rest, draws := s.draws + 1 }, ?_, hs, hlive,
      rfl, fun ms => exec_of_device hsp _⟩
    simp only [step_of_dev hs hm, hostMove, hread, exec_of_device (decodeDevice_space hread), onDevice, hsame]

/-- A run whose first step answers a next state goes on from that state. -/
theorem run_succ_of_step {s t : State} (h : step s = .next t) (k : Nat) :
    Host.Core.run core (k + 1) s = Host.Core.run core k t := by
  have hcore : core.step s = .next t := h
  simp only [Host.Core.run, hcore]

/-- The run of a program that the host delivers, and the composition of its commands: from states that differ only in
what the host does next they end in such states, and the run at a command boundary with nothing left to take. -/
theorem run_of_delivers {program : List Instr} {s : State} (hs : CleanEntry s) (hlive : TxLive s)
    (hd : HostDelivers program s) (ms : List HostMove) :
    ∃ t, Host.Core.run core program.length s = .next t ∧ CleanEntry t ∧ t.moves = [] ∧
      runAll program { s with moves := ms } = .next { t with moves := ms } := by
  obtain ⟨hw, hm⟩ := hd
  induction program generalizing s with
  | nil => exact ⟨s, rfl, hs, hm, rfl⟩
  | cons i is ih =>
    rw [List.flatMap_cons] at hm
    obtain ⟨t, hstep, ht, hlt, htm, hexec⟩ := step_of_deliver (hw i (List.mem_cons_self ..)) hs hlive hm
    obtain ⟨v, hrun, hv, hvm, hall⟩ := ih ht hlt (fun j hj => hw j (List.mem_cons_of_mem i hj)) htm
    refine ⟨v, ?_, hv, hvm, ?_⟩
    · rw [List.length_cons, run_succ_of_step hstep, hrun]
    · simp only [runAll, hexec]
      exact hall

/-- Settles O47: step by step the run commutes with the composition (`run_of_delivers`), from the same state. -/
theorem programRunIsTheComposition : Obligations.ProgramRunIsTheComposition := by
  unfold Obligations.ProgramRunIsTheComposition
  intro program s hs hlive hd
  obtain ⟨t, hrun, ht, htm, hall⟩ := run_of_delivers hs hlive hd s.moves
  exact ⟨t, { t with moves := s.moves }, hrun, hall, htm, runEnded_of_moves_nil htm ht, rfl, rfl, rfl⟩

end Sys2Proof.Machine
end

section
/-! The encodings of the command stream and of the device rows are read back, and what the device rows do
(spec/30_encoding.md R51 to R60). -/

namespace Sys2Proof

/-! ## Opcode bytes -/

/-- The opcode byte of an operation with these colour and filled bits (spec/30_encoding.md R52, R54). -/
def opcodeByte : Opcode → Bool → Bool → Byte
  | .clear, _, _ => 0x10
  | .setPixel, c, _ => 0x20 ||| bitByte c
  | .drawLine, c, _ => 0x30 ||| bitByte c
  | .drawRect, c, f => 0x40 ||| (bitByte f <<< 1) ||| bitByte c
  | .clearArea, _, _ => 0x50
  | .drawChar, c, _ => 0x60 ||| bitByte c
  | .drawString, c, _ => 0x70 ||| bitByte c
  | .displayUpdate, _, _ => 0x80

/-- A legal opcode byte is its operation's pattern with the bits `C` and `F` that the decoder reads from it. -/
theorem eq_opcodeByte_of_opcodeOf :
    ∀ {op : Byte}, ∀ o ∈ opcodeOf op, op = opcodeByte o (colourBit op) (filledBit op) := by
  decide

/-- What the decoder reads after the opcode byte of an operation is a well-formed command, and the opcode byte with the
operand bytes is its encoding. -/
theorem encode_of_decodeOperands {o : Opcode} {c f : Bool} {args rest : List Byte} {i : Instr}
    (h : decodeOperands o c f args = .ok i rest) :
    i.wf = true ∧ opcodeByte o c f :: args = encode i ++ rest := by
  unfold decodeOperands at h
  cases o with
  | clear | displayUpdate => cases h; exact ⟨rfl, rfl⟩
  | setPixel | drawLine | drawRect | clearArea | drawChar =>
    dsimp only at h
    split at h
    · cases h; exact ⟨rfl, rfl⟩
    · cases h
  | drawString =>
    dsimp only at h
    split at h
    · split at h
      · rename_i x y len chars hlen
        cases h
        have hlength : (chars.take len.toNat).length = len.toNat := List.length_take_of_le hlen
        have hbyte : len.toNat ≤ 255 := Nat.le_of_lt_succ len.isLt
        simp [Instr.wf, encode, opcodeByte, hlength, hbyte]
      · cases h
    · cases h

/-- Settles O26, with `decodeCommand_encode`. -/
theorem decodeEncodeCommand : Obligations.DecodeEncodeCommand := by
  unfold Obligations.DecodeEncodeCommand
  exact fun _ rest hw hc => Machine.decodeCommand_encode hw hc rest

/-- Settles O27: the opcode byte is its operation's pattern with the bits read from it, the rest is
`encode_of_decodeOperands`. -/
theorem decodedBytesAreTheEncoding : Obligations.DecodedBytesAreTheEncoding := by
  unfold Obligations.DecodedBytesAreTheEncoding
  intro bytes rest i h
  have hspace := Machine.decodeCommand_space h
  unfold decodeCommand at h
  split at h
  · cases h
  · rename_i op args
    split at h
    · cases h
    · rename_i o ho
      obtain ⟨hw, hbytes⟩ := encode_of_decodeOperands h
      rw [← eq_opcodeByte_of_opcodeOf o ho] at hbytes
      exact ⟨hw, hspace, hbytes⟩

/-- Settles O29, by the 256 opcode bytes. -/
theorem illegalOpcodeBytes : Obligations.IllegalOpcodeBytes := by
  unfold Obligations.IllegalOpcodeBytes
  constructor
  · decide
  · decide +kernel

/-! ## Illegal bytes -/

/-- Operand bytes are never illegal (spec/30_encoding.md R57). -/
theorem decodeOperands_ne_illegalOpcode (o : Opcode) (c f : Bool) (args : List Byte) (b : Byte) :
    decodeOperands o c f args ≠ .illegalOpcode b := by
  intro h
  unfold decodeOperands at h
  cases o with
  | clear | displayUpdate => cases h
  | setPixel | drawLine | drawRect | clearArea | drawChar =>
    dsimp only at h
    split at h <;> cases h
  | drawString =>
    dsimp only at h
    split at h
    · split at h <;> cases h
    · cases h

/-- The decoder finds an illegal byte exactly where the opcode byte selects no operation (R56, R57). -/
theorem decodeCommand_illegalOpcode_iff {op b : Byte} {args : List Byte} :
    decodeCommand (op :: args) = .illegalOpcode b ↔ opcodeOf op = none ∧ op = b := by
  simp only [decodeCommand]
  split
  · rename_i ho
    simp [ho]
  · rename_i o ho
    simp [ho, decodeOperands_ne_illegalOpcode]

/-- Settles O30: only an opcode byte that selects no operation is illegal (`decodeCommand_illegalOpcode_iff`). -/
theorem operandBytesAreNeverIllegal : Obligations.OperandBytesAreNeverIllegal := by
  unfold Obligations.OperandBytesAreNeverIllegal
  intro op args hlegal b h
  exact hlegal (decodeCommand_illegalOpcode_iff.mp h).1

/-- Settles O31, word by word. -/
theorem writtenWordsDecode : Obligations.WrittenWordsDecode := by
  unfold Obligations.WrittenWordsDecode
  exact ⟨rfl, rfl, rfl, rfl, rfl, rfl, rfl, rfl, rfl⟩

/-! ## Device rows -/

/-- Settles O28: each row by its bit pattern, the two rows of one pattern by the device's mode. -/
theorem decodeEncodeDeviceByte : Obligations.DecodeEncodeDeviceByte := by
  unfold Obligations.DecodeEncodeDeviceByte
  intro i hd
  cases i with
  | devFunctionSetExtended | devFunctionSetBasic | devDisplayControlNormal =>
    exact ⟨_, rfl, fun _ => rfl, fun _ => rfl⟩
  | devSetBias bias =>
    exact ⟨_, rfl, fun _ => Machine.decodeDevice_bias .basic bias,
      fun _ => Machine.decodeDevice_bias .extended bias⟩
  | devSetYPage page =>
    exact ⟨_, rfl, fun _ => Machine.decodeDevice_page .basic page,
      fun _ => Machine.decodeDevice_page .extended page⟩
  | devSetVop level =>
    exact ⟨_, rfl, fun hne => absurd rfl (hne level), fun _ => Machine.decodeDevice_extended_vop level⟩
  | devSetXColumn col =>
    exact ⟨_, rfl, fun _ => Machine.decodeDevice_basic_column col, fun hne => absurd rfl (hne col)⟩
  | _ => cases hd

end Sys2Proof

namespace Sys2Proof.Machine

/-- A device row completes, does to the device what the device does with its byte, and leaves the engine alone
(spec/30_encoding.md R60). -/
theorem exec_device_next {i : Instr} (hd : i.space = .device) (s : State) :
    ∃ t, exec i s = .next t ∧ t.device = deviceCommand s.draws i s.device ∧ SameEngine s t :=
  ⟨_, exec_of_device hd s, rfl, rfl, rfl, rfl, rfl, rfl, rfl, rfl, rfl⟩

/-- Settles O54: `exec_device_next`, and no command byte touches the device's memory. -/
theorem everyDeviceByteRuns : Obligations.EveryDeviceByteRuns := by
  unfold Obligations.EveryDeviceByteRuns
  intro i s hd
  obtain ⟨t, hexec, hdevice, hsame⟩ := exec_device_next hd s
  exact ⟨t, hexec, hsame, by rw [hdevice, deviceCommand_ram]⟩

/-- Settles O22: the three rows set the mode and the display flag whatever the device's mode is. -/
theorem deviceModeBytesTakeEffect : Obligations.DeviceModeBytesTakeEffect := by
  unfold Obligations.DeviceModeBytesTakeEffect
  intro s
  exact ⟨exec_device_next (i := .devFunctionSetExtended) rfl s, exec_device_next (i := .devFunctionSetBasic) rfl s,
    exec_device_next (i := .devDisplayControlNormal) rfl s⟩

theorem columnOrContrast_extended (n : Nat) (v : BitVec 7) {d : Device} (h : d.mode = .extended) :
    columnOrContrast n v d = { d with vop := v } := by
  simp only [columnOrContrast, h]

theorem columnOrContrast_basic (n : Nat) (v : BitVec 7) {d : Device} (h : d.mode = .basic) :
    columnOrContrast n v d = selectColumn n v d := by
  simp only [columnOrContrast, h]

theorem selectColumn_of_lt (n : Nat) {v : BitVec 7} (h : v.toNat < 84) (d : Device) :
    selectColumn n v d = { d with col := ⟨v.toNat, h⟩ } := by
  simp only [selectColumn, dif_pos h]

theorem selectPage_of_lt (n : Nat) {p : BitVec 3} (h : p.toNat < 6) (d : Device) :
    selectPage n p d = { d with page := ⟨p.toNat, h⟩ } := by
  simp only [selectPage, dif_pos h]

theorem setBias_extended (n : Nat) (b : BitVec 3) {d : Device} (h : d.mode = .extended) :
    setBias n b d = { d with bias := b } := by
  simp only [setBias, h]

/-- Settles O23: each row is `exec_device_next`, and the device's mode says what the byte sets. -/
theorem deviceRegisterBytesTakeEffect : Obligations.DeviceRegisterBytesTakeEffect := by
  unfold Obligations.DeviceRegisterBytesTakeEffect
  intro s
  refine ⟨fun v hmode => ?_, fun v hv hmode => ?_, fun b hmode => ?_, fun p hp => ?_⟩
  · obtain ⟨t, ht, htd, hts⟩ := exec_device_next (i := .devSetVop v) rfl s
    obtain ⟨u, hu, hud, hus⟩ := exec_device_next (i := .devSetXColumn v) rfl s
    have hset := columnOrContrast_extended s.draws v hmode
    exact ⟨t, u, ht, hu, htd.trans hset, hud.trans hset, hts, hus⟩
  · obtain ⟨t, ht, htd, hts⟩ := exec_device_next (i := .devSetXColumn v) rfl s
    obtain ⟨u, hu, hud, hus⟩ := exec_device_next (i := .devSetVop v) rfl s
    have hset := (columnOrContrast_basic s.draws v hmode).trans (selectColumn_of_lt s.draws hv s.device)
    exact ⟨t, u, ht, hu, htd.trans hset, hud.trans hset, hts, hus⟩
  · obtain ⟨t, ht, htd, hts⟩ := exec_device_next (i := .devSetBias b) rfl s
    exact ⟨t, ht, htd.trans (setBias_extended s.draws b hmode), hts⟩
  · obtain ⟨t, ht, htd, hts⟩ := exec_device_next (i := .devSetYPage p) rfl s
    exact ⟨t, ht, htd.trans (selectPage_of_lt s.draws hp s.device), hts⟩

theorem setBias_frame (n : Nat) (b : BitVec 3) (d : Device) :
    setBias n b d = { d with bias := (setBias n b d).bias } := by
  unfold setBias
  split <;> rfl

/-- Settles O24: whatever value the register gets, the row writes no other. -/
theorem unstatedDeviceOperandsChangeOneRegister : Obligations.UnstatedDeviceOperandsChangeOneRegister := by
  unfold Obligations.UnstatedDeviceOperandsChangeOneRegister
  intro s
  refine ⟨fun b => ?_, fun p => ?_, fun c hmode => ?_⟩
  · obtain ⟨t, ht, htd, hts⟩ := exec_device_next (i := .devSetBias b) rfl s
    exact ⟨t, ht, by rw [htd]; exact setBias_frame s.draws b s.device, hts⟩
  · obtain ⟨t, ht, htd, hts⟩ := exec_device_next (i := .devSetYPage p) rfl s
    exact ⟨t, ht, by rw [htd]; rfl, hts⟩
  · obtain ⟨t, ht, htd, hts⟩ := exec_device_next (i := .devSetXColumn c) rfl s
    obtain ⟨u, hu, hud, hus⟩ := exec_device_next (i := .devSetVop c) rfl s
    have hset := columnOrContrast_basic s.draws c hmode
    have htd' : t.device = selectColumn s.draws c s.device := htd.trans hset
    have hud' : u.device = selectColumn s.draws c s.device := hud.trans hset
    exact ⟨⟨t, ht, by rw [htd']; rfl, hts⟩, u, hu, by rw [hud']; rfl, hus⟩

end Sys2Proof.Machine
end

section
/-! The layout of a string's characters: where the cursor of the text block stands after some of them, and the FB they
leave (spec/42_glyph.md R93, R95). -/

namespace Sys2Proof.Machine

/-! ## The cursors of a text block -/

/-- The text registers before character `k` of a block from `(x, y)` (spec/42_glyph.md R95): the cursor is at the
character's cell, and the layout has stopped where the block has no room for it. -/
def CursorAt (x y k : Nat) (t : TextRegs) : Prop :=
  t.x0 = x ∧ t.cx = x + 6 * (k % cellsPerLine x) ∧ t.cy = y + 8 * (k / cellsPerLine x) ∧
    (t.stopped = true ↔ cellsPerLine x * linesFrom y ≤ k)

theorem cellsPerLine_pos (x : Nat) : 0 < cellsPerLine x := Nat.lt_of_lt_of_le Nat.zero_lt_one (Nat.le_max_left ..)

theorem linesFrom_pos (y : Nat) : 0 < linesFrom y := by
  unfold linesFrom
  split_ifs <;> omega

theorem textStart_cursor (x y len : Nat) (t : TextRegs) : CursorAt x y 0 (textStart x y len t) := by
  have hroom : 0 < cellsPerLine x * linesFrom y := Nat.mul_pos (cellsPerLine_pos x) (linesFrom_pos y)
  refine ⟨rfl, by simp [textStart], by simp [textStart], ?_⟩
  simp [textStart, Nat.not_le.mpr hroom, -Nat.le_zero_eq]

/-- The wrap test passes in a line's last cell (R95 item 2). -/
theorem wraps_iff {x j : Nat} (hj : j < cellsPerLine x) : x + 6 * j + 6 + 6 > 84 ↔ j + 1 = cellsPerLine x := by
  unfold cellsPerLine at hj ⊢
  omega

/-- The truncation test passes after a block's last line (R95 items 3 and 5). -/
theorem truncates_iff {y q : Nat} (hq : q < linesFrom y) : y + 8 * q + 8 + 8 > 48 ↔ q + 1 = linesFrom y := by
  unfold linesFrom at hq ⊢
  split_ifs at hq ⊢ <;> omega

/-- The advance after a character the block has room for moves the cursor to the next character's cell (R93, R95). -/
theorem textAdvance_cursor {x y k : Nat} {t : TextRegs} (h : CursorAt x y k t)
    (hroom : k < cellsPerLine x * linesFrom y) : CursorAt x y (k + 1) (textAdvance t) := by
  obtain ⟨hx0, hcx, hcy, hstopped⟩ := h
  have hn := cellsPerLine_pos x
  have hj := Nat.mod_lt k hn
  have hq : k / cellsPerLine x < linesFrom y := Nat.div_lt_of_lt_mul hroom
  have hk := Nat.div_add_mod k (cellsPerLine x)
  have hwrap := wraps_iff hj
  have htrunc := truncates_iff hq
  unfold CursorAt textAdvance
  generalize cellsPerLine x = n at *
  generalize k % n = j at *
  generalize k / n = q at *
  subst hk
  simp only [Config.cellW, Config.cellH, Config.width, Config.height, hcx, hcy, hwrap, htrunc]
  split_ifs with hlast
  · have hnext : n * q + j + 1 = n * (q + 1) := by rw [Nat.mul_add_one, Nat.add_assoc, hlast]
    refine ⟨hx0, ?_, ?_, ?_⟩
    · simp [hx0, hnext]
    · rw [hnext, Nat.mul_div_right _ hn]
      rfl
    · rw [hnext, decide_eq_true_eq, Nat.mul_le_mul_left_iff hn]
      omega
  · have hnext : j + 1 < n := by omega
    have hsucc : n * q + j + 1 = n * q + (j + 1) := Nat.add_assoc ..
    refine ⟨hx0, ?_, ?_, ?_⟩
    · rw [hsucc, Nat.mul_add_mod, Nat.mod_eq_of_lt hnext]
      rfl
    · rw [hsucc, Nat.mul_add_div hn, Nat.div_eq_of_lt hnext]
      rfl
    · have hend : n * (q + 1) ≤ n * linesFrom y := Nat.mul_le_mul_left n hq
      rw [Nat.mul_add_one] at hend
      rw [hstopped]
      omega

/-! ## FB after the characters of a string -/

/-- A character the block has room for is attempted at its cell, on the FB of those before it. -/
theorem textCells_append_of_lt {x y : Nat} {text : List Byte} (hroom : text.length < cellsPerLine x * linesFrom y)
    (ch : Byte) (c : Bool) (fb : Memory) :
    textCells x y (text ++ [ch]) c fb =
      (glyphDraw (x + 6 * (text.length % cellsPerLine x)) (y + 8 * (text.length / cellsPerLine x)) ch c
        (Work.reset.glyph, textCells x y text c fb)).2 := by
  have hmin : min (text.length + 1) (cellsPerLine x * linesFrom y) = text.length + 1 := Nat.min_eq_left hroom
  have hmin' : min text.length (cellsPerLine x * linesFrom y) = text.length := Nat.min_eq_left hroom.le
  simp only [textCells, List.length_append, List.length_singleton, hmin, hmin', List.range_succ, List.foldl_append,
    List.foldl_cons, List.foldl_nil, List.getD_append_right _ _ _ _ le_rfl, Nat.sub_self, List.getD_cons_zero]
  refine congrArg (fun m => (glyphDraw _ _ ch c (Work.reset.glyph, m)).2) (foldl_congr_mem (fun k hk m => ?_) fb)
  rw [List.getD_append _ _ _ _ (List.mem_range.mp hk)]

/-- A character the block has no room for draws nothing. -/
theorem textCells_append_of_le {x y : Nat} {text : List Byte} (hfull : cellsPerLine x * linesFrom y ≤ text.length)
    (ch : Byte) (c : Bool) (fb : Memory) : textCells x y (text ++ [ch]) c fb = textCells x y text c fb := by
  have hmin : min (text.length + 1) (cellsPerLine x * linesFrom y) = cellsPerLine x * linesFrom y :=
    Nat.min_eq_right (Nat.le_succ_of_le hfull)
  simp only [textCells, List.length_append, List.length_singleton, hmin, Nat.min_eq_right hfull]
  refine foldl_congr_mem (fun k hk m => ?_) fb
  rw [List.getD_append _ _ _ _ (Nat.lt_of_lt_of_le (List.mem_range.mp hk) hfull)]

/-- The layout of a string's characters puts them in the cells of R95, one after another until the block is full. -/
theorem textRun_layout (c : Bool) (x y len : Nat) (t : TextRegs) (g : GlyphRegs) (fb : Memory) (text : List Byte) :
    CursorAt x y (min text.length (cellsPerLine x * linesFrom y)) (textRun c text (textStart x y len t, g, fb)).1 ∧
      (textRun c text (textStart x y len t, g, fb)).2.2 = textCells x y text c fb := by
  induction text using List.reverseRecOn with
  | nil => exact ⟨by simpa using textStart_cursor x y len t, by simp [textCells]⟩
  | append_singleton text ch ih =>
    rw [textRun_append, textRun_cons, textRun_nil]
    generalize textRun c text (textStart x y len t, g, fb) = p at ih
    obtain ⟨hcursor, hfb⟩ := ih
    rw [List.length_append, List.length_singleton]
    by_cases hroom : text.length < cellsPerLine x * linesFrom y
    · rw [Nat.min_eq_left hroom.le] at hcursor
      rw [Nat.min_eq_left hroom, textCells_append_of_lt hroom, ← hfb]
      obtain ⟨hx0, hcx, hcy, hstopped⟩ := hcursor
      have hgo : ¬p.1.stopped = true := fun hs => Nat.not_le.mpr hroom (hstopped.mp hs)
      rw [textChar, if_neg hgo, ← hcx, ← hcy]
      exact ⟨textAdvance_cursor ⟨hx0, hcx, hcy, hstopped⟩ hroom, glyphDraw_fb_regs _ _ ch c p.2.1 _ p.2.2⟩
    · have hfull := Nat.le_of_not_lt hroom
      rw [Nat.min_eq_right hfull] at hcursor
      rw [Nat.min_eq_right (Nat.le_succ_of_le hfull), textCells_append_of_le hfull, ← hfb]
      obtain ⟨hx0, hcx, hcy, hstopped⟩ := hcursor
      rw [textChar, if_pos (hstopped.mpr le_rfl)]
      exact ⟨⟨hx0, hcx, hcy, hstopped⟩, rfl⟩

/-- FB after the characters of a string that have been taken. -/
theorem textState_textBegin_fb (c : Bool) (x y : Byte) (len : Nat) (text : List Byte) (s : State) :
    (textState c text (textBegin x y len s)).fb = textCells x.toNat y.toNat text c s.fb :=
  (textRun_layout c x.toNat y.toNat len s.work.text s.work.glyph s.fb text).2

end Sys2Proof.Machine
end

section
/-! A command whose bytes come in parts: the engine waits inside it, and goes on from there to the end that the bytes at
once lead to (spec/30_encoding.md R50, R55, R61). -/

namespace Sys2Proof.Machine

/-! ## The bytes of a command cut short -/

/-- An encoding cut short is no whole command: a command read from it would be another reading of the same
bytes. -/
theorem decodeCommand_of_cut {i : Instr} {p q : List Byte} (hw : i.wf = true) (hc : i.space = .command)
    (h : p ++ q = encode i) (hp : p ≠ []) (hq : q ≠ []) : decodeCommand p = .truncated := by
  have hwhole : decodeCommand (p ++ q) = .ok i [] := by
    simpa [h] using decodeCommand_encode hw hc []
  cases hread : decodeCommand p with
  | truncated => rfl
  | ok j rest =>
    obtain ⟨hjw, hjc, rfl⟩ := decodedBytesAreTheEncoding p rest j hread
    rw [List.append_assoc, decodeCommand_encode hjw hjc] at hwhole
    obtain ⟨-, hrest⟩ := DecodeResult.ok.inj hwhole
    exact absurd (List.append_eq_nil_iff.mp hrest).2 hq
  | illegalOpcode b =>
    obtain ⟨op, args, rfl⟩ := List.exists_cons_of_ne_nil hp
    have hillegal : decodeCommand (op :: args ++ q) = .illegalOpcode b :=
      decodeCommand_illegalOpcode_iff.mpr (decodeCommand_illegalOpcode_iff.mp hread)
    rw [hillegal] at hwhole
    cases hwhole

/-- A command whose opcode byte selects DRAW_STRING is a string. -/
theorem drawString_of_opcodeOf {i : Instr} {op : Byte} {args : List Byte} (hw : i.wf = true)
    (hc : i.space = .command) (h : encode i = op :: args) (ho : opcodeOf op = some .drawString) :
    ∃ c x y text, i = .drawString c x y text := by
  have hread := decodeCommand_encode hw hc []
  rw [h, List.append_nil, decodeCommand, ho] at hread
  simp only [decodeOperands] at hread
  split at hread
  · split at hread
    · exact ⟨_, _, _, _, (DecodeResult.ok.inj hread).1.symm⟩
    · cases hread
  · cases hread

/-! ## Latching bytes in parts -/

theorem getD_getD_of_length_le {α : Type} {a b : List α} (h : a.length ≤ b.length) (j : Nat) (d : α) :
    b.getD j (a.getD j d) = b.getD j d := by
  by_cases hj : j < b.length
  · simp [hj]
  · rw [List.getD_eq_default a d (by omega)]

/-- Operand bytes latched over fewer of them leave nothing of those. -/
theorem loadLatches_loadLatches (op : Byte) {a b : List Byte} (h : a.length ≤ b.length) (l : Latches) :
    loadLatches op b (loadLatches op a l) = loadLatches op b l := by
  simp only [loadLatches, getD_getD_of_length_le h]

theorem latchCount_le (o : Opcode) : latchCount o ≤ 4 := by
  cases o <;> decide

/-- The decoder latches every byte of a command cut short among its operand bytes. -/
theorem latchBytes_short {op : Byte} {args : List Byte} {o : Opcode} (ho : opcodeOf op = some o)
    (hshort : args.length < latchCount o) (l : Latches) : latchBytes (op :: args) l = loadLatches op args l := by
  simp [latchBytes, ho, List.take_of_length_le hshort.le]

/-- Bytes latched in two parts are bytes latched at once (spec/30_encoding.md R50). -/
theorem latchBytes_append {op : Byte} {args : List Byte} {o : Opcode} (ho : opcodeOf op = some o)
    (hshort : args.length < latchCount o) (q : List Byte) (l : Latches) :
    latchBytes (op :: args ++ q) (latchBytes (op :: args) l) = latchBytes (op :: args ++ q) l := by
  rw [latchBytes_short ho hshort, List.cons_append]
  refine loadLatches_loadLatches op ?_ l
  simp only [ho, Option.map_some, Option.getD_some, List.length_take, List.length_append]
  omega

/-- What the decoder has latched of a command cut short among its operand bytes is the bytes taken. -/
theorem latchedBytes_latchBytes {op : Byte} {args : List Byte} {o : Opcode} (ho : opcodeOf op = some o)
    (hshort : args.length < latchCount o) (l : Latches) : latchedBytes (latchBytes (op :: args) l) = op :: args := by
  have hfour := latchCount_le o
  rw [latchBytes_short ho hshort]
  match args with
  | [] | [_] | [_, _] | [_, _, _] => rfl
  | _ :: _ :: _ :: _ :: _ => simp only [List.length_cons] at hshort; omega

/-! ## The wait inside a command -/

/-- Once the bytes offered are taken, the host that offers nothing else has no move left. -/
theorem drop_offered (bs : List Byte) : (bs.map HostMove.cmd).drop bs.length = [] := by
  simp

/-- A host that offers the first bytes of a command and nothing else leaves the engine waiting (R61). -/
theorem step_of_cut {i : Instr} {p q : List Byte} {s : State} (hw : i.wf = true) (hc : i.space = .command)
    (hs : CleanEntry s) (h : p ++ q = encode i) (hp : p ≠ []) (hq : q ≠ []) (hm : s.moves = p.map .cmd) :
    step s = .next (awaitBytes p p.length s) := by
  have hseq : s.seq = .idle := hs.1
  have hread := decodeCommand_of_cut hw hc h hp hq
  obtain ⟨b, bs, rfl⟩ := List.exists_cons_of_ne_nil hp
  rw [step_of_cmd hs hm]
  simp [takeCommand, takenBefore, hseq, hm, cmdOffered_map, -List.map_cons, hread]

/-- The engine waits for operand bytes where the bytes taken are no string's, or end before its length byte. -/
theorem awaitBytes_operands {i : Instr} {p q : List Byte} (hw : i.wf = true) (hc : i.space = .command)
    (h : p ++ q = encode i) (hp : p ≠ []) (hq : q ≠ [])
    (hshort : p.length < 4 ∨ ∀ c x y text, i ≠ .drawString c x y text) (n : Nat) (s : State) :
    ∃ op args o, p = op :: args ∧ opcodeOf op = some o ∧ args.length < latchCount o ∧
      awaitBytes p n s = { dispatched p n s with seq := .operands } := by
  rcases awaitBytes_cases hp (decodeCommand_of_cut hw hc h hp hq) n s with
    ⟨op, x, y, len, chars, rfl, ho, -, -⟩ | hoperands
  · obtain ⟨c, x, y, text, rfl⟩ := drawString_of_opcodeOf hw hc h.symm ho
    rcases hshort with hshort | hno
    · simp only [List.length_cons] at hshort
      omega
    · exact absurd rfl (hno c x y text)
  · exact hoperands

theorem toNat_ofNat_length {text : List Byte} (h : text.length ≤ 255) :
    (BitVec.ofNat 8 text.length).toNat = text.length := by
  rw [BitVec.toNat_ofNat, Nat.mod_eq_of_lt (by omega)]

theorem opcodeOf_drawString (c : Bool) : opcodeOf (0x70 ||| bitByte c) = some .drawString := by
  cases c <;> rfl

theorem colourBit_drawString (c : Bool) : colourBit (0x70 ||| bitByte c) = c := by
  cases c <;> rfl

/-- The bytes of a string up to its first `k` characters. -/
theorem take_encode_drawString (c : Bool) (x y : Byte) (text : List Byte) (k : Nat) :
    (encode (.drawString c x y text)).take (4 + k) =
      (0x70 ||| bitByte c) :: x :: y :: BitVec.ofNat 8 text.length :: text.take k := by
  rw [Nat.add_comm]
  rfl

theorem drop_encode_drawString (c : Bool) (x y : Byte) (text : List Byte) (k : Nat) :
    (encode (.drawString c x y text)).drop (4 + k) = text.drop k := by
  rw [Nat.add_comm]
  rfl

/-- A string cut short inside its characters has begun, and those there are laid out (R55). -/
theorem awaitBytes_drawString (c : Bool) (x y : Byte) {text : List Byte} (h : text.length ≤ 255) (k n : Nat)
    (s : State) :
    awaitBytes ((encode (.drawString c x y text)).take (4 + k)) n s =
      textState c (text.take k) (textBegin x y text.length
        (dispatched ((encode (.drawString c x y text)).take (4 + k)) n s)) := by
  simp only [take_encode_drawString, awaitBytes, opcodeOf_drawString, if_true, colourBit_drawString,
    toNat_ofNat_length h]

/-- The decoder latches the colour of a string. -/
theorem latchBytes_drawString_colour (c : Bool) (x y : Byte) (text : List Byte) (k : Nat) (l : Latches) :
    (latchBytes ((encode (.drawString c x y text)).take (4 + k)) l).c = c := by
  rw [take_encode_drawString]
  exact colourBit_drawString c

/-- An engine inside a command whose host does nothing more is BUSY, asks for a byte, and has no step (R61). -/
theorem waits_inside_command {t : State} (hseq : t.seq = .operands ∨ t.seq = .exec) (hfault : t.fault = false)
    (htx : t.tx = none) (hmoves : t.moves = []) :
    busy t = true ∧ cmdReady t = true ∧ step t = .fault .waitsForByte := by
  rcases hseq with hseq | hseq <;>
    simp [busy, cmdReady, step, sequence, stepReady, hseq, hfault, htx, hmoves]

/-- Settles O38: the command is cut short, and among its operand bytes. -/
theorem incompleteCommandWaits : Obligations.IncompleteCommandWaits := by
  unfold Obligations.IncompleteCommandWaits
  intro i k s hw hc hs hk hlt hshort hm
  have hsplit := List.take_append_drop k (encode i)
  have hlen : ((encode i).take k).length = k := List.length_take_of_le hlt.le
  have hp : (encode i).take k ≠ [] := List.ne_nil_of_length_pos (by omega)
  have hq : (encode i).drop k ≠ [] := by simpa using hlt
  have hstep := step_of_cut hw hc hs hsplit hp hq hm
  obtain ⟨_, _, _, -, -, -, hwait⟩ :=
    awaitBytes_operands hw hc hsplit hp hq (by rwa [hlen]) ((encode i).take k).length s
  obtain ⟨-, hfault, htx⟩ := hs
  have hmoves : s.moves.drop ((encode i).take k).length = [] := by rw [hm, drop_offered]
  rw [hwait] at hstep
  obtain ⟨hbusy, hready, hstuck⟩ := waits_inside_command
    (t := { dispatched ((encode i).take k) _ s with seq := .operands }) (.inl rfl) hfault htx hmoves
  exact ⟨_, hstep, rfl, hbusy, hready, hfault, rfl, rfl, hmoves, hstuck⟩

/-- Settles O39: the string is cut short, and the characters there are laid out. -/
theorem incompleteStringShowsItsGlyphs : Obligations.IncompleteStringShowsItsGlyphs := by
  unfold Obligations.IncompleteStringShowsItsGlyphs
  intro c x y text k s htext hs hk hm
  have hw : (Instr.drawString c x y text).wf = true := decide_eq_true htext
  have hsplit := List.take_append_drop (4 + k) (encode (.drawString c x y text))
  have hp : (encode (.drawString c x y text)).take (4 + k) ≠ [] := by simp [take_encode_drawString]
  have hq : (encode (.drawString c x y text)).drop (4 + k) ≠ [] := by simpa [drop_encode_drawString] using hk
  have hstep := step_of_cut hw rfl hs hsplit hp hq hm
  obtain ⟨-, hfault, htx⟩ := hs
  have hmoves : s.moves.drop ((encode (.drawString c x y text)).take (4 + k)).length = [] := by rw [hm, drop_offered]
  rw [awaitBytes_drawString c x y htext] at hstep
  obtain ⟨hbusy, hready, hstuck⟩ := waits_inside_command
    (t := textState c (text.take k) (textBegin x y text.length (dispatched _ _ s))) (.inr rfl) hfault htx hmoves
  exact ⟨_, hstep, rfl, hbusy, hready, hfault, textState_textBegin_fb c x y _ _ _, rfl, hmoves, hstuck⟩

/-! ## Going on inside a command -/

/-- A command of the stream completes on an engine that is not faulted (spec/60_exceptions.md R110). -/
theorem exists_exec_next {i : Instr} {s : State} (hc : i.space = .command) (hfault : s.fault = false) :
    ∃ t, exec i s = .next t := by
  by_cases hu : i = .displayUpdate
  · subst hu
    exact ⟨_, if_neg (by simp [hfault])⟩
  · obtain ⟨body, hbody, -⟩ := exec_of_command hc hu
    exact ⟨_, (hbody s).trans (runCommand_eq hfault)⟩

/-- The rest of a command's bytes, offered to an engine that has latched those before them, completes the command. -/
theorem step_of_suffix {i : Instr} {p q : List Byte} {t : State} (hw : i.wf = true) (hc : i.space = .command)
    (h : p ++ q = encode i) (hq : q ≠ []) (hseq : t.seq = .operands) (hfault : t.fault = false) (htx : t.tx = none)
    (hlatch : latchedBytes t.work.latch = p) (hm : t.moves = q.map .cmd) :
    step t = exec i (dispatched (encode i) q.length t) := by
  have hread : decodeCommand (p ++ q) = .ok i [] := by
    simpa [h] using decodeCommand_encode hw hc []
  have htake : step t = takeCommand t := by
    obtain ⟨b, bs, rfl⟩ := List.exists_cons_of_ne_nil hq
    simp [step, sequence, stepReady, cmdReady, hseq, hfault, htx, hm]
  have hall : (p ++ q).take (p.length + q.length) = p ++ q := List.take_of_length_le (by simp)
  rw [htake, ← h]
  simp [takeCommand, takenBefore, hseq, hlatch, hm, cmdOffered_map, hread, hall]

/-- Characters taken in two parts are characters taken at once. -/
theorem textState_textState (c : Bool) (a b : List Byte) (s : State) :
    textState c b (textState c a s) = textState c (a ++ b) s := by
  simp only [textState, textRun_append]

/-- A string in progress with the characters `a` laid out, offered the characters `b` it still has to take, ends as it
does when it takes them all at once (R94). -/
theorem step_of_last_chars {c : Bool} {a b : List Byte} {v : State} (hseq : v.seq = .exec) (hfault : v.fault = false)
    (htx : v.tx = none) (hcolour : v.work.latch.c = c) (hb : b ≠ []) (hleft : v.work.text.nleft = (a ++ b).length) :
    step { textState c a v with moves := b.map .cmd } =
      .next (finish (textState c (a ++ b) { v with moves := [] })) := by
  have htake : step { textState c a v with moves := b.map .cmd } =
      .next (resumeText { textState c a v with moves := b.map .cmd }) := by
    obtain ⟨ch, bs, rfl⟩ := List.exists_cons_of_ne_nil hb
    simp [step, sequence, stepReady, cmdReady, hseq, hfault, htx]
  have hrest : (textState c a v).work.text.nleft = b.length := by
    rw [textState_nleft, hleft, List.length_append, Nat.add_sub_cancel_left]
  have hdone : (textState c (a ++ b) { v with moves := [] }).work.text.nleft = 0 := by
    rw [textState_nleft, hleft, Nat.sub_self]
  have hwhole : textState c b { textState c a v with moves := [] } = textState c (a ++ b) { v with moves := [] } :=
    textState_textState c a b { v with moves := [] }
  simp only [htake, resumeText, cmdOffered_map, hrest, List.take_length, drop_offered, textState_latch, hcolour, hwhole,
    hdone, if_true]

/-- DRAW_STRING lays out its characters and ends (R94). -/
theorem exec_drawString {s : State} (hfault : s.fault = false) (c : Bool) (x y : Byte) (text : List Byte) :
    exec (.drawString c x y text) s = .next (finish (textState c text (textBegin x y text.length s))) :=
  runCommand_eq (body := fun s => textState c text (textBegin x y text.length s)) hfault

/-- The command of the bytes `p ++ q` ends in one state, whether the host offers them at once or first `p`, then `q`. -/
def SameEndInParts (p q : List Byte) (s : State) : Prop :=
  ∃ t u, step { s with moves := p.map .cmd } = .next t ∧ step { t with moves := q.map .cmd } = .next u ∧
    step { s with moves := (p ++ q).map .cmd } = .next u

/-- At a command boundary the bytes of a command at once run it, and none of them is left. -/
theorem step_of_whole {i : Instr} {s : State} (hw : i.wf = true) (hc : i.space = .command) (hs : CleanEntry s) :
    step { s with moves := (encode i).map .cmd } =
      exec i { s with
        seq := .exec
        work := { s.work with latch := latchBytes (encode i) s.work.latch }
        moves := [] } := by
  rw [step_of_encode (s := { s with moves := (encode i).map .cmd }) (ms := []) hw hc hs (List.append_nil _).symm]
  simp [dispatched, drop_offered]

/-- A command cut among its operand bytes: the latches hold in the end what they hold when the bytes come at once. -/
theorem sameEnd_of_operands {i : Instr} {p q : List Byte} {s : State} (hw : i.wf = true) (hc : i.space = .command)
    (hs : CleanEntry s) (h : p ++ q = encode i) (hp : p ≠ []) (hq : q ≠ [])
    (hshort : p.length < 4 ∨ ∀ c x y text, i ≠ .drawString c x y text) : SameEndInParts p q s := by
  have hfirst := step_of_cut (s := { s with moves := p.map .cmd }) hw hc hs h hp hq rfl
  obtain ⟨op, args, o, hop, ho, hargs, hwait⟩ :=
    awaitBytes_operands hw hc h hp hq hshort p.length { s with moves := p.map .cmd }
  rw [hwait] at hfirst
  have ⟨_, hfault, htx⟩ := hs
  obtain ⟨u, hu⟩ := exists_exec_next (i := i) (s := { s with
    seq := .exec
    work := { s.work with latch := latchBytes (encode i) s.work.latch }
    moves := [] }) hc hfault
  refine ⟨_, u, hfirst, ?_, ?_⟩
  · have hlatched : latchedBytes (latchBytes p s.work.latch) = p := by
      rw [hop, latchedBytes_latchBytes ho hargs]
    have hparts : latchBytes (encode i) (latchBytes p s.work.latch) = latchBytes (encode i) s.work.latch := by
      rw [← h, hop, latchBytes_append ho hargs]
    rw [step_of_suffix (t := { dispatched p p.length { s with moves := p.map .cmd } with
      seq := .operands, moves := q.map .cmd }) hw hc h hq rfl hfault htx hlatched rfl, ← hu]
    simp [dispatched, hparts, drop_offered]
  · rw [h, step_of_whole hw hc hs, hu]

/-- A string cut inside its characters: the layout goes on from where it stands. -/
theorem sameEnd_of_chars (c : Bool) (x y : Byte) {text : List Byte} {k : Nat} {s : State}
    (htext : text.length ≤ 255) (hk : k < text.length) (hs : CleanEntry s) :
    SameEndInParts ((encode (.drawString c x y text)).take (4 + k)) ((encode (.drawString c x y text)).drop (4 + k))
      s := by
  have hw : (Instr.drawString c x y text).wf = true := decide_eq_true htext
  have hsplit := List.take_append_drop (4 + k) (encode (.drawString c x y text))
  have hp : (encode (.drawString c x y text)).take (4 + k) ≠ [] := by simp [take_encode_drawString]
  have hq : text.drop k ≠ [] := by simpa using hk
  have hfirst := step_of_cut (s := { s with moves := ((encode (.drawString c x y text)).take (4 + k)).map .cmd })
    hw rfl hs hsplit hp (by rwa [drop_encode_drawString]) rfl
  rw [awaitBytes_drawString c x y htext] at hfirst
  have hcolour := latchBytes_drawString_colour c x y text k s.work.latch
  have ⟨_, hfault, htx⟩ := hs
  rw [SameEndInParts, hsplit, drop_encode_drawString, step_of_whole hw rfl hs]
  refine ⟨_, _, hfirst, step_of_last_chars rfl hfault htx hcolour hq ?_, (exec_drawString ?_ c x y text).trans ?_⟩
  · rw [List.take_append_drop]
    rfl
  · exact hfault
  · rw [List.take_append_drop]
    rfl

/-- Settles O40: the split falls inside a string's characters, or among the operand bytes. -/
theorem hostPaceDoesNotMatter : Obligations.HostPaceDoesNotMatter := by
  unfold Obligations.HostPaceDoesNotMatter
  intro i k s hw hc hs hk hlt
  have hsplit := List.take_append_drop k (encode i)
  suffices hparts : SameEndInParts ((encode i).take k) ((encode i).drop k) s by
    rwa [SameEndInParts, hsplit] at hparts
  by_cases hchars : 4 ≤ k ∧ ∃ c x y text, i = .drawString c x y text
  · obtain ⟨hfour, c, x, y, text, rfl⟩ := hchars
    obtain ⟨j, rfl⟩ := Nat.exists_eq_add_of_le hfour
    exact sameEnd_of_chars c x y (of_decide_eq_true hw) (by simp [encode] at hlt; omega) hs
  · have hp : (encode i).take k ≠ [] := List.ne_nil_of_length_pos (by rw [List.length_take]; omega)
    have hq : (encode i).drop k ≠ [] := by simpa using hlt
    refine sameEnd_of_operands hw hc hs hsplit hp hq ?_
    rw [List.length_take_of_le hlt.le]
    exact or_iff_not_imp_left.mpr fun hfour c x y text hi => hchars ⟨Nat.le_of_not_lt hfour, c, x, y, text, hi⟩

end Sys2Proof.Machine
end

section
/-! The bit-addressing layer (spec/40_bitaddr.md): `Addr` is a bijection, every bit after a pixel write, the two
commands of the layer, and the debug read port. -/

namespace Sys2Proof.Machine

/-! ## The address translation -/

/-- The inverse of `Addr` that R70 gives. -/
theorem pixel_of_pixelAddr {x y : Int} (h : IsPixel x y) :
    x = ((pixelAddr x y).1 % 84 : Nat) ∧ y = ((pixelAddr x y).1 / 84 * 8 + (pixelAddr x y).2 : Nat) := by
  obtain ⟨hx0, hx, hy0, hy⟩ := h
  simp only [pixelAddr, Config.width]
  omega

/-- Every index and bit is the place of a pixel (R70). -/
theorem isPixel_of_place {i b : Nat} (hi : i < 504) (hb : b < 8) :
    IsPixel (i % 84 : Nat) (i / 84 * 8 + b : Nat) := by
  unfold IsPixel
  omega

theorem pixelAddr_of_place (i : Nat) {b : Nat} (hb : b < 8) :
    pixelAddr (i % 84 : Nat) (i / 84 * 8 + b : Nat) = (i, b) := by
  simp only [pixelAddr, Config.width, Int.toNat_natCast, Prod.mk.injEq]
  omega

/-- Settles O1: `Addr` and the inverse of R70 undo each other. -/
theorem addrIsABijection : Obligations.AddrIsABijection := by
  unfold Obligations.AddrIsABijection
  exact ⟨fun x y h => ⟨rfl, pixelAddr_lt h, pixelAddr_bit_lt x y, pixel_of_pixelAddr h⟩,
    fun i b hi hb => ⟨isPixel_of_place hi hb, pixelAddr_of_place i hb⟩⟩

/-! ## The pixel write, bit by bit -/

/-- Every bit of every byte after a pixel write: the pixel's own bit is the colour, the others are as before (R71). -/
theorem getLsbD_pixelWrite {x y : Int} (c : Bool) {fb : Memory} (h : Memory.wf fb = true) (i : Nat) {k : Nat}
    (hk : k < 8) :
    (fbRead (pixelWrite x y c fb) i).getLsbD k =
      if inRange x y = true ∧ pixelAddr x y = (i, k) then c else (fbRead fb i).getLsbD k := by
  by_cases hi : IsPixel x y ∧ (pixelAddr x y).1 = i
  · obtain ⟨hp, rfl⟩ := hi
    rw [fbRead_pixelWrite_same c h hp, getLsbD_withBit _ c (pixelAddr_bit_lt x y) hk]
    exact if_congr ⟨fun hb => ⟨(inRange_iff x y).mpr hp, Prod.ext rfl hb.symm⟩,
      fun ⟨_, ha⟩ => (congrArg Prod.snd ha).symm⟩ rfl rfl
  · rw [fbRead_pixelWrite_other c fb fun hp he => hi ⟨hp, he.symm⟩, if_neg]
    exact fun ⟨hp, he⟩ => hi ⟨(inRange_iff x y).mp hp, congrArg Prod.fst he⟩

/-- Two framebuffers in canonical form with the same bits are the same data. -/
theorem fb_ext_bits {m₁ m₂ : Memory} (h₁ : Memory.wf m₁ = true) (h₂ : Memory.wf m₂ = true)
    (h : ∀ i, ∀ k < 8, (fbRead m₁ i).getLsbD k = (fbRead m₂ i).getLsbD k) : m₁ = m₂ :=
  fb_ext h₁ h₂ fun i => BitVec.eq_of_getLsbD_eq (h i)

theorem pixelWrite_idem (x y : Int) (c : Bool) {fb : Memory} (h : Memory.wf fb = true) :
    pixelWrite x y c (pixelWrite x y c fb) = pixelWrite x y c fb := by
  have h₁ := pixelWrite_wf x y c h
  refine fb_ext_bits (pixelWrite_wf x y c h₁) h₁ fun i k hk => ?_
  rw [getLsbD_pixelWrite c h₁ i hk, getLsbD_pixelWrite c h i hk]
  split <;> rfl

/-- Writes to different pixels commute, since no bit is the place of both (R71). -/
theorem pixelWrite_comm {x y x' y' : Int} (c c' : Bool) {fb : Memory} (h : Memory.wf fb = true)
    (hne : x ≠ x' ∨ y ≠ y') :
    pixelWrite x' y' c' (pixelWrite x y c fb) = pixelWrite x y c (pixelWrite x' y' c' fb) := by
  have h₁ := pixelWrite_wf x y c h
  have h₂ := pixelWrite_wf x' y' c' h
  refine fb_ext_bits (pixelWrite_wf x' y' c' h₁) (pixelWrite_wf x y c h₂) fun i k hk => ?_
  rw [getLsbD_pixelWrite c' h₁ i hk, getLsbD_pixelWrite c h i hk, getLsbD_pixelWrite c h₂ i hk,
    getLsbD_pixelWrite c' h i hk]
  by_cases hat : inRange x y = true ∧ pixelAddr x y = (i, k)
  · have ⟨hp, ha⟩ := hat
    have hapart : ¬(inRange x' y' = true ∧ pixelAddr x' y' = (i, k)) := by
      rintro ⟨hp', ha'⟩
      have ⟨hx, hy⟩ := pixelAddr_inj ((inRange_iff x y).mp hp) ((inRange_iff x' y').mp hp') (ha.trans ha'.symm)
      exact hne.elim (· hx) (· hy)
    rw [if_neg hapart, if_pos hat, if_pos hat]
  · rw [if_neg hat, if_neg hat]

/-- Settles O2: by what a pixel write does to every bit. -/
theorem pixelWriteChangesOneBit : Obligations.PixelWriteChangesOneBit := by
  unfold Obligations.PixelWriteChangesOneBit
  intro fb x y c h
  refine ⟨pixelWrite_out c fb, fun hp => ⟨fun k hk => ?_, fun i hi => ?_⟩, pixelWrite_idem x y c h,
    fun x' y' c' => pixelWrite_comm c c' h⟩
  · rw [fbRead_pixelWrite_same c h hp, getLsbD_withBit _ c (pixelAddr_bit_lt x y) hk]
  · exact fbRead_pixelWrite_other c fb fun _ => hi

/-! ## SET_PIXEL -/

theorem isPixel_zext_iff (x y : Byte) : IsPixel (zext x) (zext y) ↔ x.toNat < 84 ∧ y.toNat < 48 := by
  simp only [IsPixel, zext, Int.ofNat_eq_natCast]
  omega

theorem not_isPixel_zext_iff (x y : Byte) : ¬IsPixel (zext x) (zext y) ↔ 84 ≤ x.toNat ∨ 48 ≤ y.toNat := by
  rw [isPixel_zext_iff]
  omega

/-- A command whose sequencer decides FB alone leaves every other piece of state as it was. -/
theorem sameButFb_finish (s : State) (fb : Memory) : SameButFb s (finish { s with fb := fb }) :=
  ⟨rfl, rfl, rfl, rfl, rfl, rfl, rfl⟩

/-- One pixel write paints one point (R71). -/
theorem pixelWrite_painted (x y : Int) (c : Bool) {fb : Memory} (h : Memory.wf fb = true) :
    Painted (fun a b => a = x ∧ b = y) c fb (pixelWrite x y c fb) := by
  simpa using paintPoints_painted c [(x, y)] h

theorem exec_setPixel (on : Bool) (x y : Byte) {s : State} (hfault : s.fault = false) :
    exec (.setPixel on x y) s = .next (finish { s with fb := pixelWrite (zext x) (zext y) on s.fb }) :=
  runCommand_eq (body := fun s => { s with fb := pixelWrite (zext x) (zext y) on s.fb }) hfault

/-- Settles O3: SET_PIXEL is one pixel write. -/
theorem setPixelWritesItsPixel : Obligations.SetPixelWritesItsPixel := by
  unfold Obligations.SetPixelWritesItsPixel
  intro on x y s hfault hwf
  have hpainted := pixelWrite_painted (zext x) (zext y) on hwf
  have ⟨hdrawn, _, _⟩ := hpainted
  refine ⟨rfl, _, exec_setPixel on x y hfault, fun hx hy => ?_, fun hout => ?_, hpainted, sameButFb_finish s _⟩
  · exact hdrawn _ _ ((isPixel_zext_iff x y).mpr ⟨hx, hy⟩) ⟨rfl, rfl⟩
  · exact pixelWrite_out on s.fb ((not_isPixel_zext_iff x y).mpr hout)

/-! ## CLEAR -/

theorem mem_of_memFind {m : Memory} {a : Nat} {v : Byte} (h : memFind m a = some v) : (a, v) ∈ m := by
  induction m with
  | nil => cases h
  | cons p m ih =>
    obtain ⟨k, w⟩ := p
    unfold memFind at h
    split_ifs at h with hk
    · obtain rfl := Option.some.inj h
      exact hk ▸ List.mem_cons_self ..
    · exact List.mem_cons_of_mem _ (ih h)

/-- No byte is listed beyond the 504 (R10). -/
theorem fbRead_of_le {fb : Memory} (h : Memory.wf fb = true) {i : Nat} (hi : 504 ≤ i) : fbRead fb i = 0 := by
  cases hf : memFind fb i with
  | none => rw [fbRead, hf]; rfl
  | some v =>
    simp only [Memory.wf, Bool.and_eq_true, List.all_eq_true] at h
    have ⟨_, hlisted⟩ := h
    have ⟨hlt, _⟩ := hlisted _ (mem_of_memFind hf)
    exact absurd (of_decide_eq_true hlt) (Nat.not_lt.mpr hi)

/-- The first `n` byte writes of CLEAR. -/
def clearBelow (n : Nat) (fb : Memory) : Memory := (List.range n).foldl (fun m i => fbWrite m i 0) fb

theorem clearBytes_eq_clearBelow (fb : Memory) : clearBytes fb = clearBelow 504 fb := rfl

theorem clearBelow_succ (n : Nat) (fb : Memory) : clearBelow (n + 1) fb = fbWrite (clearBelow n fb) n 0 := by
  simp [clearBelow, List.range_succ]

theorem clearBelow_wf {n : Nat} (hn : n ≤ 504) {fb : Memory} (h : Memory.wf fb = true) :
    Memory.wf (clearBelow n fb) = true := by
  induction n with
  | zero => exact h
  | succ n ih => exact clearBelow_succ n fb ▸ fbWrite_wf 0 hn (ih (Nat.le_of_succ_le hn))

theorem fbRead_clearBelow {n i : Nat} (hn : n ≤ 504) {fb : Memory} (h : Memory.wf fb = true) (hi : i < n) :
    fbRead (clearBelow n fb) i = 0 := by
  induction n with
  | zero => cases hi
  | succ n ih =>
    have hn' := Nat.le_of_succ_le hn
    rw [clearBelow_succ]
    rcases Nat.lt_succ_iff_lt_or_eq.mp hi with hlt | rfl
    · rw [fbRead_fbWrite_other _ 0 hlt.ne, ih hn' hlt]
    · exact fbRead_fbWrite_same (clearBelow_wf hn' h) i 0

/-- CLEAR leaves no byte listed: those below 504 are written, and none is listed beyond (R74). -/
theorem clearBytes_eq_nil {fb : Memory} (h : Memory.wf fb = true) : clearBytes fb = [] := by
  have hwf := clearBytes_wf h
  refine fb_ext hwf wf_nil fun i => ?_
  rcases Nat.lt_or_ge i 504 with hi | hi
  · rw [clearBytes_eq_clearBelow]
    exact fbRead_clearBelow le_rfl h hi
  · exact fbRead_of_le hwf hi

theorem exec_clear {s : State} (hfault : s.fault = false) (hwf : Memory.wf s.fb = true) :
    exec .clear s = .next (finish { s with fb := [] }) :=
  clearBytes_eq_nil hwf ▸ runCommand_eq (body := fun s => { s with fb := clearBytes s.fb }) hfault

/-- Settles O4: CLEAR leaves the blank FB. -/
theorem clearBlanksTheFramebuffer : Obligations.ClearBlanksTheFramebuffer := by
  unfold Obligations.ClearBlanksTheFramebuffer
  exact fun s hfault hwf =>
    ⟨rfl, _, exec_clear hfault hwf, rfl, fun _ => rfl, fun _ _ => pixelRead_nil, sameButFb_finish s []⟩

/-! ## The debug read port -/

theorem pixelAddr_zext (x y : Byte) :
    pixelAddr (zext x) (zext y) = (x.toNat + y.toNat / 8 * 84, y.toNat % 8) := rfl

theorem debugRead_busy {s : State} (hb : busy s = true) (x y : Byte) : debugRead s x y = none := if_pos hb

theorem debugRead_in {s : State} (hb : busy s = false) {x y : Byte} (hp : IsPixel (zext x) (zext y)) :
    debugRead s x y =
      some ⟨true, pixelRead s.fb (zext x) (zext y), some (fbRead s.fb (pixelAddr (zext x) (zext y)).1)⟩ := by
  simp [debugRead, hb, (inRange_iff _ _).mpr hp]

theorem debugRead_out {s : State} (hb : busy s = false) {x y : Byte} (hp : ¬IsPixel (zext x) (zext y)) :
    debugRead s x y = some ⟨false, none, none⟩ := by
  simp [debugRead, hb, (inRange_false_iff _ _).mpr hp, pixelRead_out s.fb hp]

/-- Settles O48: the port by BUSY and the range of the coordinate. -/
theorem debugPortShowsThePixel : Obligations.DebugPortShowsThePixel := by
  unfold Obligations.DebugPortShowsThePixel
  intro s x y
  refine ⟨fun hb => debugRead_busy hb x y, fun hb hx hy => ?_,
    fun hb hout => debugRead_out hb ((not_isPixel_zext_iff x y).mpr hout)⟩
  have hp := (isPixel_zext_iff x y).mpr ⟨hx, hy⟩
  have hread := pixelRead_in s.fb hp
  rw [pixelAddr_zext] at hread
  refine ⟨_, hread, ?_, rfl⟩
  rw [debugRead_in hb hp, hread, pixelAddr_zext]

end Sys2Proof.Machine
end

section
/-! The line procedure (spec/41_raster.md R80 to R82): where the loop stands after every iteration, its bounds, and the
points a DRAW_LINE paints. -/

namespace Sys2Proof.Machine

/-! ## One iteration -/

/-- One iteration of the loop: each branch is decided by twice the old ERR (R80). -/
theorem lineAdvance_eq (r : LineRegs) :
    lineAdvance r =
      { r with
        lx := if -r.dy < 2 * r.err then r.lx + r.sx else r.lx
        ly := if 2 * r.err < r.dx then r.ly + r.sy else r.ly
        err := r.err - (if -r.dy < 2 * r.err then r.dy else 0) + (if 2 * r.err < r.dx then r.dx else 0)
        e2 := 2 * r.err } := by
  by_cases hx : -r.dy < 2 * r.err <;> by_cases hy : 2 * r.err < r.dx <;>
    simp [lineAdvance, lineStepX, lineStepY, hx, hy]

@[simp] theorem lineAdvance_lx (r : LineRegs) :
    (lineAdvance r).lx = if -r.dy < 2 * r.err then r.lx + r.sx else r.lx := by rw [lineAdvance_eq]

@[simp] theorem lineAdvance_ly (r : LineRegs) :
    (lineAdvance r).ly = if 2 * r.err < r.dx then r.ly + r.sy else r.ly := by rw [lineAdvance_eq]

@[simp] theorem lineAdvance_err (r : LineRegs) :
    (lineAdvance r).err =
      r.err - (if -r.dy < 2 * r.err then r.dy else 0) + (if 2 * r.err < r.dx then r.dx else 0) := by
  rw [lineAdvance_eq]

@[simp] theorem lineAdvance_e2 (r : LineRegs) : (lineAdvance r).e2 = 2 * r.err := by rw [lineAdvance_eq]

/-- An advance moves each coordinate by at most one (R82 item 4). -/
theorem lineAfter_succ_near (x0 y0 x1 y1 : Int) (k : Nat) :
    ((lineAfter x0 y0 x1 y1 (k + 1)).lx - (lineAfter x0 y0 x1 y1 k).lx).natAbs ≤ 1 ∧
      ((lineAfter x0 y0 x1 y1 (k + 1)).ly - (lineAfter x0 y0 x1 y1 k).ly).natAbs ≤ 1 := by
  obtain ⟨-, -, -, -, hsx, hsy⟩ := lineAfter_fixed x0 y0 x1 y1 k
  rw [lineAfter_succ, lineAdvance_lx, lineAdvance_ly, hsx, hsy]
  constructor <;> split_ifs <;> omega

/-! ## The two axes exchanged -/

/-- The line registers with the two axes exchanged; the error changes its sign. -/
def swapAxes (r : LineRegs) : LineRegs where
  lx := r.ly
  ly := r.lx
  lx1 := r.ly1
  ly1 := r.lx1
  dx := r.dy
  dy := r.dx
  sx := r.sy
  sy := r.sx
  err := -r.err
  e2 := -r.e2

theorem lineStart_swapAxes (x0 y0 x1 y1 : Int) : lineStart y0 x0 y1 x1 = swapAxes (lineStart x0 y0 x1 y1) := by
  simp only [lineStart, swapAxes, LineRegs.mk.injEq, true_and]
  omega

/-- Neither branch is before the other: E2 is the value before both (R80). -/
theorem lineAdvance_swapAxes (r : LineRegs) : lineAdvance (swapAxes r) = swapAxes (lineAdvance r) := by
  have hx : -r.dx < 2 * -r.err ↔ 2 * r.err < r.dx := by omega
  have hy : 2 * -r.err < r.dy ↔ -r.dy < 2 * r.err := by omega
  simp only [lineAdvance_eq, swapAxes, hx, hy, LineRegs.mk.injEq, true_and]
  omega

theorem lineAfter_swapAxes (x0 y0 x1 y1 : Int) (k : Nat) :
    lineAfter y0 x0 y1 x1 k = swapAxes (lineAfter x0 y0 x1 y1 k) := by
  induction k with
  | zero => exact lineStart_swapAxes x0 y0 x1 y1
  | succ k ih => rw [lineAfter_succ, lineAfter_succ, ih, lineAdvance_swapAxes]

/-! ## The loop along its major axis -/

/-- While the x-axis is the major one every iteration steps along it, and after `j` steps along y the error is what R80
adds up to, within bounds that keep it so. -/
theorem lineAfter_of_major {x0 y0 x1 y1 : Int} (hmajor : (y1 - y0).natAbs ≤ (x1 - x0).natAbs) (hne : x0 ≠ x1)
    (k : Nat) :
    ∃ j : Nat,
      (lineAfter x0 y0 x1 y1 k).lx = x0 + k * (if x0 < x1 then 1 else -1) ∧
        (lineAfter x0 y0 x1 y1 k).ly = y0 + j * (if y0 < y1 then 1 else -1) ∧
          (lineAfter x0 y0 x1 y1 k).err = (j + 1) * (x1 - x0).natAbs - (k + 1) * (y1 - y0).natAbs ∧
            -((y1 - y0).natAbs : Int) < 2 * (lineAfter x0 y0 x1 y1 k).err ∧
              2 * (lineAfter x0 y0 x1 y1 k).err < 3 * (x1 - x0).natAbs - 2 * (y1 - y0).natAbs := by
  induction k with
  | zero => exact ⟨0, by simp [lineAfter, lineStart, -Nat.cast_natAbs]; omega⟩
  | succ k ih =>
    obtain ⟨j, hlx, hly, herr, hlow, hhigh⟩ := ih
    obtain ⟨-, -, hdx, hdy, hsx, hsy⟩ := lineAfter_fixed x0 y0 x1 y1 k
    rw [lineAfter_succ, lineAdvance_lx, lineAdvance_ly, lineAdvance_err, hdx, hdy, hsx, hsy, if_pos hlow, if_pos hlow,
      hlx, hly]
    by_cases hstep : 2 * (lineAfter x0 y0 x1 y1 k).err < (x1 - x0).natAbs
    · refine ⟨j + 1, ?_⟩
      rw [if_pos hstep, if_pos hstep]
      exact ⟨by push_cast; ring, by push_cast; ring, by rw [herr]; push_cast; ring, by omega, by omega⟩
    · refine ⟨j, ?_⟩
      rw [if_neg hstep, if_neg hstep]
      exact ⟨by push_cast; ring, rfl, by rw [herr]; push_cast; ring, by omega, by omega⟩

/-- The steps along the minor axis that the error bounds allow after `k` steps along the major one: no more than its
delta, all of it at the end, and one each time on a diagonal. -/
theorem minor_steps {dx dy k j : Nat} (hk : k ≤ dx)
    (hlow : -(dy : Int) < 2 * ((j + 1) * dx - (k + 1) * dy))
    (hhigh : 2 * ((j + 1 : Int) * dx - (k + 1) * dy) < 3 * dx - 2 * dy) :
    j ≤ dy ∧ (k = dx → j = dy) ∧ (dx = dy → j = k) := by
  have hle : j ≤ dy := by
    by_contra hj
    have := mul_le_mul_of_nonneg_right (by omega : (dy + 1 : Int) ≤ j) (Int.natCast_nonneg dx)
    have := mul_le_mul_of_nonneg_right (by omega : (k : Int) ≤ dx) (Int.natCast_nonneg dy)
    linarith
  refine ⟨hle, ?_, ?_⟩
  · rintro rfl
    by_contra hj
    have := mul_le_mul_of_nonneg_right (by omega : (j + 1 : Int) ≤ dy) (Int.natCast_nonneg k)
    linarith
  · rintro rfl
    rcases Nat.lt_trichotomy j k with hlt | heq | hgt
    · have := mul_le_mul_of_nonneg_right (by omega : (j + 1 : Int) ≤ k) (Int.natCast_nonneg dx)
      linarith
    · exact heq
    · have := mul_le_mul_of_nonneg_right (by omega : (k + 1 : Int) ≤ j) (Int.natCast_nonneg dx)
      linarith

/-! ## Where the loop stands -/

/-- The line registers after `k` iterations, told from both axes alike (R82): in the bounding box, `k` steps along a
longest axis, at the end point after the last of them, and the error that the steps taken add up to. -/
structure LineStands (x0 y0 x1 y1 : Int) (k : Nat) (r : LineRegs) : Prop where
  lx_mem : min x0 x1 ≤ r.lx ∧ r.lx ≤ max x0 x1
  ly_mem : min y0 y1 ≤ r.ly ∧ r.ly ≤ max y0 y1
  lx_major : (y1 - y0).natAbs ≤ (x1 - x0).natAbs → (r.lx - x0).natAbs = k
  ly_major : (x1 - x0).natAbs ≤ (y1 - y0).natAbs → (r.ly - y0).natAbs = k
  at_end : k = max (x1 - x0).natAbs (y1 - y0).natAbs → r.lx = x1 ∧ r.ly = y1
  err_eq : r.err = ((r.ly - y0).natAbs + 1) * (x1 - x0).natAbs - ((r.lx - x0).natAbs + 1) * (y1 - y0).natAbs
  err_le : (2 * r.err).natAbs ≤ 3 * max (x1 - x0).natAbs (y1 - y0).natAbs

theorem LineStands.of_swapAxes {x0 y0 x1 y1 : Int} {k : Nat} {r : LineRegs}
    (h : LineStands y0 x0 y1 x1 k (swapAxes r)) : LineStands x0 y0 x1 y1 k r where
  lx_mem := h.ly_mem
  ly_mem := h.lx_mem
  lx_major := h.ly_major
  ly_major := h.lx_major
  at_end hk := (h.at_end (hk.trans (max_comm _ _))).symm
  err_eq := by
    have herr := h.err_eq
    simp only [swapAxes] at herr
    omega
  err_le := by
    have herr := h.err_le
    simp only [swapAxes] at herr
    omega

theorem lineStart_stands (x0 y0 x1 y1 : Int) : LineStands x0 y0 x1 y1 0 (lineStart x0 y0 x1 y1) where
  lx_mem := ⟨min_le_left .., le_max_left ..⟩
  ly_mem := ⟨min_le_left .., le_max_left ..⟩
  lx_major _ := by simp [lineStart]
  ly_major _ := by simp [lineStart]
  at_end hk := by
    simp only [lineStart]
    omega
  err_eq := by simp [lineStart]
  err_le := by
    simp only [lineStart]
    omega

theorem lineAfter_stands_of_major {x0 y0 x1 y1 : Int} (hmajor : (y1 - y0).natAbs ≤ (x1 - x0).natAbs) {k : Nat}
    (hk : k < lineCount x0 y0 x1 y1) : LineStands x0 y0 x1 y1 k (lineAfter x0 y0 x1 y1 k) := by
  rw [lineCount, max_eq_left hmajor, Nat.lt_succ_iff] at hk
  by_cases hne : x0 = x1
  · obtain rfl : k = 0 := by omega
    exact lineStart_stands x0 y0 x1 y1
  · obtain ⟨j, hlx, hly, herr, hlow, hhigh⟩ := lineAfter_of_major hmajor hne k
    obtain ⟨hj, hend, hdiag⟩ := minor_steps hk (herr ▸ hlow) (herr ▸ hhigh)
    have hi : ((lineAfter x0 y0 x1 y1 k).lx - x0).natAbs = k := by rw [hlx]; split_ifs <;> omega
    have hj' : ((lineAfter x0 y0 x1 y1 k).ly - y0).natAbs = j := by rw [hly]; split_ifs <;> omega
    refine ⟨?_, ?_, fun _ => hi, fun hle => hj'.trans (hdiag (by omega)), fun hlast => ?_, ?_, by omega⟩
    · rw [hlx]; split_ifs <;> omega
    · rw [hly]; split_ifs <;> omega
    · rw [hlx, hly]; split_ifs <;> omega
    · rw [hi, hj', herr]

/-- Where the loop stands after any number of iterations up to its last. -/
theorem lineAfter_stands {x0 y0 x1 y1 : Int} {k : Nat} (hk : k < lineCount x0 y0 x1 y1) :
    LineStands x0 y0 x1 y1 k (lineAfter x0 y0 x1 y1 k) := by
  rcases Nat.le_total (y1 - y0).natAbs (x1 - x0).natAbs with hmajor | hmajor
  · exact lineAfter_stands_of_major hmajor hk
  · rw [lineCount, max_comm] at hk
    exact .of_swapAxes (lineAfter_swapAxes x0 y0 x1 y1 k ▸ lineAfter_stands_of_major hmajor hk)

/-- The exit test succeeds at the last iteration and at none before (R82 item 1). -/
theorem lineAtEnd_lineAfter_iff {x0 y0 x1 y1 : Int} {k : Nat} (hk : k < lineCount x0 y0 x1 y1) :
    lineAtEnd (lineAfter x0 y0 x1 y1 k) = true ↔ k + 1 = lineCount x0 y0 x1 y1 := by
  have hstands := lineAfter_stands hk
  obtain ⟨hlx1, hly1, -⟩ := lineAfter_fixed x0 y0 x1 y1 k
  simp only [lineAtEnd, Bool.and_eq_true, decide_eq_true_eq, hlx1, hly1, lineCount] at hk ⊢
  constructor
  · rintro ⟨hlx, hly⟩
    have hx := hstands.lx_major
    have hy := hstands.ly_major
    rw [hlx] at hx
    rw [hly] at hy
    omega
  · exact fun hlast => hstands.at_end (by omega)

/-- Settles O5: from where the loop stands after each iteration. -/
theorem lineLoopReachesItsEnd : Obligations.LineLoopReachesItsEnd := by
  unfold Obligations.LineLoopReachesItsEnd
  intro x0 y0 x1 y1 k hk
  have hstands := lineAfter_stands hk
  obtain ⟨hnearx, hneary⟩ := lineAfter_succ_near x0 y0 x1 y1 k
  refine ⟨lineAtEnd_lineAfter_iff hk, hstands.lx_mem, hstands.ly_mem, hstands.err_le, fun hk' =>
    ⟨hnearx, hneary, fun hmajor => ?_, fun hmajor => ?_⟩⟩
  · have hi := hstands.lx_major hmajor
    have hi' := (lineAfter_stands hk').lx_major hmajor
    omega
  · have hj := hstands.ly_major hmajor.le
    have hj' := (lineAfter_stands hk').ly_major hmajor.le
    omega

/-- Refutes O6: the spec's own vector L8, the line from (0, 0) to (7, 1), has ERR = 9 after four iterations. -/
theorem not_lineErrorNeverExceedsTheDeltas : ¬Obligations.LineErrorNeverExceedsTheDeltas := by
  unfold Obligations.LineErrorNeverExceedsTheDeltas
  intro h
  exact absurd (h 0 0 7 1 4 (by decide)) (by decide)

end Sys2Proof.Machine
end

section
/-! What the rasterizer's commands paint (spec/41_raster.md R81 to R86), from the points their procedures visit. -/

namespace Sys2Proof.Machine

/-! ## Painting -/

/-- What a drawing paints depends on which points it draws, not on how they are described. -/
theorem Painted.congr {P Q : Int → Int → Prop} {c : Bool} {fb fb' : Memory} (h : Painted P c fb fb')
    (hPQ : ∀ a b, P a b ↔ Q a b) : Painted Q c fb fb' := by
  obtain rfl : P = Q := funext₂ fun a b => propext (hPQ a b)
  exact h

/-- Two drawings of one colour, one after the other, paint the points of both. -/
theorem Painted.trans {P Q : Int → Int → Prop} {c : Bool} {fb fb' fb'' : Memory} (h : Painted P c fb fb')
    (h' : Painted Q c fb' fb'') : Painted (fun a b => P a b ∨ Q a b) c fb fb'' := by
  obtain ⟨hdrawn, hkept, hbytes⟩ := h
  obtain ⟨hdrawn', hkept', hbytes'⟩ := h'
  refine ⟨fun x y hp hPQ => ?_, fun x y hp hPQ => ?_, fun i hi => ?_⟩
  · by_cases hQ : Q x y
    · exact hdrawn' x y hp hQ
    · rw [hkept' x y hp hQ, hdrawn x y hp (hPQ.resolve_right hQ)]
  · obtain ⟨hP, hQ⟩ := not_or.mp hPQ
    rw [hkept' x y hp hQ, hkept x y hp hP]
  · rw [hbytes' i fun x y hp hQ => hi x y hp (.inr hQ), hbytes i fun x y hp hP => hi x y hp (.inl hP)]

/-- FB in canonical form in which every pixel reads 0 is the blank FB. -/
theorem eq_nil_of_blank {fb : Memory} (hwf : Memory.wf fb = true)
    (h : ∀ x y, IsPixel x y → pixelRead fb x y = some false) : fb = [] := by
  refine fb_ext_bits hwf wf_nil fun i k hk => ?_
  rcases Nat.lt_or_ge i 504 with hi | hi
  · have hp := isPixel_of_place hi hk
    have hread := h _ _ hp
    rw [pixelRead_in fb hp, pixelAddr_of_place i hk] at hread
    rw [Option.some.inj hread]
    exact (BitVec.getLsbD_zero).symm
  · rw [fbRead_of_le hwf hi]
    rfl

/-! ## The points of a line -/

/-- The points the loop visits from its `k`-th iteration on. -/
theorem loopPoints_lineAfter {x0 y0 x1 y1 : Int} {fuel k : Nat} (hk : k + fuel = lineCount x0 y0 x1 y1) :
    loopPoints fuel (lineAfter x0 y0 x1 y1 k) =
      (List.range' k fuel).map fun j => ((lineAfter x0 y0 x1 y1 j).lx, (lineAfter x0 y0 x1 y1 j).ly) := by
  induction fuel generalizing k with
  | zero => rfl
  | succ fuel ih =>
    have hlt : k < lineCount x0 y0 x1 y1 := by omega
    rw [loopPoints, List.range'_succ, List.map_cons]
    congr 1
    split_ifs with hexit
    · obtain rfl : fuel = 0 := by have := (lineAtEnd_lineAfter_iff hlt).mp hexit; omega
      rfl
    · exact ih (k := k + 1) (by omega)

theorem mem_loopPoints_iff (x0 y0 x1 y1 a b : Int) :
    (a, b) ∈ loopPoints (lineCount x0 y0 x1 y1) (lineStart x0 y0 x1 y1) ↔ LinePoint x0 y0 x1 y1 a b := by
  have hpoints := loopPoints_lineAfter (Nat.zero_add (lineCount x0 y0 x1 y1))
  rw [lineAfter] at hpoints
  simp [hpoints, LinePoint, ← List.range_eq_range']

/-- `LineDraw` paints the points its loop visits (R80). -/
theorem lineDraw_painted (x0 y0 x1 y1 : Int) (c : Bool) {fb : Memory} (h : Memory.wf fb = true) :
    Painted (LinePoint x0 y0 x1 y1) c fb (lineDraw x0 y0 x1 y1 c fb).2 := by
  rw [lineDraw_fb]
  exact (paintPoints_painted c _ h).congr (mem_loopPoints_iff x0 y0 x1 y1)

theorem linePoint_start (x0 y0 x1 y1 : Int) : LinePoint x0 y0 x1 y1 x0 y0 := ⟨0, Nat.succ_pos _, rfl, rfl⟩

theorem linePoint_end (x0 y0 x1 y1 : Int) : LinePoint x0 y0 x1 y1 x1 y1 :=
  ⟨_, Nat.lt_succ_self _, (lineAfter_stands (Nat.lt_succ_self _)).at_end rfl⟩

/-- The `k` of the iteration at a point whose column is in the bounding box, on a line whose major axis is x. -/
theorem lineAfter_lx_eq {x0 y0 x1 y1 a : Int} (hmajor : (y1 - y0).natAbs ≤ (x1 - x0).natAbs)
    (ha : min x0 x1 ≤ a ∧ a ≤ max x0 x1) :
    (a - x0).natAbs < lineCount x0 y0 x1 y1 ∧ (lineAfter x0 y0 x1 y1 (a - x0).natAbs).lx = a := by
  have hk : (a - x0).natAbs < lineCount x0 y0 x1 y1 := by
    rw [lineCount]
    omega
  have hstands := lineAfter_stands hk
  have hbox := hstands.lx_mem
  have hi := hstands.lx_major hmajor
  exact ⟨hk, by omega⟩

theorem linePoint_swap (x0 y0 x1 y1 a b : Int) : LinePoint y0 x0 y1 x1 b a ↔ LinePoint x0 y0 x1 y1 a b := by
  simp only [LinePoint, lineCount, lineAfter_swapAxes x0 y0 x1 y1, swapAxes, max_comm, and_comm]

theorem linePoint_horizontal_iff (x0 x1 y a b : Int) :
    LinePoint x0 y x1 y a b ↔ min x0 x1 ≤ a ∧ a ≤ max x0 x1 ∧ b = y := by
  constructor
  · rintro ⟨k, hk, rfl, rfl⟩
    have hx := (lineAfter_stands hk).lx_mem
    have hy := (lineAfter_stands hk).ly_mem
    omega
  · rintro ⟨hlow, hhigh, rfl⟩
    obtain ⟨hk, hlx⟩ := lineAfter_lx_eq (y0 := b) (y1 := b) (by omega) ⟨hlow, hhigh⟩
    have hy := (lineAfter_stands hk).ly_mem
    exact ⟨_, hk, hlx, by omega⟩

theorem linePoint_vertical_iff (x y0 y1 a b : Int) :
    LinePoint x y0 x y1 a b ↔ min y0 y1 ≤ b ∧ b ≤ max y0 y1 ∧ a = x := by
  rw [← linePoint_swap, linePoint_horizontal_iff]

/-- A coordinate between two end points lies from the first in the direction of the second. -/
theorem sub_eq_natAbs_mul_sign {a b c : Int} (h : min a b ≤ c ∧ c ≤ max a b) :
    c - a = (c - a).natAbs * (b - a).sign := by
  rcases lt_trichotomy a b with hlt | rfl | hgt
  · rw [Int.sign_eq_one_of_pos (by omega)]
    omega
  · rw [Int.sub_self, Int.sign_zero]
    omega
  · rw [Int.sign_eq_neg_one_of_neg (by omega)]
    omega

/-- On a diagonal line the two coordinates move together. -/
theorem LineStands.diagonal {x0 y0 x1 y1 : Int} {k : Nat} {r : LineRegs} (h : LineStands x0 y0 x1 y1 k r)
    (hdiag : (x1 - x0).natAbs = (y1 - y0).natAbs) :
    r.ly - y0 = (r.lx - x0) * ((y1 - y0).sign * (x1 - x0).sign) := by
  have hx := sub_eq_natAbs_mul_sign h.lx_mem
  have hy := sub_eq_natAbs_mul_sign h.ly_mem
  rw [h.lx_major hdiag.ge] at hx
  rw [h.ly_major hdiag.le] at hy
  rw [hx, hy]
  by_cases hne : x1 - x0 = 0
  · have hy0 : y1 - y0 = 0 := by omega
    simp [hy0]
  · have hsign : (x1 - x0).sign * (x1 - x0).sign = 1 := by
      rw [← Int.sign_mul, Int.sign_eq_one_of_pos (mul_self_pos.mpr hne)]
    calc (k : Int) * (y1 - y0).sign
        = k * (y1 - y0).sign * ((x1 - x0).sign * (x1 - x0).sign) := by rw [hsign, mul_one]
      _ = k * (x1 - x0).sign * ((y1 - y0).sign * (x1 - x0).sign) := by ring

theorem linePoint_diagonal_iff {x0 y0 x1 y1 : Int} (hdiag : (x1 - x0).natAbs = (y1 - y0).natAbs) (a b : Int) :
    LinePoint x0 y0 x1 y1 a b ↔
      min x0 x1 ≤ a ∧ a ≤ max x0 x1 ∧ b - y0 = (a - x0) * ((y1 - y0).sign * (x1 - x0).sign) := by
  constructor
  · rintro ⟨k, hk, rfl, rfl⟩
    have hstands := lineAfter_stands hk
    have ⟨hlow, hhigh⟩ := hstands.lx_mem
    exact ⟨hlow, hhigh, hstands.diagonal hdiag⟩
  · rintro ⟨hlow, hhigh, hb⟩
    obtain ⟨hk, hlx⟩ := lineAfter_lx_eq hdiag.ge ⟨hlow, hhigh⟩
    have hly := (lineAfter_stands hk).diagonal hdiag
    rw [hlx, ← hb] at hly
    exact ⟨_, hk, hlx, by omega⟩

theorem lineDraw_horizontal_painted (x0 x1 y : Int) (c : Bool) {fb : Memory} (h : Memory.wf fb = true) :
    Painted (fun a b => min x0 x1 ≤ a ∧ a ≤ max x0 x1 ∧ b = y) c fb (lineDraw x0 y x1 y c fb).2 :=
  (lineDraw_painted x0 y x1 y c h).congr (linePoint_horizontal_iff x0 x1 y)

theorem lineDraw_vertical_painted (x y0 y1 : Int) (c : Bool) {fb : Memory} (h : Memory.wf fb = true) :
    Painted (fun a b => min y0 y1 ≤ b ∧ b ≤ max y0 y1 ∧ a = x) c fb (lineDraw x y0 x y1 c fb).2 :=
  (lineDraw_painted x y0 x y1 c h).congr (linePoint_vertical_iff x y0 y1)

/-- Settles O9: by the points of the line. -/
theorem straightLinesAreExact : Obligations.StraightLinesAreExact := by
  unfold Obligations.StraightLinesAreExact
  intro x0 y0 x1 y1 c fb hwf
  have hpainted := lineDraw_painted x0 y0 x1 y1 c hwf
  have ⟨hdrawn, _, _⟩ := hpainted
  refine ⟨fun hp => hdrawn _ _ hp (linePoint_start ..), fun hp => hdrawn _ _ hp (linePoint_end ..), ?_, ?_,
    fun hdiag => hpainted.congr (linePoint_diagonal_iff hdiag)⟩
  · rintro rfl
    exact lineDraw_horizontal_painted x0 x1 y0 c hwf
  · rintro rfl
    exact lineDraw_vertical_painted x0 y0 y1 c hwf

theorem exec_drawLine (c : Bool) (x0 y0 x1 y1 : Byte) {s : State} (hfault : s.fault = false) :
    exec (.drawLine c x0 y0 x1 y1) s =
      .next (finish { s with fb := (lineDraw (zext x0) (zext y0) (zext x1) (zext y1) c s.fb).2 }) :=
  runCommand_of_drawsBy (f := fun fb => (lineDraw (zext x0) (zext y0) (zext x1) (zext y1) c fb).2) (fun _ => rfl)
    hfault

/-- Settles O8: DRAW_LINE is `LineDraw`. -/
theorem drawLinePaintsItsPoints : Obligations.DrawLinePaintsItsPoints := by
  unfold Obligations.DrawLinePaintsItsPoints
  intro color x0 y0 x1 y1 s hfault hwf
  exact ⟨rfl, _, exec_drawLine color x0 y0 x1 y1 hfault, lineDraw_painted _ _ _ _ color hwf, sameButFb_finish s _⟩

/-! ## The range of the line registers -/

/-- E2 is twice the error before the last advance, so the error's bound is its bound. -/
theorem lineAfter_e2_le {x0 y0 x1 y1 : Int} {k : Nat} (hk : k < lineCount x0 y0 x1 y1) :
    (lineAfter x0 y0 x1 y1 k).e2.natAbs ≤ 3 * max (x1 - x0).natAbs (y1 - y0).natAbs := by
  cases k with
  | zero => exact (lineStart_stands x0 y0 x1 y1).err_le
  | succ k =>
    rw [lineAfter_succ, lineAdvance_e2]
    exact (lineAfter_stands (Nat.lt_of_succ_lt hk)).err_le

/-- On a horizontal or vertical line the error stays what it was at the start. -/
theorem LineStands.straight {x0 y0 x1 y1 : Int} {k : Nat} {r : LineRegs} (h : LineStands x0 y0 x1 y1 k r)
    (hstraight : x0 = x1 ∨ y0 = y1) : r.err = (x1 - x0).natAbs - (y1 - y0).natAbs := by
  have hx := h.lx_mem
  have hy := h.ly_mem
  have herr := h.err_eq
  rcases hstraight with rfl | rfl
  · obtain hlx : r.lx = x0 := by omega
    simpa [hlx] using herr
  · obtain hly : r.ly = y0 := by omega
    simpa [hly] using herr

theorem lineAfter_e2_straight {x0 y0 x1 y1 : Int} {k : Nat} (hk : k < lineCount x0 y0 x1 y1)
    (hstraight : x0 = x1 ∨ y0 = y1) :
    (lineAfter x0 y0 x1 y1 k).e2 = 2 * ((x1 - x0).natAbs - (y1 - y0).natAbs) := by
  cases k with
  | zero => rfl
  | succ k =>
    rw [lineAfter_succ, lineAdvance_e2, (lineAfter_stands (Nat.lt_of_succ_lt hk)).straight hstraight]

/-- A segment of `RectOutline` is horizontal or vertical, and its end points are corners of the rectangle (R84). -/
theorem outlineSegment_straight {x y xr yb : Int} {edge : Nat} {p q : Int × Int}
    (h : outlineSegment x y xr yb edge = (p, q)) :
    (p.1 = q.1 ∨ p.2 = q.2) ∧ (p.1 = x ∨ p.1 = xr) ∧ (q.1 = x ∨ q.1 = xr) ∧ (p.2 = y ∨ p.2 = yb) ∧
      (q.2 = y ∨ q.2 = yb) := by
  unfold outlineSegment at h
  split at h <;> obtain ⟨rfl, rfl⟩ := Prod.mk.inj h <;> simp

/-- Settles O7: by the bounding box and the error's bound, and on a segment by the error's value. -/
theorem lineRegistersFitSixteenBits : Obligations.LineRegistersFitSixteenBits := by
  unfold Obligations.LineRegistersFitSixteenBits
  refine ⟨fun x0 y0 x1 y1 k hk => ?_, fun x y w h edge k p q _ hseg hk => ?_⟩
  · have hx0 := zext_bounds x0
    have hy0 := zext_bounds y0
    have hx1 := zext_bounds x1
    have hy1 := zext_bounds y1
    have hstands := lineAfter_stands hk
    have hlx := hstands.lx_mem
    have hly := hstands.ly_mem
    have herr := hstands.err_le
    have he2 := lineAfter_e2_le hk
    rw [lineCount]
    omega
  · have hx := zext_bounds x
    have hy := zext_bounds y
    have hw := zext_bounds w
    have hh := zext_bounds h
    have hstands := lineAfter_stands hk
    obtain ⟨hstraight, hp1, hq1, hp2, hq2⟩ := outlineSegment_straight hseg
    have hlx := hstands.lx_mem
    have hly := hstands.ly_mem
    have herr := hstands.straight hstraight
    have he2 := lineAfter_e2_straight hk hstraight
    rw [lineCount]
    omega

/-! ## Rectangles -/

/-- The sequencer of a filled rectangle: its completion, and FB after it. -/
theorem runCommand_fillState (x y w h : Byte) (c : Bool) {s : State} (hfault : s.fault = false) :
    runCommand (fillState x y w h c) s =
      .next (finish { s with fb := paintPoints c (fillPoints (zext x) (zext y) w.toNat h.toNat) s.fb }) :=
  runCommand_of_drawsBy (fillState_drawsBy x y w h c) hfault

theorem fillPoints_painted (x y w h : Byte) (c : Bool) {fb : Memory} (hwf : Memory.wf fb = true) :
    Painted (FillPoint (zext x) (zext y) (zext w) (zext h)) c fb
      (paintPoints c (fillPoints (zext x) (zext y) w.toNat h.toNat) fb) :=
  (paintPoints_painted c _ hwf).congr (mem_fillPoints (zext x) (zext y) w.toNat h.toNat)

/-- Settles O10: a filled DRAW_RECT is `RectFill`. -/
theorem filledRectPaintsItsPoints : Obligations.FilledRectPaintsItsPoints := by
  unfold Obligations.FilledRectPaintsItsPoints
  exact fun color x y w h s hfault hwf =>
    ⟨_, runCommand_fillState x y w h color hfault, fillPoints_painted x y w h color hwf, sameButFb_finish s _⟩

/-- `RectOutline` paints its four segments (R84). -/
theorem rectOutline_painted (x y : Int) (w h : Nat) (c : Bool) {p : RectRegs × LineRegs × Memory}
    (hwf : Memory.wf p.2.2 = true) :
    Painted (OutlinePoint x y w h) c p.2.2 (rectOutline x y w h c p).2.2 := by
  have hwf₁ := lineDraw_wf x y (x + w - 1) y c hwf
  have hwf₂ := lineDraw_wf x (y + h - 1) (x + w - 1) (y + h - 1) c hwf₁
  have hwf₃ := lineDraw_wf x y x (y + h - 1) c hwf₂
  have htop := lineDraw_horizontal_painted x (x + w - 1) y c hwf
  have hbottom := lineDraw_horizontal_painted x (x + w - 1) (y + h - 1) c hwf₁
  have hleft := lineDraw_vertical_painted x y (y + h - 1) c hwf₂
  have hright := lineDraw_vertical_painted (x + w - 1) y (y + h - 1) c hwf₃
  rw [rectOutline_fb]
  refine (((htop.trans hbottom).trans hleft).trans hright).congr fun a b => ?_
  simp only [OutlinePoint]
  tauto

/-- Settles O11: an outline DRAW_RECT is `RectOutline`. -/
theorem outlineRectPaintsItsPoints : Obligations.OutlineRectPaintsItsPoints := by
  unfold Obligations.OutlineRectPaintsItsPoints
  intro color x y w h s hfault hwf
  exact ⟨_, runCommand_eq (body := outlineState x y w h color) hfault,
    rectOutline_painted _ _ _ _ color (p := (s.work.rect, s.work.line, s.fb)) hwf, sameButFb_finish s _⟩

/-- The rectangle of the whole display cleared is FB blank. -/
theorem paintPoints_display {fb : Memory} (hwf : Memory.wf fb = true) :
    paintPoints false (fillPoints (zext 0) (zext 0) (84#8).toNat (48#8).toNat) fb = [] := by
  obtain ⟨hdrawn, -, -⟩ := fillPoints_painted 0 0 84 48 false hwf
  refine eq_nil_of_blank (paintPoints_wf false _ hwf) fun x y hp => hdrawn x y hp ?_
  obtain ⟨hx0, hx, hy0, hy⟩ := hp
  exact ⟨hx0, hx, hy0, hy⟩

/-- Settles O12: CLEAR_AREA is `RectFill` in colour 0. -/
theorem clearAreaClearsItsRectangle : Obligations.ClearAreaClearsItsRectangle := by
  unfold Obligations.ClearAreaClearsItsRectangle
  intro x y w h s hfault hwf
  refine ⟨rfl, ⟨_, runCommand_fillState x y w h false hfault, fillPoints_painted x y w h false hwf,
    sameButFb_finish s _⟩, rfl, ?_⟩
  rw [exec_clear hfault hwf, ← paintPoints_display hwf]
  exact runCommand_fillState 0 0 84 48 false hfault

end Sys2Proof.Machine
end

section
/-! The glyph compositer and the text layout (spec/42_glyph.md): a cell is a drawing of its 48 points, each in the
colour its font bit gives, and a string is a drawing of its characters' cells. -/

namespace Sys2Proof.Machine

/-! ## Drawing points of many colours -/

/-- `PixelWrite` on each point of a list, in order, each point in its own colour. -/
def paintEach (colour : Int → Int → Bool) (points : List (Int × Int)) (fb : Memory) : Memory :=
  points.foldl (fun m p => pixelWrite p.1 p.2 (colour p.1 p.2) m) fb

@[simp] theorem paintEach_nil (colour : Int → Int → Bool) (fb : Memory) : paintEach colour [] fb = fb := rfl

@[simp] theorem paintEach_cons (colour : Int → Int → Bool) (p : Int × Int) (ps : List (Int × Int)) (fb : Memory) :
    paintEach colour (p :: ps) fb = paintEach colour ps (pixelWrite p.1 p.2 (colour p.1 p.2) fb) := rfl

theorem paintEach_append (colour : Int → Int → Bool) (ps qs : List (Int × Int)) (fb : Memory) :
    paintEach colour (ps ++ qs) fb = paintEach colour qs (paintEach colour ps fb) := by
  simp [paintEach, List.foldl_append]

theorem pixelRead_paintEach (colour : Int → Int → Bool) (ps : List (Int × Int)) {fb : Memory}
    (h : Memory.wf fb = true) {a b : Int} (hp : IsPixel a b) :
    pixelRead (paintEach colour ps fb) a b = if (a, b) ∈ ps then some (colour a b) else pixelRead fb a b := by
  induction ps generalizing fb with
  | nil => simp
  | cons p ps ih =>
    rw [paintEach_cons, ih (pixelWrite_wf _ _ _ h), pixelRead_pixelWrite _ h hp]
    by_cases hhead : p = (a, b)
    · simp [hhead]
    · have hhead' : ¬(p.1 = a ∧ p.2 = b) := fun he => hhead (Prod.ext he.1 he.2)
      simp only [List.mem_cons, Ne.symm hhead, false_or, if_neg hhead']

theorem fbRead_paintEach (colour : Int → Int → Bool) (ps : List (Int × Int)) (fb : Memory) {i : Nat}
    (h : ∀ p ∈ ps, (pixelAddr p.1 p.2).1 ≠ i) : fbRead (paintEach colour ps fb) i = fbRead fb i := by
  induction ps generalizing fb with
  | nil => rfl
  | cons p ps ih =>
    rw [paintEach_cons, ih _ fun q hq => h q (List.mem_cons_of_mem _ hq)]
    exact fbRead_pixelWrite_other _ fb fun _ => (h p (List.mem_cons_self ..)).symm

/-! ## The points of a character cell -/

/-- The six column bytes of a cell: the glyph's five, and the spacer column with every bit clear (R91). -/
def cellByte (columns : Nat → Byte) (i : Nat) : Byte := if i < 5 then columns i else 0

theorem cellByte_of_lt (columns : Nat → Byte) {i : Nat} (hi : i < 5) : cellByte columns i = columns i := if_pos hi

theorem cellByte_spacer (columns : Nat → Byte) : cellByte columns 5 = 0 := rfl

/-- The colour of a font bit (R91). -/
def inked (b : Byte) (j : Nat) (c : Bool) : Bool := if b.getLsbD j then c else !c

/-- The colour a cell with its corner at `(x, y)` gives the point `(a, b)`. -/
def cellColour (x y : Nat) (columns : Nat → Byte) (c : Bool) (a b : Int) : Bool :=
  inked (cellByte columns (a - x).toNat) (b - y).toNat c

theorem cellColour_add (x y : Nat) (columns : Nat → Byte) (c : Bool) (i j : Nat) :
    cellColour x y columns c ((x : Int) + i) ((y : Int) + j) = inked (cellByte columns i) j c := by
  simp [cellColour]

/-- One column of a cell is a drawing of its eight points. -/
theorem glyphColumn_paintEach (x y i : Nat) (columns : Nat → Byte) (c : Bool) (p : GlyphRegs × Memory) :
    (glyphColumn x y i (cellByte columns i) c p).2 =
      paintEach (cellColour x y columns c)
        ((List.range 8).map fun (j : Nat) => ((x : Int) + (i : Int), (y : Int) + (j : Int))) p.2 := by
  simp only [glyphColumn_fb, paintEach, List.foldl_map, cellColour_add, Nat.cast_add, inked]

/-- The first `n` glyph columns of a cell, as `GlyphDraw` draws them. -/
def firstColumns (x y : Nat) (columns : Nat → Byte) (c : Bool) (n : Nat) (p : GlyphRegs × Memory) :
    GlyphRegs × Memory :=
  (List.range n).foldl (fun q gi => glyphColumn x y gi (columns gi) c ({ q.1 with gbyte := columns gi }, q.2)) p

theorem glyphBody_eq_firstColumns (x y : Nat) (columns : Nat → Byte) (c : Bool) (p : GlyphRegs × Memory) :
    glyphBody x y columns c p = glyphColumn x y 5 (cellByte columns 5) c (firstColumns x y columns c 5 p) := rfl

theorem fillPoints_succ (x y : Int) (w h : Nat) :
    fillPoints x y (w + 1) h =
      fillPoints x y w h ++ (List.range h).map fun (j : Nat) => (x + (w : Int), y + (j : Int)) := by
  simp [fillPoints, List.range_succ]

theorem firstColumns_fb (x y : Nat) (columns : Nat → Byte) (c : Bool) {n : Nat} (hn : n ≤ 5)
    (p : GlyphRegs × Memory) :
    (firstColumns x y columns c n p).2 = paintEach (cellColour x y columns c) (fillPoints x y n 8) p.2 := by
  induction n with
  | zero => rfl
  | succ n ih =>
    rw [fillPoints_succ, paintEach_append, ← ih (Nat.le_of_succ_le hn), firstColumns, List.range_succ,
      List.foldl_append, List.foldl_cons, List.foldl_nil, ← cellByte_of_lt columns hn, glyphColumn_paintEach,
      firstColumns]

/-- A cell is a drawing of the points of `[x, x+6) × [y, y+8)` (R91). -/
theorem glyphBody_fb (x y : Nat) (columns : Nat → Byte) (c : Bool) (p : GlyphRegs × Memory) :
    (glyphBody x y columns c p).2 = paintEach (cellColour x y columns c) (fillPoints x y 6 8) p.2 := by
  rw [glyphBody_eq_firstColumns, glyphColumn_paintEach, firstColumns_fb x y columns c le_rfl, ← paintEach_append,
    ← fillPoints_succ]

/-! ## An accepted glyph -/

/-- Every pixel of an accepted cell, the spacer column included (R96). -/
theorem pixelRead_glyphBody {x y : Nat} (hx : x ≤ 78) (hy : y ≤ 40) (columns : Nat → Byte) (c : Bool)
    {p : GlyphRegs × Memory} (hwf : Memory.wf p.2 = true) {i j : Nat} (hi : i < 6) (hj : j < 8) :
    pixelRead (glyphBody x y columns c p).2 ((x + i : Nat) : Int) ((y + j : Nat) : Int) =
      some (inked (cellByte columns i) j c) := by
  have hp : IsPixel ((x + i : Nat) : Int) ((y + j : Nat) : Int) := by unfold IsPixel; omega
  have hcell : (((x + i : Nat) : Int), ((y + j : Nat) : Int)) ∈ fillPoints x y 6 8 := by
    rw [mem_fillPoints, FillPoint]
    omega
  rw [glyphBody_fb, pixelRead_paintEach _ _ hwf hp, if_pos hcell, Nat.cast_add, Nat.cast_add, cellColour_add]

/-- An accepted glyph composites its cell and touches nothing else (R96). -/
theorem glyphBody_painted {x y : Nat} (hx : x ≤ 78) (hy : y ≤ 40) (code : Byte) (c : Bool)
    {p : GlyphRegs × Memory} (hwf : Memory.wf p.2 = true) :
    GlyphPainted x y code c p.2 (glyphBody x y (Config.font code.toNat) c p).2 := by
  refine ⟨fun i j hi hj => ?_, fun j hj => ?_, fun a b hp hout => ?_, fun k hk => ?_⟩
  · rw [pixelRead_glyphBody hx hy _ c hwf (Nat.lt_succ_of_lt hi) hj, cellByte_of_lt _ hi, inked]
  · rw [pixelRead_glyphBody hx hy _ c hwf (Nat.lt_succ_self 5) hj, cellByte_spacer]
    simp [inked]
  · rw [glyphBody_fb, pixelRead_paintEach _ _ hwf hp, if_neg fun hmem => hout ((mem_fillPoints ..).mp hmem)]
  · rw [glyphBody_fb]
    refine fbRead_paintEach _ _ _ fun ⟨a, b⟩ hmem => ?_
    obtain ⟨hxa, hax, hyb, hby⟩ := (mem_fillPoints ..).mp hmem
    lift a to ℕ using by omega
    lift b to ℕ using by omega
    exact hk a b (by omega) (by omega) (by omega) (by omega)

/-- On a page boundary eight pixels of a column are one byte of FB (R70). -/
theorem fbRead_of_column {fb : Memory} {x y : Nat} {v : Byte} (hpage : y % 8 = 0)
    (h : ∀ j < 8, pixelRead fb (x : Int) ((y + j : Nat) : Int) = some (v.getLsbD j)) :
    fbRead fb (y / 8 * 84 + x) = v := by
  refine BitVec.eq_of_getLsbD_eq fun j hj => ?_
  have hread := h j hj
  have hp : IsPixel (x : Int) ((y + j : Nat) : Int) := by
    by_contra hout
    rw [pixelRead_out fb hout] at hread
    cases hread
  have hplace : pixelAddr (x : Int) ((y + j : Nat) : Int) = (y / 8 * 84 + x, j) := by
    simp only [pixelAddr, Config.width, Int.toNat_natCast, Prod.mk.injEq]
    omega
  rw [pixelRead_in fb hp, hplace] at hread
  exact Option.some.inj hread

/-- A font byte in colour 1 is itself, in colour 0 its complement (R96). -/
theorem inked_eq_getLsbD (b : Byte) {j : Nat} (hj : j < 8) (c : Bool) :
    inked b j c = (if c then b else ~~~b).getLsbD j := by
  cases c <;> simp [inked, hj]

/-- The six bytes of an accepted cell on a page boundary (R96). -/
theorem fbRead_glyphBody {x y : Nat} (hx : x ≤ 78) (hy : y ≤ 40) (hpage : y % 8 = 0) (columns : Nat → Byte)
    (c : Bool) {p : GlyphRegs × Memory} (hwf : Memory.wf p.2 = true) {i : Nat} (hi : i < 6) :
    fbRead (glyphBody x y columns c p).2 (y / 8 * 84 + x + i) =
      if c then cellByte columns i else ~~~(cellByte columns i) := by
  rw [Nat.add_assoc]
  exact fbRead_of_column hpage fun j hj => by
    rw [pixelRead_glyphBody hx hy columns c hwf hi hj, inked_eq_getLsbD _ hj]

/-! ## DRAW_CHAR -/

theorem glyphFits_iff (x y : Nat) : glyphFits x y = true ↔ x ≤ 78 ∧ y ≤ 40 := by
  rw [glyphFits, Bool.and_eq_true, decide_eq_true_eq, decide_eq_true_eq]
  rfl

theorem glyphCovered_iff (code : Byte) :
    glyphCovered code = true ↔ 0x20 ≤ code.toNat ∧ code.toNat ≤ Config.fontLast := by
  rw [glyphCovered, Bool.and_eq_true, decide_eq_true_eq, decide_eq_true_eq]
  rfl

/-- At an origin of `x <= 78`, `y <= 40` a code the font covers is drawn (R91). -/
theorem glyphDraw_eq_glyphBody {x y : Nat} {code : Byte} (hx : x ≤ 78) (hy : y ≤ 40) (hlo : 0x20 ≤ code.toNat)
    (hhi : code.toNat ≤ Config.fontLast) (c : Bool) (p : GlyphRegs × Memory) :
    glyphDraw x y code c p = glyphBody x y (Config.font code.toNat) c p :=
  glyphDraw_accepted ((glyphFits_iff x y).mpr ⟨hx, hy⟩) ((glyphCovered_iff code).mpr ⟨hlo, hhi⟩) c p

/-- DRAW_CHAR is `GlyphDraw`, whatever the glyph registers held (R92). -/
theorem exec_drawChar (c : Bool) (x y code : Byte) {s : State} (hfault : s.fault = false) :
    exec (.drawChar c x y code) s =
      .next (finish { s with fb := (glyphDraw x.toNat y.toNat code c (Work.reset.glyph, s.fb)).2 }) :=
  runCommand_of_drawsBy (f := fun fb => (glyphDraw x.toNat y.toNat code c (Work.reset.glyph, fb)).2)
    (fun s => congrArg (fun fb => finish { s with fb := fb }) (glyphDraw_fb_regs _ _ code c s.work.glyph _ s.fb)) hfault

/-- Settles O13: by the guards, and the points of the cell. -/
theorem drawCharCompositesItsCell : Obligations.DrawCharCompositesItsCell := by
  unfold Obligations.DrawCharCompositesItsCell
  intro color x y code s hfault hwf
  refine ⟨rfl, _, exec_drawChar color x y code hfault, sameButFb_finish s _, fun hx hy hlo hhi => ?_,
    fun hout => ?_⟩
  · rw [finish_fb, glyphDraw_eq_glyphBody hx hy hlo hhi]
    exact glyphBody_painted hx hy code color hwf
  · have hguard : glyphFits x.toNat y.toNat = false ∨ glyphCovered code = false := by
      rw [← Bool.not_eq_true, ← Bool.not_eq_true, glyphFits_iff, glyphCovered_iff]
      omega
    rw [finish_fb, glyphDraw_rejected hguard]

/-- Settles O14: by the six bytes of the cell. -/
theorem pageAlignedGlyphIsItsFontBytes : Obligations.PageAlignedGlyphIsItsFontBytes := by
  unfold Obligations.PageAlignedGlyphIsItsFontBytes
  intro color x y code s hfault hwf hx hy hpage hlo hhi
  refine ⟨_, exec_drawChar color x y code hfault, ?_⟩
  rw [finish_fb, glyphDraw_eq_glyphBody hx hy hlo hhi]
  refine ⟨fun i hi => ?_, ?_⟩
  · rw [fbRead_glyphBody hx hy hpage _ color hwf (Nat.lt_succ_of_lt hi), cellByte_of_lt _ hi]
  · rw [fbRead_glyphBody hx hy hpage _ color hwf (Nat.lt_succ_self 5), cellByte_spacer]
    rfl

/-! ## DRAW_STRING -/

theorem textCells_nil (x y : Nat) (c : Bool) (fb : Memory) : textCells x y [] c fb = fb := by
  simp [textCells]

theorem textCells_wf (x y : Nat) (text : List Byte) (c : Bool) {fb : Memory} (h : Memory.wf fb = true) :
    Memory.wf (textCells x y text c fb) = true := by
  rw [← (textRun_layout c x y 0 Work.reset.text Work.reset.glyph fb text).2]
  exact textRun_wf c text h

/-- FB after DRAW_STRING is that of its characters' cells (R93, R95). -/
theorem exec_drawString_fb (c : Bool) (x y : Byte) (text : List Byte) {s : State} (hfault : s.fault = false) :
    exec (.drawString c x y text) s =
      .next (finish { s with fb := textCells x.toNat y.toNat text c s.fb }) := by
  rw [← textState_textBegin_fb c x y text.length text s]
  exact exec_drawString hfault c x y text

/-- Settles O15: by the cells of the characters. -/
theorem drawStringLaysOutItsText : Obligations.DrawStringLaysOutItsText := by
  unfold Obligations.DrawStringLaysOutItsText
  intro color x y text s hfault
  refine ⟨_, exec_drawString_fb color x y text hfault, rfl, sameButFb_finish s _, fun hempty => ?_,
    fun i hi hwf => ?_⟩
  · rw [finish_fb, hempty, textCells_nil]
  · rw [finish_fb, fbRead_of_le (textCells_wf _ _ text color hwf) hi, fbRead_of_le hwf hi]

/-- From column 0 the character after 14 is attempted at `(0, y + 8)`, where a second line has room (R95 item 4). -/
theorem textCells_fifteenth {y : Nat} (hy : y ≤ 32) {text : List Byte} (hlen : text.length = 14) (ch : Byte)
    (c : Bool) (fb : Memory) :
    textCells 0 y (text ++ [ch]) c fb = (glyphDraw 0 (y + 8) ch c (Work.reset.glyph, textCells 0 y text c fb)).2 := by
  have hcells : cellsPerLine 0 = 14 := rfl
  have hroom : text.length < cellsPerLine 0 * linesFrom y := by
    rw [hlen, hcells, linesFrom, if_pos (by omega)]
    omega
  rw [textCells_append_of_lt hroom, hlen, hcells]

/-- Settles O16: by the cell of the 15th character. -/
theorem fifteenthCharacterWraps : Obligations.FifteenthCharacterWraps := by
  unfold Obligations.FifteenthCharacterWraps
  intro color y text ch s hfault hy hlen
  refine ⟨_, _, _, exec_drawString_fb color 0 y text hfault, exec_drawChar color 0 (y + 8) ch hfault,
    exec_drawString_fb color 0 y (text ++ [ch]) hfault, ?_⟩
  have hrow : (y + 8).toNat = y.toNat + 8 := BitVec.toNat_add_of_lt (show y.toNat + 8 < 256 by omega)
  rw [finish_fb, finish_fb, finish_fb, hrow]
  exact textCells_fifteenth hy hlen ch color s.fb

end Sys2Proof.Machine
end

section
/-! The serializer and the TX port (spec/43_serializer.md): where a run of events ends, by how many of them the
collaborator accepts, and what a device that takes a whole update then holds. -/

namespace Sys2Proof.Machine

/-! ## A run of events, accepted or stalled -/

/-- The state once the collaborator has accepted a list of events, the port silent again (R100): SI counts the data bytes
among them. -/
def afterEvents (es : List TxEvent) (s : State) : State :=
  { s with
    trace := s.trace ++ es
    tx := none
    txCredit := s.txCredit.map (· - es.length)
    device := es.foldl (fun d e => deviceReceive s.draws e d) s.device
    work := { s.work with si := s.work.si + es.countP (·.dc) } }

theorem afterEvents_nil {s : State} (htx : s.tx = none) : afterEvents [] s = s := by
  cases s
  cases htx
  simp [afterEvents]

theorem afterEvents_cons (e : TxEvent) (es : List TxEvent) (s : State) :
    afterEvents (e :: es) s = afterEvents es (txAccept e s) := by
  have hcredit : s.txCredit.map (· - (es.length + 1)) = (s.txCredit.map (· - 1)).map (· - es.length) := by
    simp [Function.comp_def, Nat.sub_sub, Nat.add_comm]
  have hsi : s.work.si + (e :: es).countP (·.dc) = (txAccept e s).work.si + es.countP (·.dc) := by
    cases hdc : e.dc <;> simp [txAccept, hdc, Nat.add_assoc, Nat.add_comm]
  simp only [afterEvents, List.length_cons, hcredit, hsi]
  simp [txAccept]

/-- A run whose events are all accepted ends the command (R102). The port falls silent with the first of them; a run of
none wants it silent before. -/
theorem txRun_accepted {es : List TxEvent} {s : State} (htx : es = [] → s.tx = none)
    (hcredit : ∀ n, s.txCredit = some n → es.length ≤ n) : txRun es s = finish (afterEvents es s) := by
  induction es generalizing s with
  | nil => rw [txRun_nil, afterEvents_nil (htx rfl)]
  | cons e es ih =>
    have hopen : txBlocked s = false := by
      rw [txBlocked, beq_eq_false_iff_ne]
      intro hzero
      simpa using hcredit 0 hzero
    rw [txRun, if_neg (by simp [hopen]), afterEvents_cons]
    refine ih (fun _ => rfl) fun n hn => ?_
    obtain ⟨m, hm, rfl⟩ := Option.map_eq_some_iff.mp hn
    have := hcredit m hm
    rw [List.length_cons] at this
    omega

/-- A live collaborator accepts any run of events (R145). -/
theorem txRun_accepted_of_live {es : List TxEvent} {s : State} (hne : es ≠ []) (hlive : TxLive s) :
    txRun es s = finish (afterEvents es s) :=
  txRun_accepted (fun hnil => absurd hnil hne) fun _ hn => by cases hn.symm.trans hlive

/-- A run of more events than the credit allows waits with the next one offered (R104). -/
theorem txRun_stalled {es : List TxEvent} {e : TxEvent} {n : Nat} {s : State} (hcredit : s.txCredit = some n)
    (hnext : es[n]? = some e) :
    txRun es s = { afterEvents (es.take n) s with seq := .exec, tx := some e } := by
  induction n generalizing es s with
  | zero =>
    obtain ⟨es', rfl⟩ : ∃ es', es = e :: es' := by
      cases es with
      | nil => cases hnext
      | cons a es' => exact ⟨es', by rw [Option.some.inj hnext]⟩
    rw [txRun, if_pos (by simp [txBlocked, hcredit])]
    simp [afterEvents]
  | succ n ih =>
    cases es with
    | nil => cases hnext
    | cons a es =>
      rw [txRun, if_neg (by simp [txBlocked, hcredit]), List.take_succ_cons, afterEvents_cons]
      exact ih (by simp [hcredit]) (by simpa using hnext)

/-- An offered event that can be accepted goes before all but reset (R100, R104). -/
theorem step_of_offered {s : State} {e : TxEvent} (htx : s.tx = some e) (hfault : s.fault = false)
    (hcredit : s.txCredit ≠ some 0) (hrst : rstAsserted s.moves = false) : step s = .next (resumeUpdate e s) := by
  have hopen : txBlocked s = false := by rwa [txBlocked, beq_eq_false_iff_ne]
  simp [step, sequence, htx, hfault, hopen, hrst]

/-- While the collaborator accepts nothing and the host acts on no other wire, no step is enabled (R104). -/
theorem step_of_stalled {s : State} {e : TxEvent} (htx : s.tx = some e) (hfault : s.fault = false)
    (hcredit : s.txCredit = some 0) (hother : otherMove s.moves = none) : step s = .fault .txStalled := by
  simp [step, sequence, stepHeld, txBlocked, htx, hfault, hcredit, hother]

/-! ## DISPLAY_UPDATE -/

theorem updateEvents_eq (fb : Memory) :
    updateEvents fb = ⟨false, 0x40⟩ :: ⟨false, 0x80⟩ :: (List.range 504).map fun i => ⟨true, fbRead fb i⟩ := rfl

/-- An update that has sent fewer than 506 events has a next one (R102). -/
theorem updateEvents_next (fb : Memory) {k : Nat} (hk : k < 506) : ∃ e, (updateEvents fb)[k]? = some e :=
  ⟨_, List.getElem?_eq_getElem (by rwa [updateEvents_length])⟩

theorem updateEvents_ne_nil (fb : Memory) : updateEvents fb ≠ [] := List.cons_ne_nil _ _

/-- The state in which DISPLAY_UPDATE begins to send: SI is 0 (R102). -/
def updateBegins (s : State) : State := { s with work := { s.work with si := 0 } }

theorem exec_displayUpdate {s : State} (hfault : s.fault = false) :
    exec .displayUpdate s = .next (txRun (updateEvents s.fb) (updateBegins s)) := if_neg (by simp [hfault])

/-- With a collaborator that accepts every event DISPLAY_UPDATE ends with all of them sent, and whatever was on offer
before is so no more (R102). -/
theorem exec_displayUpdate_live {s : State} (hfault : s.fault = false) (hlive : TxLive s) :
    exec .displayUpdate s = .next (afterUpdate { s with tx := none }) := by
  have hcredit : s.txCredit = none := hlive
  rw [exec_displayUpdate hfault, txRun_accepted_of_live (s := updateBegins s) (updateEvents_ne_nil _) hlive]
  simp [afterUpdate, afterEvents, updateBegins, finish, hcredit]

/-- DISPLAY_UPDATE waiting after `k` of its events, with the next one offered (R104). -/
def stalledAt (k : Nat) (s : State) : State :=
  { afterEvents ((updateEvents s.fb).take k) (updateBegins s) with seq := .exec, tx := (updateEvents s.fb)[k]? }

theorem exec_displayUpdate_stalled {s : State} {k : Nat} (hfault : s.fault = false) (hcredit : s.txCredit = some k)
    (hk : k < 506) : exec .displayUpdate s = .next (stalledAt k s) := by
  obtain ⟨e, hnext⟩ := updateEvents_next s.fb hk
  rw [exec_displayUpdate hfault, txRun_stalled (s := updateBegins s) hcredit hnext, stalledAt, hnext]

theorem stalledAt_txCredit {s : State} {k : Nat} (hcredit : s.txCredit = some k) (hk : k < 506) :
    (stalledAt k s).txCredit = some 0 := by
  have hlength : ((updateEvents s.fb).take k).length = k := by
    rw [List.length_take, updateEvents_length, Nat.min_eq_left hk.le]
  simp [stalledAt, afterEvents, updateBegins, hcredit, hlength]

/-- Settles O17: by the state an update leaves with a live collaborator. -/
theorem displayUpdateTransmitsTheFramebuffer : Obligations.DisplayUpdateTransmitsTheFramebuffer := by
  unfold Obligations.DisplayUpdateTransmitsTheFramebuffer
  intro s hfault hlive
  refine ⟨rfl, _, exec_displayUpdate_live hfault hlive, rfl, ?_, rfl, rfl, rfl, rfl, rfl, rfl⟩
  rw [afterUpdate, finish_trace, List.length_append, updateEvents_length]

/-- Settles O18: by the state a stalled update waits in. -/
theorem stalledUpdateWaits : Obligations.StalledUpdateWaits := by
  unfold Obligations.StalledUpdateWaits
  intro s k hfault hcredit hk
  obtain ⟨e, hnext⟩ := updateEvents_next s.fb hk
  have htx : (stalledAt k s).tx = some e := hnext
  refine ⟨_, exec_displayUpdate_stalled hfault hcredit hk, rfl, rfl, ?_, rfl, ?_, rfl, hfault, rfl,
    step_of_stalled htx hfault (stalledAt_txCredit hcredit hk)⟩
  · rw [txValid, htx]
    rfl
  · have hseq : (stalledAt k s).seq = .exec := rfl
    simp [cmdReady, hseq, htx]

/-- Settles O52: the update sends FB, and every byte of a blank FB reads 0x00. -/
theorem updateAfterResetSendsABlankPicture : Obligations.UpdateAfterResetSendsABlankPicture := by
  unfold Obligations.UpdateAfterResetSendsABlankPicture
  rintro s ⟨hfb, hfault, -, htrace, -⟩ hlive
  refine ⟨_, exec_displayUpdate_live hfault hlive, ?_, hfb, hfault, rfl, hfault, rfl⟩
  have hread (i : Nat) : fbRead [] i = 0 := rfl
  rw [afterUpdate, finish_trace]
  simp only [htrace, List.nil_append, updateEvents_eq, hfb, hread, List.map_const', List.length_range]

/-! ## Going on with a stalled update -/

/-- Of the first `k` events of an update all but the two commands carry data (R102). -/
theorem countP_dc_take_updateEvents (fb : Memory) {k : Nat} (hk : k ≤ 506) :
    ((updateEvents fb).take k).countP (·.dc) = k - 2 := by
  obtain _ | _ | k := k
  · rfl
  · rfl
  · have hall : ∀ e ∈ ((List.range 504).map fun i => (⟨true, fbRead fb i⟩ : TxEvent)).take k, e.dc = true := by
      intro e he
      obtain ⟨i, -, rfl⟩ := List.mem_map.mp (List.mem_of_mem_take he)
      rfl
    have hlength : (((List.range 504).map fun i => (⟨true, fbRead fb i⟩ : TxEvent)).take k).length = k := by
      rw [List.length_take, List.length_map, List.length_range, Nat.min_eq_left (by omega)]
    rw [updateEvents_eq, List.take_succ_cons, List.take_succ_cons, List.countP_cons, List.countP_cons,
      List.countP_eq_length.mpr hall, hlength]
    rfl

/-- A stalled update whose collaborator then accepts every event sends exactly the events that were missing, and ends
where one that never stalled does (R100, R104). -/
theorem resumeUpdate_stalledAt {s : State} {k : Nat} {e : TxEvent} (hnext : (updateEvents s.fb)[k]? = some e) :
    resumeUpdate e { stalledAt k s with txCredit := none } = afterUpdate { s with tx := none, txCredit := none } := by
  obtain ⟨hk, -⟩ := List.getElem?_eq_some_iff.mp hnext
  have hsent : eventsSent e (stalledAt k s).work.si = k := by
    have hsi : (stalledAt k s).work.si = 0 + ((updateEvents s.fb).take k).countP (·.dc) := rfl
    rw [updateEvents_length] at hk
    rw [hsi, countP_dc_take_updateEvents s.fb hk.le, Nat.zero_add, eventsSent_of_getElem? hnext]
  have hrest : (updateEvents s.fb).drop k ≠ [] := by rwa [Ne, List.drop_eq_nil_iff, not_le]
  have hlive : TxLive { stalledAt k s with txCredit := none } := rfl
  have hresume : resumeUpdate e { stalledAt k s with txCredit := none } =
      txRun ((updateEvents s.fb).drop k) { stalledAt k s with txCredit := none } :=
    congrArg (fun m => txRun ((updateEvents s.fb).drop m) _) hsent
  rw [hresume, txRun_accepted_of_live hrest hlive]
  simp [finish, afterUpdate, afterEvents, stalledAt, updateBegins, ← List.foldl_append]

/-- Settles O19: by `resumeUpdate_stalledAt`. -/
theorem lateAcceptanceChangesNothing : Obligations.LateAcceptanceChangesNothing := by
  unfold Obligations.LateAcceptanceChangesNothing
  intro s k hfault hrst hk
  obtain ⟨e, hnext⟩ := updateEvents_next s.fb hk
  have hstep := (step_of_offered (s := { stalledAt k { s with txCredit := some k } with txCredit := none })
    hnext hfault nofun hrst).trans (congrArg Host.Outcome.next (resumeUpdate_stalledAt hnext))
  exact ⟨_, _, _, exec_displayUpdate_stalled hfault rfl hk, hstep, exec_displayUpdate_live hfault rfl, rfl, rfl, rfl,
    rfl, rfl, rfl⟩

/-- The event a stalled update offers is one of its 506 (R104). -/
theorem Inv.eventsSent_lt {s : State} {e : TxEvent} (h : Inv s) (htx : s.tx = some e) :
    eventsSent e s.work.si < 506 := by
  obtain ⟨-, -, -, hwaits⟩ := (inv_exec_iff (h.seq_of_tx htx)).mp h
  obtain ⟨hget, -⟩ := (execWaits_update_iff htx).mp hwaits
  obtain ⟨hlt, -⟩ := List.getElem?_eq_some_iff.mp hget
  rwa [updateEvents_length] at hlt

/-- Settles O56: by whether the credit reaches the end of the update. -/
theorem offeredEventGoesFirst : Obligations.OfferedEventGoesFirst := by
  unfold Obligations.OfferedEventGoesFirst
  intro s e hinv htx hcredit hrst
  obtain ⟨-, -, hfault, -⟩ := (inv_exec_iff (hinv.seq_of_tx htx)).mp hinv
  have hlt := hinv.eventsSent_lt htx
  have hstep := step_of_offered htx hfault hcredit hrst
  rw [resumeUpdate] at hstep
  generalize eventsSent e s.work.si = m at hlt hstep ⊢
  have hlength : ((updateEvents s.fb).drop m).length = 506 - m := by rw [List.length_drop, updateEvents_length]
  by_cases hall : ∀ n, s.txCredit = some n → 506 - m ≤ n
  · have hrest : (updateEvents s.fb).drop m ≠ [] := List.ne_nil_of_length_pos (by omega)
    rw [txRun_accepted (fun h => absurd h hrest) (by rwa [hlength])] at hstep
    refine ⟨_, 506 - m, hstep, by omega, ?_, fun _ => rfl, fun n hn => (Nat.min_eq_right (hall n hn)).symm, rfl,
      hfault, rfl, .inl ⟨rfl, rfl⟩⟩
    rw [List.take_of_length_le hlength.le]
    rfl
  · push Not at hall
    obtain ⟨n, hn, hshort⟩ := hall
    obtain ⟨a, ha⟩ := updateEvents_next s.fb (k := m + n) (by omega)
    have hnext : ((updateEvents s.fb).drop m)[n]? = some a := by rw [List.getElem?_drop, ha]
    have hpos : 0 < n := Nat.pos_of_ne_zero fun hzero => hcredit (hzero ▸ hn)
    rw [txRun_stalled hn hnext] at hstep
    refine ⟨_, n, hstep, hpos, rfl, fun hnone => ?_, fun k hk => ?_, rfl, hfault, rfl,
      .inr ⟨rfl, ?_, ha.symm, Option.some_ne_none a⟩⟩
    · cases hnone.symm.trans hn
    · obtain rfl := Option.some.inj (hn.symm.trans hk)
      exact (Nat.min_eq_left hshort.le).symm
    · simp [afterEvents, hn, hlength, hshort.le]

/-! ## What the device holds -/

/-- Where the device's next data byte lands (R103, log entry 13). -/
def dataAddr (d : Device) : Nat := d.page.val * 84 + d.col.val

/-- After a data byte the address is the next one, from the last back to the first (R103, log entry 13). -/
theorem dataAddr_advanceAddress (d : Device) : dataAddr (advanceAddress d) = (dataAddr d + 1) % 504 := by
  have hpage := d.page.isLt
  have hcol := d.col.isLt
  unfold advanceAddress
  split_ifs <;> simp [dataAddr] <;> omega

/-- The device `d` began as `start`, at address 0, and has taken the first `n` bytes of a picture: it holds them, and its
control state but the addresses is that of `start`. -/
structure TookBytes (start : Device) (bytes : Nat → Byte) (n : Nat) (d : Device) : Prop where
  addr : dataAddr d = n % 504
  held : ∀ i < n, memFind d.ram i = some (bytes i)
  mode : d.mode = start.mode
  vop : d.vop = start.vop
  bias : d.bias = start.bias
  displayNormal : d.displayNormal = start.displayNormal

theorem advanceAddress_control (d : Device) :
    (advanceAddress d).mode = d.mode ∧ (advanceAddress d).vop = d.vop ∧ (advanceAddress d).bias = d.bias ∧
      (advanceAddress d).displayNormal = d.displayNormal := by
  unfold advanceAddress
  split_ifs <;> exact ⟨rfl, rfl, rfl, rfl⟩

/-- The next byte of the picture lands at the next address, where none of the earlier ones is. -/
theorem TookBytes.succ {start d : Device} {bytes : Nat → Byte} {n : Nat} (h : TookBytes start bytes n d)
    (hn : n < 504) : TookBytes start bytes (n + 1) (deviceData (bytes n) d) := by
  have haddr : dataAddr d = n := h.addr.trans (Nat.mod_eq_of_lt hn)
  obtain ⟨hmode, hvop, hbias, hnormal⟩ := advanceAddress_control { d with ram := memPut d.ram (dataAddr d) (bytes n) }
  refine ⟨?_, fun i hi => ?_, hmode.trans h.mode, hvop.trans h.vop, hbias.trans h.bias,
    hnormal.trans h.displayNormal⟩
  · rw [deviceData, dataAddr_advanceAddress]
    exact congrArg (fun a => (a + 1) % 504) haddr
  · have hram : (deviceData (bytes n) d).ram = memPut d.ram n (bytes n) := by
      rw [deviceData, advanceAddress_ram, ← dataAddr, haddr]
    rw [hram]
    by_cases hlast : i = n
    · rw [hlast, memFind_memPut_same]
    · rw [memFind_memPut_other d.ram (bytes n) hlast, h.held i (by omega)]

/-- The data bytes of an update, one after another. -/
theorem tookBytes_foldl (draws : Nat) (bytes : Nat → Byte) {start : Device} (hstart : dataAddr start = 0) {n : Nat}
    (hn : n ≤ 504) :
    TookBytes start bytes n
      (((List.range n).map fun i => (⟨true, bytes i⟩ : TxEvent)).foldl (fun d e => deviceReceive draws e d) start) := by
  induction n with
  | zero => exact ⟨hstart, fun i hi => absurd hi (Nat.not_lt_zero i), rfl, rfl, rfl, rfl⟩
  | succ n ih =>
    rw [List.range_succ, List.map_append, List.foldl_append]
    exact (ih (by omega)).succ (by omega)

theorem deviceReceive_of_decode (draws : Nat) {b : Byte} {i : Instr} {d : Device}
    (h : decodeDevice d.mode b = some i) : deviceReceive draws ⟨false, b⟩ d = deviceCommand draws i d := by
  simp [deviceReceive, h]

/-- The page command of an update selects page 0 (R60, R102). -/
theorem deviceReceive_pageCommand (draws : Nat) (d : Device) :
    deviceReceive draws ⟨false, 0x40⟩ d = { d with page := 0 } :=
  (deviceReceive_of_decode draws (decodeDevice_page d.mode 0)).trans (selectPage_of_lt draws (p := 0) (by decide) d)

/-- A device in basic mode reads the column command of an update as column 0 (R60, R102, R132). -/
theorem deviceReceive_columnCommand (draws : Nat) {d : Device} (hmode : d.mode = .basic) :
    deviceReceive draws ⟨false, 0x80⟩ d = { d with col := 0 } := by
  have hread : decodeDevice d.mode 0x80 = some (.devSetXColumn 0) := hmode ▸ decodeDevice_basic_column 0
  calc deviceReceive draws ⟨false, 0x80⟩ d
    _ = columnOrContrast draws 0 d := deviceReceive_of_decode draws hread
    _ = selectColumn draws 0 d := columnOrContrast_basic draws 0 hmode
    _ = { d with col := 0 } := selectColumn_of_lt draws (v := 0) (by decide) d

/-- Settles O20: the two commands set the address to 0, and each data byte lands at the next one. -/
theorem deviceShowsThePublishedFramebuffer : Obligations.DeviceShowsThePublishedFramebuffer := by
  unfold Obligations.DeviceShowsThePublishedFramebuffer
  intro s hfault hlive hmode
  have htook : TookBytes { s.device with page := 0, col := 0 } (fbRead s.fb) 504
      ((updateEvents s.fb).foldl (fun d e => deviceReceive s.draws e d) s.device) := by
    rw [updateEvents_eq, List.foldl_cons, List.foldl_cons, deviceReceive_pageCommand,
      deviceReceive_columnCommand s.draws (d := { s.device with page := 0 }) hmode]
    exact tookBytes_foldl s.draws (fbRead s.fb) rfl le_rfl
  exact ⟨_, exec_displayUpdate_live hfault hlive, fun p c hp hc => htook.held _ (by omega), htook.mode.trans hmode,
    htook.vop, htook.bias, htook.displayNormal⟩

end Sys2Proof.Machine
end

section
/-! The one fault and the engine's independence of the display device (spec/60_exceptions.md): what an illegal opcode
byte does, what a faulted engine still does, and that no device state reaches the engine. -/

namespace Sys2Proof.Machine

/-! ## A command on a faulted engine, and on one that is not -/

/-- A faulted engine runs no command of the stream (spec/60_exceptions.md R113). -/
theorem exec_of_faulted {i : Instr} {s : State} (hc : i.space = .command) (hfault : s.fault = true) :
    exec i s = .fault .engineFaulted := by
  by_cases hu : i = .displayUpdate
  · subst hu
    exact if_pos hfault
  · obtain ⟨body, hbody, -⟩ := exec_of_command hc hu
    exact (hbody s).trans (runCommand_faulted hfault)

/-- No command changes FAULT (spec/60_exceptions.md R110). -/
theorem exec_fault {i : Instr} {s t : State} (h : exec i s = .next t) : t.fault = s.fault := by
  obtain ⟨-, -, hfault, -⟩ := onlyUpdateTransmitsOnlyDrawingDraws i s t h
  exact hfault

/-- Settles O43: a command completes (`exists_exec_next`), and leaves FAULT as it is (`exec_fault`). -/
theorem everyLegalCommandRuns : Obligations.EveryLegalCommandRuns := by
  unfold Obligations.EveryLegalCommandRuns
  intro i s hc hfault
  obtain ⟨t, hexec⟩ := exists_exec_next hc hfault
  exact ⟨t, hexec, (exec_fault hexec).trans hfault⟩

/-- Settles O53: a command completes on an engine that is not faulted, and answers `engineFaulted` on one that is. -/
theorem onlyAFaultedEngineRunsNoCommand : Obligations.OnlyAFaultedEngineRunsNoCommand := by
  unfold Obligations.OnlyAFaultedEngineRunsNoCommand
  intro i s hc
  cases hfault : s.fault with
  | false =>
    obtain ⟨t, hexec⟩ := exists_exec_next hc hfault
    simp [hexec]
  | true => simp [exec_of_faulted hc hfault]

/-! ## The illegal opcode -/

/-- An idle engine spends an illegal opcode byte on the fault, whatever bytes follow it (spec/60_exceptions.md R113). -/
theorem takeCommand_illegal {b : Byte} {ms : List HostMove} {s : State} (hs : s.seq = .idle)
    (hm : s.moves = .cmd b :: ms) (hb : opcodeOf b = none) :
    takeCommand s = .next (raiseFault { s with moves := ms }) := by
  have hdecode : decodeCommand (b :: cmdOffered ms) = .illegalOpcode b :=
    decodeCommand_illegalOpcode_iff.mpr ⟨hb, rfl⟩
  simp [takeCommand, takenBefore, hs, hm, cmdOffered, hdecode]

/-- A faulted engine asks for no byte (spec/60_exceptions.md R113). -/
theorem cmdReady_of_faulted {s : State} (hfault : s.fault = true) : cmdReady s = false := by
  simp [cmdReady, hfault]

/-- Settles O34: the step is `raiseFault` on the moves that are left. -/
theorem illegalOpcodeRaisesTheFault : Obligations.IllegalOpcodeRaisesTheFault := by
  unfold Obligations.IllegalOpcodeRaisesTheFault
  intro b ms s hs hm hb
  have ⟨hseq, _, htx⟩ := hs
  have hstep := (step_of_cmd hs hm).trans (takeCommand_illegal hseq hm hb)
  exact ⟨_, hstep, rfl, rfl, cmdReady_of_faulted rfl, rfl, rfl, rfl, rfl, htx, rfl, rfl, rfl⟩

/-! ## The steps of a faulted engine -/

/-- A faulted engine takes no byte and accepts no event: only the host's other wires move
(spec/60_exceptions.md R113). -/
theorem step_of_faulted {s : State} (hfault : s.fault = true) : step s = stepHeld s := by
  cases htx : s.tx with
  | none => simp [step, sequence, htx, cmdReady_of_faulted hfault]
  | some e => simp [step, sequence, htx, hfault]

/-- What the host does on another wire leaves the bytes it offers as they are (log entry 6). -/
theorem heldBytes_otherMove {m : HostMove} {ms ms' : List HostMove} (h : otherMove ms = some (m, ms')) :
    heldBytes ms' = heldBytes ms := by
  induction ms generalizing ms' with
  | nil => cases h
  | cons a ms ih =>
    cases a with
    | cmd b =>
      obtain ⟨⟨_, rest⟩, hrest, heq⟩ := Option.map_eq_some_iff.mp h
      obtain ⟨rfl, rfl⟩ := Prod.mk.inj heq
      exact congrArg (b :: ·) (ih hrest)
    | dev | rst | txReady => cases h; rfl

/-- An engine that takes no byte leaves its state only by what the host does on another wire. -/
theorem stepHeld_next {s t : State} (h : stepHeld s = .next t) :
    ∃ m ms, otherMove s.moves = some (m, ms) ∧ hostMove m { s with moves := ms } = .next t := by
  unfold stepHeld at h
  split at h
  · exact ⟨_, _, ‹_›, h⟩
  · split at h <;> cases h

/-- Settles O35: the only steps are the host's moves on its other wires, and of those reset alone touches the engine. -/
theorem faultedEngineWaitsForReset : Obligations.FaultedEngineWaitsForReset := by
  unfold Obligations.FaultedEngineWaitsForReset
  intro s hfault hseq _
  rw [step_of_faulted hfault]
  refine ⟨fun i hc => exec_of_faulted hc hfault, fun hnone => ?_, fun t hstep => ?_⟩
  · simp [stepHeld, hnone, hfault]
  · obtain ⟨m, ms, hother, hmove⟩ := stepHeld_next hstep
    have hheld := heldBytes_otherMove hother
    rcases hostMove_cases (otherMove_not_cmd hother) hmove with ⟨rfl, rfl⟩ | ⟨n, -, rfl⟩ | ⟨b, i, -, hread, hexec⟩
    · exact ⟨hheld, .inr ⟨ms, hother, rfl, cleanEntry_of_afterReset (afterReset_resetEngine _), fun _ => rfl⟩⟩
    · exact ⟨hheld, .inl ⟨hfault, hseq, rfl, rfl, rfl⟩⟩
    · rw [exec_of_device (decodeDevice_space hread)] at hexec
      obtain rfl := onDevice_next hexec
      exact ⟨hheld, .inl ⟨hfault, hseq, rfl, rfl, rfl⟩⟩

/-! ## The device never reaches the engine -/

/-- A branch on what both states share keeps the two outcomes alike. -/
theorem SameButDevice.ite {c : Prop} [Decidable c] {a b a' b' : Host.Outcome State Fault Refusal}
    (ht : SameButDevice a a') (he : SameButDevice b b') :
    SameButDevice (if c then a else b) (if c then a' else b') := by
  split
  · exact ht
  · exact he

/-- Two runs of the same events differ in the device alone where their states do (spec/60_exceptions.md R118). -/
theorem txRun_sameButDevice (es : List TxEvent) (s : State) (d : Device) :
    SameButDevice (.next (txRun es s)) (.next (txRun es { s with device := d })) := by
  induction es generalizing s d with
  | nil => rfl
  | cons e es ih =>
    simp only [txRun, apply_ite Host.Outcome.next]
    exact .ite rfl (ih (txAccept e s) _)

/-- A device byte changes the device alone, so on states that differ in the device two of them differ in no more. -/
theorem exec_device_sameButDevice {i j : Instr} (hi : i.space = .device) (hj : j.space = .device) (s : State)
    (d : Device) : SameButDevice (exec i s) (exec j { s with device := d }) := by
  rw [exec_of_device hi, exec_of_device hj]
  rfl

/-- No command reads the device but to give it something (spec/60_exceptions.md R118). -/
theorem exec_sameButDevice (i : Instr) (s : State) (d : Device) :
    SameButDevice (exec i s) (exec i { s with device := d }) := by
  cases hsp : i.space with
  | device => exact exec_device_sameButDevice hsp hsp s d
  | command =>
    by_cases hu : i = .displayUpdate
    · subst hu
      exact .ite rfl (txRun_sameButDevice _ { s with work := { s.work with si := 0 } } d)
    · obtain ⟨body, f, hbody, hf⟩ := exec_drawsBy hsp hu
      rw [hbody, hbody]
      refine .ite rfl ?_
      rw [hf, hf]
      rfl

theorem resumeText_sameButDevice (s : State) (d : Device) :
    SameButDevice (.next (resumeText s)) (.next (resumeText { s with device := d })) := by
  simp only [resumeText, apply_ite Host.Outcome.next]
  exact .ite rfl rfl

theorem awaitBytes_sameButDevice (bytes : List Byte) (n : Nat) (s : State) (d : Device) :
    SameButDevice (.next (awaitBytes bytes n s)) (.next (awaitBytes bytes n { s with device := d })) := by
  simp only [awaitBytes]
  split
  · simp only [apply_ite Host.Outcome.next]
    exact .ite rfl rfl
  · rfl

/-- The bytes taken decode alike, and what the engine then does keeps the difference in the device. -/
theorem takeCommand_sameButDevice (s : State) (d : Device) :
    SameButDevice (takeCommand s) (takeCommand { s with device := d }) := by
  have hbefore : takenBefore { s with device := d } = takenBefore s := rfl
  simp only [takeCommand, hbefore]
  cases decodeCommand (takenBefore s ++ cmdOffered s.moves) with
  | ok i rest => exact exec_sameButDevice i (dispatched _ _ s) d
  | illegalOpcode => rfl
  | truncated => exact awaitBytes_sameButDevice _ _ s d

/-- The device's mode decides what a byte is read as, never whether it is read (spec/90_conflicts.md C5). -/
theorem hostMove_sameButDevice (m : HostMove) (s : State) (d : Device) :
    SameButDevice (hostMove m s) (hostMove m { s with device := d }) := by
  cases m with
  | cmd | rst | txReady => rfl
  | dev b =>
    have hlisted := decodeDevice_isSome s.device.mode d.mode b
    simp only [hostMove]
    cases hi : decodeDevice s.device.mode b <;> cases hj : decodeDevice d.mode b
    case none.none => rfl
    case some.some => exact exec_device_sameButDevice (decodeDevice_space hi) (decodeDevice_space hj) s d
    case none.some | some.none => simp [hi, hj] at hlisted

theorem stepHeld_sameButDevice (s : State) (d : Device) :
    SameButDevice (stepHeld s) (stepHeld { s with device := d }) := by
  simp only [stepHeld]
  cases otherMove s.moves with
  | some p => exact hostMove_sameButDevice p.1 { s with moves := p.2 } d
  | none => exact .ite rfl rfl

theorem stepReady_sameButDevice (s : State) (d : Device) :
    SameButDevice (stepReady s) (stepReady { s with device := d }) := by
  simp only [stepReady]
  split
  · exact .ite rfl rfl
  · exact .ite (resumeText_sameButDevice s d) (takeCommand_sameButDevice s d)
  · exact hostMove_sameButDevice _ { s with moves := _ } d
  · exact hostMove_sameButDevice _ { s with moves := _ } d
  · exact hostMove_sameButDevice _ { s with moves := _ } d

/-- Settles O46: the engine and the host choose what a step does, and every choice keeps the difference where it was. -/
theorem deviceNeverInfluencesTheEngine : Obligations.DeviceNeverInfluencesTheEngine := by
  unfold Obligations.DeviceNeverInfluencesTheEngine
  intro s d
  simp only [step, sequence]
  split
  · exact .ite (stepHeld_sameButDevice s d) (txRun_sameButDevice _ s d)
  · exact .ite (stepReady_sameButDevice s d) (stepHeld_sameButDevice s d)

end Sys2Proof.Machine
end

section
/-! Reset, the host's other wires and the device's boot sequence (spec/70_reset_and_hazards.md R130 to R132): a reset is
the next step of every state, a byte for the device gets there at once, and what the device then holds. -/

namespace Sys2Proof.Machine

/-! ## Reset -/

/-- Settles O36: the step is `resetEngine` on the moves that are left (`step_of_rst`), field by field. -/
theorem resetMoveResetsTheEngine : Obligations.ResetMoveResetsTheEngine := by
  unfold Obligations.ResetMoveResetsTheEngine
  intro s ms hm
  have hreset := afterReset_resetEngine { s with moves := ms }
  exact ⟨_, step_of_rst hm, fun _ => rfl, rfl, rfl, rfl, rfl, rfl, rfl, rfl, rfl, rfl,
    cleanEntry_of_afterReset hreset, hreset⟩

/-! ## The host's other wires -/

/-- With no event on offer that can be accepted, the host's next move on another wire than the command port is the next
step (log entries 7 and 26). -/
theorem step_of_wire {m : HostMove} {ms : List HostMove} {s : State} (hwire : ∀ b, m ≠ .cmd b)
    (hport : s.tx = none ∨ s.fault = true ∨ s.txCredit = some 0) (hm : s.moves = m :: ms) :
    step s = hostMove m { s with moves := ms } := by
  have hready : stepReady s = hostMove m { s with moves := ms } := by
    cases m with
    | cmd b => exact absurd rfl (hwire b)
    | dev | rst | txReady => simp only [stepReady, hm]
  have hheld : stepHeld s = hostMove m { s with moves := ms } := by
    cases m with
    | cmd b => exact absurd rfl (hwire b)
    | dev | rst | txReady => simp only [stepHeld, hm, otherMove]
  unfold step sequence
  split
  · rename_i e htx
    have hblocked : s.fault = true ∨ txBlocked s = true := by simpa [htx, txBlocked] using hport
    rw [if_pos (by simp [hblocked]), hheld]
  · split
    · exact hready
    · exact hheld

/-- The state after the device has taken the byte of the row `i`, the first move of the host spent. -/
def afterDeviceRow (i : Instr) (s : State) : State :=
  { s with device := deviceCommand s.draws i s.device, moves := s.moves.tail, draws := s.draws + 1 }

/-- A byte that the device reads as a row gets there in one step (R132, log entry 26). -/
theorem step_of_deviceByte {b : Byte} {i : Instr} {ms : List HostMove} {s : State}
    (hport : s.tx = none ∨ s.fault = true ∨ s.txCredit = some 0) (hm : s.moves = .dev b :: ms)
    (hread : decodeDevice s.device.mode b = some i) : step s = .next (afterDeviceRow i s) := by
  rw [step_of_wire (m := .dev b) (fun _ => nofun) hport hm]
  simp only [hostMove, hread, exec_of_device (decodeDevice_space hread), onDevice, afterDeviceRow, hm, List.tail_cons]

/-- Settles O33: the step is the host's move (`step_of_wire`), and the device's mode says what the byte is read as. -/
theorem stepDeliversDeviceBytes : Obligations.StepDeliversDeviceBytes := by
  unfold Obligations.StepDeliversDeviceBytes
  intro b ms s hport hm
  rw [step_of_wire (m := .dev b) (fun _ => nofun) hport hm]
  exact ⟨fun i hi => by simp only [hostMove, hi], fun hnone => by simp only [hostMove, hnone]⟩

/-! ## The boot sequence -/

/-- A row that the host delivers to the device takes its effect in one step, whichever mode the device reads its byte in
(log entry 14). -/
theorem step_of_deviceRow {i : Instr} {ms : List HostMove} {s : State} (hd : i.space = .device) (htx : s.tx = none)
    (hm : s.moves = deliver i ++ ms) : step s = .next (afterDeviceRow i s) := by
  obtain ⟨b, j, hbyte, hread, hsame⟩ := decodeDevice_encode hd s.device.mode
  have hmove : s.moves = .dev b :: ms := by simpa [deliver, hd, hbyte] using hm
  rw [step_of_deviceByte (.inl htx) hmove hread]
  simp only [afterDeviceRow, hsame]

/-- Rows that the host delivers to the device take their effect one after another, each in one step. -/
theorem run_of_deviceRows {rows : List Instr} {ms : List HostMove} {s : State} (hd : ∀ i ∈ rows, i.space = .device)
    (htx : s.tx = none) (hm : s.moves = rows.flatMap deliver ++ ms) :
    Host.Core.run core rows.length s = .next (rows.foldl (fun s i => afterDeviceRow i s) s) ∧
      (rows.foldl (fun s i => afterDeviceRow i s) s).moves = ms := by
  induction rows generalizing s with
  | nil => exact ⟨rfl, hm⟩
  | cons i rows ih =>
    obtain ⟨hi, hrows⟩ := List.forall_mem_cons.mp hd
    rw [List.flatMap_cons, List.append_assoc] at hm
    have hrest : (afterDeviceRow i s).moves = rows.flatMap deliver ++ ms := by
      obtain ⟨b, -, hbyte, -⟩ := decodeDevice_encode hi s.device.mode
      simp [afterDeviceRow, hm, deliver, hi, hbyte]
    rw [List.length_cons, run_succ_of_step (step_of_deviceRow hi htx hm)]
    exact ih hrows htx hrest

/-- Settles O25: the boot sequence delivers five rows of the device (`run_of_deviceRows`), and the first of them enters
the mode in which the next two set contrast and bias. -/
theorem bootSequenceInitializesTheDevice : Obligations.BootSequenceInitializesTheDevice := by
  unfold Obligations.BootSequenceInitializesTheDevice
  intro s level bias ms ⟨hseq, hfault, htx⟩ hm
  obtain ⟨hrun, hmoves⟩ := run_of_deviceRows (rows := [.devFunctionSetExtended, .devSetVop level, .devSetBias bias,
    .devFunctionSetBasic, .devDisplayControlNormal]) (by simp [Instr.space]) htx hm
  exact ⟨_, hrun, rfl, rfl, rfl, rfl, rfl, rfl, hfault, hseq, rfl, rfl, rfl, hmoves, ⟨hseq, hfault, htx⟩, rfl, rfl⟩

/-! ## An update that the device reads in extended mode -/

/-- Data bytes change the device's memory and address alone (spec/43_serializer.md R103). -/
theorem dataEvents_keep_control (draws : Nat) (bytes : List Byte) (d : Device) :
    let d' := (bytes.map dataEvent).foldl (fun d e => deviceReceive draws e d) d
    d'.mode = d.mode ∧ d'.vop = d.vop ∧ d'.bias = d.bias := by
  induction bytes generalizing d with
  | nil => exact ⟨rfl, rfl, rfl⟩
  | cons b bytes ih =>
    obtain ⟨hmode, hvop, hbias, -⟩ :=
      advanceAddress_control { d with ram := memPut d.ram (d.page.val * 84 + d.col.val) b }
    obtain ⟨hmode', hvop', hbias'⟩ := ih (deviceData b d)
    exact ⟨hmode'.trans hmode, hvop'.trans hvop, hbias'.trans hbias⟩

/-- A device in extended mode reads the column command of an update as contrast level 0 (R132). -/
theorem deviceReceive_columnCommand_extended (draws : Nat) {d : Device} (hmode : d.mode = .extended) :
    deviceReceive draws ⟨false, 0x80⟩ d = { d with vop := 0 } := by
  have hread : decodeDevice d.mode 0x80 = some (.devSetVop 0) := hmode ▸ decodeDevice_extended_vop 0
  exact (deviceReceive_of_decode draws hread).trans (columnOrContrast_extended draws 0 hmode)

/-- Settles O21: after the page command the column command sets the contrast, and the data bytes leave it. -/
theorem updateInExtendedModeSetsContrast : Obligations.UpdateInExtendedModeSetsContrast := by
  unfold Obligations.UpdateInExtendedModeSetsContrast
  intro s hfault hlive hmode
  have hupdate : (updateEvents s.fb).foldl (fun d e => deviceReceive s.draws e d) s.device =
      (((List.range 504).map (fbRead s.fb)).map dataEvent).foldl (fun d e => deviceReceive s.draws e d)
        { s.device with page := 0, vop := 0 } := by
    rw [updateEvents_eq, List.foldl_cons, List.foldl_cons, deviceReceive_pageCommand,
      deviceReceive_columnCommand_extended s.draws (d := { s.device with page := 0 }) hmode, List.map_map]
    rfl
  obtain ⟨hkeptMode, hkeptVop, hkeptBias⟩ := dataEvents_keep_control s.draws ((List.range 504).map (fbRead s.fb))
    { s.device with page := 0, vop := 0 }
  rw [← hupdate] at hkeptMode hkeptVop hkeptBias
  exact ⟨_, exec_displayUpdate_live hfault hlive, hkeptVop, hkeptMode.trans hmode, hkeptBias⟩

end Sys2Proof.Machine
end

section
/-! A run that has reached FAULTED stays there until a reset, and ends normally at no moment (spec/60_exceptions.md R113,
spec/70_reset_and_hazards.md R143). -/

namespace Sys2Proof.Machine

/-- A run of one step more that answers a next state begins with such a step. -/
theorem run_succ_next {k : Nat} {s t : State} (h : Host.Core.run core (k + 1) s = .next t) :
    ∃ u, step s = .next u ∧ Host.Core.run core k u = .next t := by
  cases hstep : step s with
  | next u => exact ⟨u, rfl, by rwa [run_succ_of_step hstep] at h⟩
  | fault r =>
    have hcore : core.step s = .fault r := hstep
    simp only [Host.Core.run, hcore] at h
    cases h
  | refused r =>
    have hcore : core.step s = .refused r := hstep
    simp only [Host.Core.run, hcore] at h
    cases h

/-- The move found on another wire and the moves without it are moves of the host. -/
theorem otherMove_perm {m : HostMove} {ms ms' : List HostMove} (h : otherMove ms = some (m, ms')) :
    ms.Perm (m :: ms') := by
  induction ms generalizing ms' with
  | nil => cases h
  | cons a ms ih =>
    cases a with
    | cmd b =>
      obtain ⟨⟨_, rest⟩, hrest, heq⟩ := Option.map_eq_some_iff.mp h
      obtain ⟨rfl, rfl⟩ := Prod.mk.inj heq
      exact ((ih hrest).cons _).trans (.swap ..)
    | dev | rst | txReady => cases h; exact .refl _

/-- A faulted engine whose host asserts no reset stays faulted, and its step leaves FB, TRACE and the bytes offered as
they are (spec/60_exceptions.md R113). -/
theorem step_faulted_keeps {s t : State} (hfault : s.fault = true) (hrst : HostMove.rst ∉ s.moves)
    (h : step s = .next t) :
    t.fault = true ∧ HostMove.rst ∉ t.moves ∧ heldBytes t.moves = heldBytes s.moves ∧ t.fb = s.fb ∧
      t.trace = s.trace := by
  rw [step_of_faulted hfault] at h
  obtain ⟨m, ms, hother, hmove⟩ := stepHeld_next h
  have hheld := heldBytes_otherMove hother
  rw [(otherMove_perm hother).mem_iff, List.mem_cons, not_or] at hrst
  obtain ⟨hm, hms⟩ := hrst
  rcases hostMove_cases (otherMove_not_cmd hother) hmove with ⟨rfl, -⟩ | ⟨n, -, rfl⟩ | ⟨b, i, -, hread, hexec⟩
  · exact absurd rfl hm
  · exact ⟨hfault, hms, hheld, rfl, rfl⟩
  · rw [exec_of_device (decodeDevice_space hread)] at hexec
    obtain rfl := onDevice_next hexec
    exact ⟨hfault, hms, hheld, rfl, rfl⟩

/-- Settles O51: by induction on the number of steps, each `step_faulted_keeps`. -/
theorem faultedRunNeverEndsNormally : Obligations.FaultedRunNeverEndsNormally := by
  unfold Obligations.FaultedRunNeverEndsNormally
  intro k
  induction k with
  | zero =>
    intro s t hfault _ hrun
    cases hrun
    exact ⟨not_runEnded_of_fault hfault, rfl, rfl, rfl⟩
  | succ k ih =>
    intro s t hfault hrst hrun
    obtain ⟨u, hstep, hrest⟩ := run_succ_next hrun
    obtain ⟨hufault, hurst, hheld, hfb, htrace⟩ := step_faulted_keeps hfault hrst hstep
    obtain ⟨hend, htheld, htfb, httrace⟩ := ih u t hufault hurst hrest
    exact ⟨hend, htheld.trans hheld, htfb.trans hfb, httrace.trans htrace⟩

end Sys2Proof.Machine
end

section
/-! The normal end of a run (spec/70_reset_and_hazards.md R143): what commands make of FB and TRACE, and where the run of
a program ends that the host delivers and nothing else. -/

namespace Sys2Proof.Machine

/-! ## The result of commands -/

/-- The result of a run that stands here: FB and TRACE (spec/70_reset_and_hazards.md R143). -/
def result (s : State) : Memory × List TxEvent := (s.fb, s.trace)

/-- No fault, nothing offered on the TX port, and a live collaborator: commands run to their end. -/
structure Unhindered (s : State) : Prop where
  fault : s.fault = false
  tx : s.tx = none
  live : TxLive s

theorem unhindered_of_cleanEntry {s : State} (hs : CleanEntry s) (hlive : TxLive s) : Unhindered s := by
  obtain ⟨-, hfault, htx⟩ := hs
  exact ⟨hfault, htx, hlive⟩

/-- The state after reset but with this FB and TRACE. -/
def standingAt (r : Memory × List TxEvent) : State := { State.reset with fb := r.1, trace := r.2 }

theorem unhindered_standingAt (r : Memory × List TxEvent) : Unhindered (standingAt r) := ⟨rfl, rfl, rfl⟩

/-- What a command makes of a result. -/
def commandResult (i : Instr) (r : Memory × List TxEvent) : Memory × List TxEvent :=
  match exec i (standingAt r) with
  | .next t => result t
  | .fault _ => r
  | .refused _ => r

theorem commandResult_of_exec {i : Instr} {r : Memory × List TxEvent} {t : State}
    (h : exec i (standingAt r) = .next t) : commandResult i r = result t := by
  simp only [commandResult, h]

theorem commandResult_device {i : Instr} (hd : i.space = .device) (r : Memory × List TxEvent) : commandResult i r = r :=
  commandResult_of_exec (exec_of_device hd _)

/-- A command of the stream ends at a command boundary with the host's moves as they were, and its result depends on the
former FB and TRACE alone (spec/20_memory.md R37). -/
theorem exec_result {i : Instr} {s : State} (hc : i.space = .command) (h : Unhindered s) :
    ∃ t, exec i s = .next t ∧ t.seq = .idle ∧ Unhindered t ∧ t.moves = s.moves ∧
      result t = commandResult i (result s) := by
  obtain ⟨hfault, htx, hlive⟩ := h
  obtain ⟨hfault', htx', hlive'⟩ := unhindered_standingAt (result s)
  by_cases hu : i = .displayUpdate
  · subst hu
    refine ⟨_, execDisplayUpdate_of_live hfault hlive htx, rfl, ⟨hfault, htx, hlive⟩, rfl, ?_⟩
    rw [commandResult_of_exec (i := .displayUpdate) (execDisplayUpdate_of_live hfault' hlive' htx')]
    rfl
  · obtain ⟨body, f, hbody, hf⟩ := exec_drawsBy hc hu
    refine ⟨_, (hbody s).trans (runCommand_of_drawsBy hf hfault), rfl, ⟨hfault, htx, hlive⟩, rfl, ?_⟩
    rw [commandResult_of_exec ((hbody _).trans (runCommand_of_drawsBy hf hfault'))]
    rfl

/-- The result of any row's run, one of the device among them. -/
theorem exec_result_any (i : Instr) {s : State} (h : Unhindered s) :
    ∃ t, exec i s = .next t ∧ Unhindered t ∧ result t = commandResult i (result s) := by
  cases hsp : i.space with
  | device => exact ⟨_, exec_of_device hsp s, ⟨h.fault, h.tx, h.live⟩, (commandResult_device hsp _).symm⟩
  | command =>
    obtain ⟨t, hexec, -, ht, -, hresult⟩ := exec_result hsp h
    exact ⟨t, hexec, ht, hresult⟩

/-- The result of a program: its commands applied one after another (R37). -/
def programResult (program : List Instr) (r : Memory × List TxEvent) : Memory × List TxEvent :=
  program.foldl (fun r i => commandResult i r) r

theorem runAll_result (program : List Instr) {s : State} (h : Unhindered s) :
    ∃ u, runAll program s = .next u ∧ result u = programResult program (result s) := by
  induction program generalizing s with
  | nil => exact ⟨s, rfl, rfl⟩
  | cons i is ih =>
    obtain ⟨t, hexec, ht, hresult⟩ := exec_result_any i h
    obtain ⟨u, hall, hu⟩ := ih ht
    exact ⟨u, by simp only [runAll, hexec, hall], by rw [hu, hresult]; rfl⟩

/-- DRAW_STRING leaves FB with its characters laid out (spec/42_glyph.md R95). -/
theorem commandResult_drawString (c : Bool) (x y : Byte) (text : List Byte) (r : Memory × List TxEvent) :
    commandResult (.drawString c x y text) r = (textCells x.toNat y.toNat text c r.1, r.2) := by
  rw [commandResult_of_exec (exec_drawString (unhindered_standingAt r).fault c x y text), result, finish_fb, finish_trace,
    textState_textBegin_fb]
  rfl

/-! ## The first moment of a run's end -/

/-- A run that has ended ends at once. -/
theorem endsNormallyAt_zero {s : State} (h : RunEnded s) : EndsNormallyAt 0 s s :=
  ⟨rfl, h, rfl, fun _ hj => absurd hj (Nat.not_lt_zero _)⟩

/-- A run that has not ended, and asserts no reset in its next step, ends where it does from there. -/
theorem EndsNormallyAt.succ {k : Nat} {s u t : State} (h : EndsNormallyAt k u t) (hstep : step s = .next u)
    (hs : ¬RunEnded s) (hresets : resetsLeft u.moves = resetsLeft s.moves) : EndsNormallyAt (k + 1) s t := by
  obtain ⟨hrun, hended, hleft, hbefore⟩ := h
  refine ⟨(run_succ_of_step hstep k).trans hrun, hended, hleft.trans hresets, fun j hj v hv => ?_⟩
  cases j with
  | zero =>
    cases hv
    exact hs
  | succ j => exact hbefore j (Nat.lt_of_succ_lt_succ hj) v ((run_succ_of_step hstep j).symm.trans hv)

/-! ## A program that the host delivers and nothing else -/

theorem resetsLeft_append (a b : List HostMove) : resetsLeft (a ++ b) = resetsLeft a + resetsLeft b :=
  List.countP_append

/-- Delivering a command takes no reset. -/
theorem resetsLeft_deliver (i : Instr) : resetsLeft (deliver i) = 0 := by
  unfold deliver
  cases i.space <;> simp [resetsLeft]

/-- A host that has delivered every command byte of a program has only rows of the device left. -/
theorem device_of_runBytes_nil {program : List Instr} (h : runBytes (program.flatMap deliver) = []) :
    ∀ i ∈ program, i.space = .device := by
  induction program with
  | nil => exact nofun
  | cons i is ih =>
    rw [List.flatMap_cons] at h
    cases hsp : i.space with
    | command =>
      simp only [deliver, hsp, runBytes_cmds, List.append_eq_nil_iff] at h
      exact absurd h.1 (encode_ne_nil i)
    | device =>
      simp only [deliver, hsp, runBytes_devs] at h
      exact List.forall_mem_cons.mpr ⟨hsp, ih h⟩

theorem programResult_devices {program : List Instr} (h : ∀ i ∈ program, i.space = .device)
    (r : Memory × List TxEvent) : programResult program r = r := by
  induction program with
  | nil => rfl
  | cons i is ih =>
    obtain ⟨hi, his⟩ := List.forall_mem_cons.mp h
    exact (congrArg (programResult is) (commandResult_device hi r)).trans (ih his)

/-- The run of a program that the host delivers: while commands of the stream are left it goes on step by step, each
the next row of the program. -/
theorem endsNormally_of_delivers {program : List Instr} {s : State} (hs : CleanEntry s) (hlive : TxLive s)
    (hd : HostDelivers program s) :
    ∃ k t, k ≤ program.length ∧ EndsNormallyAt k s t ∧ result t = programResult program (result s) ∧
      ((∀ i ∈ program, i.space = .command) → k = program.length) := by
  obtain ⟨hw, hm⟩ := hd
  induction program generalizing s with
  | nil => exact ⟨0, s, le_rfl, endsNormallyAt_zero (runEnded_of_moves_nil hm hs), rfl, fun _ => rfl⟩
  | cons i is ih =>
    by_cases hended : RunEnded s
    · obtain ⟨hbytes, -⟩ := hended
      have hdevices := device_of_runBytes_nil (hm ▸ hbytes)
      refine ⟨0, s, Nat.zero_le _, endsNormallyAt_zero ⟨hbytes, hs⟩, (programResult_devices hdevices _).symm,
        fun hcommands => ?_⟩
      cases (hdevices i (List.mem_cons_self ..)).symm.trans (hcommands i (List.mem_cons_self ..))
    · obtain ⟨hi, his⟩ := List.forall_mem_cons.mp hw
      rw [List.flatMap_cons] at hm
      obtain ⟨v, hstep, hv, hvlive, hvm, hexec⟩ := step_of_deliver hi hs hlive hm
      obtain ⟨k, t, hk, hend, hresult, hlast⟩ := ih hv hvlive his hvm
      obtain ⟨w, hexec', -, hw'⟩ := exec_result_any i (unhindered_of_cleanEntry hs hlive)
      obtain rfl : { v with moves := s.moves } = w := Host.Outcome.next.inj ((hexec s.moves).symm.trans hexec')
      have hvresult : result v = commandResult i (result s) := hw'
      refine ⟨k + 1, t, Nat.succ_le_succ hk, hend.succ hstep hended ?_, ?_, fun hcommands => ?_⟩
      · rw [hvm, hm, resetsLeft_append, resetsLeft_deliver, Nat.zero_add]
      · rw [hresult, hvresult]
        rfl
      · rw [hlast fun j hj => hcommands j (List.mem_cons_of_mem i hj), List.length_cons]

/-- Settles O50: the run ends by `endsNormally_of_delivers`, and its result is that of the commands applied one after
another (`runAll_result`). -/
theorem runEndsAtItsFirstCleanMoment : Obligations.RunEndsAtItsFirstCleanMoment := by
  unfold Obligations.RunEndsAtItsFirstCleanMoment
  intro program s hs hlive hd
  obtain ⟨k, t, hk, hend, hresult, hlast⟩ := endsNormally_of_delivers hs hlive hd
  obtain ⟨u, hall, hu⟩ := runAll_result program (unhindered_of_cleanEntry hs hlive)
  obtain ⟨hfb, htrace⟩ := Prod.mk.inj (hresult.trans hu.symm)
  exact ⟨k, t, u, hk, hend, hall, hfb, htrace, hlast⟩

end Sys2Proof.Machine
end

section
/-! The normal end of a run whose host does other things between the bytes of its commands
(spec/70_reset_and_hazards.md R143, R145): what is still to come of the run at every moment, and every step on the
way. -/

namespace Sys2Proof.Machine

/-! ## Inside a command -/

/-- The engine has begun with the command `i`, or is about to, at the result `r`, and `q` is what it has yet to take of
its bytes: among the opcode and operand bytes, or among the characters of a string that is laid out as far as they have
come. -/
inductive Midway (i : Instr) (r : Memory × List TxEvent) (q : List Byte) (s : State) : Prop where
  | operands (hseq : s.seq = .idle ∨ s.seq = .operands) (hbytes : takenBefore s ++ q = encode i) (hresult : result s = r)
  | chars {c : Bool} {x y : Byte} {text : List Byte} (hi : i = .drawString c x y text) (hseq : s.seq = .exec)
      (hcolour : s.work.latch.c = c) (hleft : s.work.text.nleft = q.length)
      (hresult : result (textState c q s) = commandResult i r)

variable {i : Instr} {r : Memory × List TxEvent} {p q : List Byte} {s : State} {rest : List HostMove}

/-- What the environment does next, and the device, are no matter of the command in progress. -/
theorem Midway.set_environment (h : Midway i r q s) (d : Device) (ms : List HostMove) (credit : Option Nat) (n : Nat) :
    Midway i r q { s with device := d, moves := ms, txCredit := credit, draws := n } := by
  cases h with
  | operands hseq hbytes hresult => exact .operands hseq hbytes hresult
  | chars hi hseq hcolour hleft hresult => exact .chars hi hseq hcolour hleft hresult

/-- An engine that waits for opcode or operand bytes takes what is offered. -/
theorem step_takes_command (hs : Unhindered s) (hseq : s.seq = .idle ∨ s.seq = .operands) (hp : p ≠ [])
    (hm : s.moves = p.map .cmd ++ rest) : step s = takeCommand s := by
  obtain ⟨hfault, htx, -⟩ := hs
  obtain ⟨b, bs, rfl⟩ := List.exists_cons_of_ne_nil hp
  rcases hseq with hseq | hseq <;> simp [step, sequence, stepReady, cmdReady, hseq, hfault, htx, hm]

/-- An engine inside a string takes what is offered. -/
theorem step_takes_chars (hs : Unhindered s) (hseq : s.seq = .exec) (hp : p ≠ []) (hm : s.moves = p.map .cmd ++ rest) :
    step s = .next (resumeText s) := by
  obtain ⟨hfault, htx, -⟩ := hs
  obtain ⟨b, bs, rfl⟩ := List.exists_cons_of_ne_nil hp
  simp [step, sequence, stepReady, cmdReady, hseq, hfault, htx, hm]

/-- A command whose last bytes come runs, whatever bytes follow (spec/30_encoding.md R50). -/
theorem takeCommand_of_suffix (hw : i.wf = true) (hc : i.space = .command) (hbytes : takenBefore s ++ q = encode i)
    (hm : s.moves = q.map .cmd ++ rest) : takeCommand s = exec i (dispatched (encode i) q.length s) := by
  have hread := decodeCommand_encode hw hc (cmdOffered rest)
  have htaken : (encode i).length - (takenBefore s).length = q.length := by simp [← hbytes]
  simp only [takeCommand, hm, cmdOffered_append, ← List.append_assoc, hbytes, hread, List.length_append,
    Nat.add_sub_cancel, List.take_left', htaken]

/-- A command whose bytes stop short waits with those that have come (R61). -/
theorem takeCommand_of_cut (hw : i.wf = true) (hc : i.space = .command) (hbytes : takenBefore s ++ (p ++ q) = encode i)
    (hp : p ≠ []) (hq : q ≠ []) (hm : s.moves = p.map .cmd ++ rest) (hrest : cmdOffered rest = []) :
    takeCommand s = .next (awaitBytes (takenBefore s ++ p) p.length s) := by
  have hread : decodeCommand (takenBefore s ++ p) = .truncated :=
    decodeCommand_of_cut hw hc ((List.append_assoc ..).trans hbytes) (by simp [hp]) hq
  simp [takeCommand, hm, cmdOffered_append, hrest, hread]

/-- A string in progress lays out the characters it takes (spec/42_glyph.md R94). -/
theorem resumeText_of_take (hm : s.moves = p.map .cmd ++ rest)
    (htake : (p ++ cmdOffered rest).take s.work.text.nleft = p) :
    resumeText s =
      if s.work.text.nleft - p.length = 0 then finish (textState s.work.latch.c p { s with moves := rest })
      else textState s.work.latch.c p { s with moves := rest } := by
  simp only [resumeText, hm, cmdOffered_append, htake, textState_nleft]
  simp

/-- The wait for the bytes of a command spends the moves that offered those taken, and hinders nothing. -/
theorem awaitBytes_frame (bytes : List Byte) (n : Nat) (hs : Unhindered s) :
    Unhindered (awaitBytes bytes n s) ∧ (awaitBytes bytes n s).moves = s.moves.drop n := by
  obtain ⟨hfault, htx, hlive⟩ := hs
  unfold awaitBytes
  split
  · split <;> exact ⟨⟨hfault, htx, hlive⟩, rfl⟩
  · exact ⟨⟨hfault, htx, hlive⟩, rfl⟩

/-- The wait for the bytes of a command cut short: what has come is latched, and a string begun is laid out so far
(R55, R61). -/
theorem midway_awaitBytes (hw : i.wf = true) (hc : i.space = .command) (h : p ++ q = encode i) (hp : p ≠ [])
    (hq : q ≠ []) (n : Nat) : Midway i (result s) q (awaitBytes p n s) := by
  rcases awaitBytes_cases hp (decodeCommand_of_cut hw hc h hp hq) n s with
    ⟨op, x, y, len, chars, rfl, ho, hlen, hwait⟩ | ⟨op, args, o, rfl, ho, hshort, hwait⟩
  · obtain ⟨c, x', y', text, rfl⟩ := drawString_of_opcodeOf hw hc h.symm ho
    have htext : text.length ≤ 255 := of_decide_eq_true hw
    simp only [encode, List.cons_append, List.cons.injEq] at h
    obtain ⟨rfl, rfl, rfl, rfl, rfl⟩ := h
    rw [toNat_ofNat_length htext, colourBit_drawString] at hwait
    rw [hwait]
    refine .chars rfl rfl (colourBit_drawString c) ?_ ?_
    · rw [textState_nleft]
      simp [textBegin, textStart]
    · rw [textState_textState, commandResult_drawString]
      exact Prod.ext (textState_textBegin_fb c x y _ _ _) rfl
  · rw [hwait]
    exact .operands (.inr rfl) ((congrArg (· ++ q) (latchedBytes_latchBytes ho hshort _)).trans h) rfl

/-- The step that takes the last bytes of a command ends it. -/
theorem Midway.step_whole (h : Midway i r q s) (hw : i.wf = true) (hc : i.space = .command) (hs : Unhindered s)
    (hq : q ≠ []) (hm : s.moves = q.map .cmd ++ rest) :
    ∃ t, step s = .next t ∧ t.seq = .idle ∧ Unhindered t ∧ t.moves = rest ∧ result t = commandResult i r := by
  cases h with
  | operands hseq hbytes hresult =>
    obtain ⟨t, hexec, ht, htu, htm, htr⟩ :=
      exec_result (s := dispatched (encode i) q.length s) hc ⟨hs.fault, hs.tx, hs.live⟩
    refine ⟨t, ?_, ht, htu, htm.trans (by simp [hm]), htr.trans (congrArg _ hresult)⟩
    rw [step_takes_command hs hseq hq hm, takeCommand_of_suffix hw hc hbytes hm, hexec]
  | chars hi hseq hcolour hleft hresult =>
    refine ⟨_, step_takes_chars hs hseq hq hm, ?_⟩
    rw [resumeText_of_take hm (by simp [hleft]), if_pos (by simp [hleft]), hcolour]
    exact ⟨rfl, ⟨hs.fault, hs.tx, hs.live⟩, rfl, hresult⟩

/-- The step that takes some of the bytes of a command leaves it with the others to take. -/
theorem Midway.step_cut (h : Midway i r (p ++ q) s) (hw : i.wf = true) (hc : i.space = .command) (hs : Unhindered s)
    (hp : p ≠ []) (hq : q ≠ []) (hm : s.moves = p.map .cmd ++ rest) (hrest : cmdOffered rest = []) :
    ∃ t, step s = .next t ∧ Midway i r q t ∧ Unhindered t ∧ t.moves = rest := by
  cases h with
  | operands hseq hbytes hresult =>
    obtain ⟨hunhindered, hmoves⟩ := awaitBytes_frame (takenBefore s ++ p) p.length hs
    have hmidway := midway_awaitBytes (s := s) hw hc ((List.append_assoc ..).trans hbytes) (by simp [hp]) hq p.length
    exact ⟨_, (step_takes_command hs hseq hp hm).trans (takeCommand_of_cut hw hc hbytes hp hq hm hrest),
      hresult ▸ hmidway, hunhindered, hmoves.trans (by simp [hm])⟩
  | chars hi hseq hcolour hleft hresult =>
    have hmore : ¬s.work.text.nleft - p.length = 0 := by
      have := List.length_pos_iff.mpr hq
      rw [hleft, List.length_append]
      omega
    refine ⟨_, step_takes_chars hs hseq hp hm, ?_⟩
    rw [resumeText_of_take hm (by simp [hrest, hleft]), if_neg hmore, hcolour]
    refine ⟨.chars hi hseq hcolour ?_ ?_, ⟨hs.fault, hs.tx, hs.live⟩, rfl⟩
    · rw [textState_nleft]
      simp [hleft]
    · rw [textState_textState]
      exact hresult

/-! ## The moves of the host -/

/-- Of the bytes a command still needs the host offers all at once, or some before it does something else. -/
theorem offered_cases {q tail : List Byte} {ms : List HostMove} (h : runBytes ms = q ++ tail) :
    (∃ rest, ms = q.map .cmd ++ rest ∧ runBytes rest = tail) ∨
      ∃ p q' rest, q = p ++ q' ∧ q' ≠ [] ∧ ms = p.map .cmd ++ rest ∧ cmdOffered rest = [] ∧
        runBytes rest = q' ++ tail := by
  induction q generalizing ms with
  | nil => exact .inl ⟨ms, rfl, h⟩
  | cons b q ih =>
    by_cases hnone : cmdOffered ms = []
    · exact .inr ⟨[], b :: q, ms, rfl, List.cons_ne_nil _ _, rfl, hnone, h⟩
    · obtain ⟨a, ms', rfl⟩ : ∃ a ms', ms = .cmd a :: ms' := by
        match ms with
        | .cmd a :: ms' => exact ⟨a, ms', rfl⟩
        | [] | .dev _ :: _ | .rst :: _ | .txReady _ :: _ => exact absurd rfl hnone
      obtain ⟨rfl, htail⟩ := List.cons.inj h
      rcases ih htail with ⟨rest, rfl, hrest⟩ | ⟨p, q', rest, rfl, hq, rfl, hrest⟩
      · exact .inl ⟨rest, rfl, hrest⟩
      · exact .inr ⟨a :: p, q', rest, rfl, hq, rfl, hrest⟩

/-- A step that spends moves of the host, no reset among them. -/
def Spends (s t : State) : Prop := ∃ spent, spent ≠ [] ∧ HostMove.rst ∉ spent ∧ s.moves = spent ++ t.moves

variable {t : State}

theorem spends_cmds (hp : p ≠ []) (h : s.moves = p.map .cmd ++ t.moves) : Spends s t :=
  ⟨p.map .cmd, by simpa using hp, by simp, h⟩

theorem Spends.length_lt (h : Spends s t) : t.moves.length < s.moves.length := by
  obtain ⟨spent, hne, -, hm⟩ := h
  have := List.length_pos_iff.mpr hne
  rw [hm, List.length_append]
  omega

theorem Spends.resetsLeft_eq (h : Spends s t) : resetsLeft t.moves = resetsLeft s.moves := by
  obtain ⟨spent, -, hrst, hm⟩ := h
  have hspent : resetsLeft spent = 0 := List.countP_eq_zero.mpr fun m hmem => by
    simpa using ne_of_mem_of_not_mem hmem hrst
  rw [hm, resetsLeft_append, hspent, Nat.zero_add]

/-- The bytes that the host has yet to send the device are listed, whatever mode the device is in by then. -/
theorem Spends.listed (h : Spends s t) (hl : DeviceBytesListed s) : DeviceBytesListed t := by
  obtain ⟨spent, -, hrst, hm⟩ := h
  intro b hb
  refine decodeDevice_listed s.device.mode _ (hl b ?_)
  rw [hm, List.takeWhile_append_of_pos fun m hmem => by simpa using ne_of_mem_of_not_mem hmem hrst]
  exact List.mem_append_right _ hb

/-! ## On the way to the end -/

/-- What is still to come of a run that ends with the result `r'`: nothing, or the rest of a command and whole commands
after it. -/
inductive OnTheWay (r' : Memory × List TxEvent) (s : State) : Prop where
  | ended (hseq : s.seq = .idle) (hbytes : runBytes s.moves = []) (hresult : result s = r')
  | inside {i : Instr} {is : List Instr} {q : List Byte} {r : Memory × List TxEvent}
      (hprogram : ∀ j ∈ i :: is, j.space = .command ∧ j.wf = true) (hmidway : Midway i r q s) (hq : q ≠ [])
      (hbytes : runBytes s.moves = q ++ is.flatMap encode) (hresult : programResult is (commandResult i r) = r')

variable {r' : Memory × List TxEvent}

/-- At a command boundary whole commands are still to come. -/
theorem onTheWay_of_program {program : List Instr} (hprogram : ∀ i ∈ program, i.space = .command ∧ i.wf = true)
    (hseq : s.seq = .idle) (hbytes : runBytes s.moves = program.flatMap encode) :
    OnTheWay (programResult program (result s)) s := by
  cases program with
  | nil => exact .ended hseq hbytes rfl
  | cons i is =>
    have hnone : takenBefore s = [] := by simp only [takenBefore, hseq]
    exact .inside hprogram (.operands (.inl hseq) (by rw [hnone]; rfl) rfl) (encode_ne_nil i) hbytes rfl

/-- What the host does on another wire brings the run no further and does not stop it. -/
theorem OnTheWay.set_environment (h : OnTheWay r' s) (d : Device) {ms : List HostMove}
    (hms : runBytes ms = runBytes s.moves) (credit : Option Nat) (n : Nat) :
    OnTheWay r' { s with device := d, moves := ms, txCredit := credit, draws := n } := by
  cases h with
  | ended hseq hbytes hresult => exact .ended hseq (hms.trans hbytes) hresult
  | inside hprogram hmidway hq hbytes hresult =>
    exact .inside hprogram (hmidway.set_environment d ms credit n) hq (hms.trans hbytes) hresult

/-- What every step on the way does: it spends moves of the host, and the run is still on the way. -/
def Advances (r' : Memory × List TxEvent) (s : State) : Prop :=
  ∃ t, step s = .next t ∧ Unhindered t ∧ OnTheWay r' t ∧ Spends s t

theorem OnTheWay.advances_dev {b : Byte} (h : OnTheWay r' s) (hs : Unhindered s) (hl : DeviceBytesListed s)
    (hm : s.moves = .dev b :: rest) : Advances r' s := by
  obtain ⟨j, hread⟩ := Option.ne_none_iff_exists'.mp (hl b (by simp [hm]))
  have hrest : s.moves.tail = rest := congrArg List.tail hm
  exact ⟨_, step_of_deviceByte (.inl hs.tx) hm hread, ⟨hs.fault, hs.tx, hs.live⟩,
    h.set_environment _ (by rw [hrest, hm, runBytes_dev]) _ _, [.dev b], by simp, by simp,
    hm.trans (congrArg (.dev b :: ·) hrest.symm)⟩

theorem OnTheWay.advances_txReady {n : Nat} (h : OnTheWay r' s) (hs : Unhindered s) (hm : s.moves = .txReady n :: rest) :
    Advances r' s := by
  have hlive : s.txCredit.map (· + n) = none := Option.map_eq_none_iff.mpr hs.live
  exact ⟨_, step_of_wire (m := .txReady n) (fun _ => nofun) (.inl hs.tx) hm, ⟨hs.fault, hs.tx, hlive⟩,
    h.set_environment s.device (by rw [hm, runBytes_txReady]) _ s.draws, [.txReady n], by simp, by simp, hm⟩

/-- A step on the way, by the host's next move: a byte for the device, credit for the collaborator, or bytes of the
command in progress, all that it needs or some of them. -/
theorem OnTheWay.advances (h : OnTheWay r' s) (hs : Unhindered s) (hl : DeviceBytesListed s)
    (hmore : runBytes s.moves ≠ []) : Advances r' s := by
  cases hm : s.moves with
  | nil => simp [hm] at hmore
  | cons m rest =>
    cases m with
    | rst => simp [hm] at hmore
    | dev b => exact h.advances_dev hs hl hm
    | txReady n => exact h.advances_txReady hs hm
    | cmd b =>
      cases h with
      | ended _ hbytes _ => exact absurd hbytes hmore
      | @inside i is q r hprogram hmidway hq hbytes hresult =>
        obtain ⟨⟨hc, hw⟩, his⟩ := List.forall_mem_cons.mp hprogram
        rcases offered_cases hbytes with ⟨rest', hall, hrest⟩ | ⟨p, q', rest', rfl, hq', hsome, hnone, hrest⟩
        · obtain ⟨t, hstep, hseq, ht, htm, hend⟩ := hmidway.step_whole hw hc hs hq hall
          have hway := onTheWay_of_program his hseq (by rw [htm, hrest])
          rw [hend, hresult] at hway
          exact ⟨t, hstep, ht, hway, spends_cmds hq (htm ▸ hall)⟩
        · have hp : p ≠ [] := by
            rintro rfl
            obtain rfl : rest' = .cmd b :: rest := hsome.symm.trans hm
            cases hnone
          obtain ⟨t, hstep, hmidway', ht, htm⟩ := hmidway.step_cut hw hc hs hp hq' hsome hnone
          exact ⟨t, hstep, ht, .inside hprogram hmidway' hq' (htm ▸ hrest) hresult, spends_cmds hp (htm ▸ hsome)⟩

/-- A run on the way ends normally, after no more steps than the host has moves. -/
theorem OnTheWay.endsNormally (h : OnTheWay r' s) (hs : Unhindered s) (hl : DeviceBytesListed s) :
    ∃ k t, k ≤ s.moves.length ∧ EndsNormallyAt k s t ∧ result t = r' := by
  induction hn : s.moves.length using Nat.strong_induction_on generalizing s with
  | _ n ih =>
    subst hn
    by_cases hbytes : runBytes s.moves = []
    · cases h with
      | ended hseq _ hresult =>
        exact ⟨0, s, Nat.zero_le _, endsNormallyAt_zero ⟨hbytes, hseq, hs.fault, hs.tx⟩, hresult⟩
      | inside _ _ hq hmore _ => simp [hbytes, hq] at hmore
    · have hended : ¬RunEnded s := fun hend => hbytes hend.1
      obtain ⟨u, hstep, hu, hway, hspends⟩ := h.advances hs hl hbytes
      obtain ⟨k, t, hk, hend, hresult⟩ := ih _ hspends.length_lt hway hu (hspends.listed hl) rfl
      exact ⟨k + 1, t, hk.trans_lt hspends.length_lt, hend.succ hstep hended hspends.resetsLeft_eq, hresult⟩

/-- Settles O57: a run of whole commands is on its way to the result of its commands applied one after another
(`onTheWay_of_program`, `runAll_result`), and ends there. -/
theorem wholeCommandsEndNormally : Obligations.WholeCommandsEndNormally := by
  unfold Obligations.WholeCommandsEndNormally
  intro program s hs hlive ⟨hprogram, hbytes⟩ hl
  have hunhindered := unhindered_of_cleanEntry hs hlive
  have ⟨hseq, _, _⟩ := hs
  obtain ⟨k, t, hk, hend, hresult⟩ := (onTheWay_of_program hprogram hseq hbytes).endsNormally hunhindered hl
  obtain ⟨u, hall, hu⟩ := runAll_result program hunhindered
  obtain ⟨hfb, htrace⟩ := Prod.mk.inj (hresult.trans hu.symm)
  exact ⟨k, t, u, hk, hend, hall, hfb, htrace⟩

end Sys2Proof.Machine
end
